-- ==== Sys2Proof/Word.lean ====
section
/-! DEFINITION. The word types of the block: octets, and the 16- and 32-bit unsigned values `u16` and `u32` of rule R7. -/

namespace Sys2Proof

/-- One octet of a buffer (R6). -/
abbrev Octet := BitVec 8

/-- An unsigned 16-bit value (R7). -/
abbrev U16 := BitVec 16

/-- An unsigned 32-bit value (R7). -/
abbrev U32 := BitVec 32

end Sys2Proof
end

