-- ==== Sys2Proof/Machine/Memory.lean ====
section
/-! DEFINITION. Octet-addressed storage (the OUT buffer, R50(b)) as a list of cells in one canonical form: addresses
strictly rising, and no cell holding what an unlisted address reads as. -/

namespace Sys2Proof.Machine

/-- Octets by address. -/
abbrev Memory := List Host.Cell

/-- What an address that no cell lists reads as: 0, since a response field that a command does not define reads 0
(R30, R97). -/
def Memory.unlisted : Octet := 0

/-- Nothing listed: every octet reads 0. -/
def Memory.empty : Memory := []

/-- The octet at an address. -/
def Memory.read : Memory → Nat → Octet
  | [], _ => Memory.unlisted
  | (b, v) :: m, a => if a = b then v else Memory.read m a

/-- Put one cell in front of a memory, unless it would hold what an unlisted address reads as. -/
def Memory.cons (a : Nat) (v : Octet) (m : Memory) : Memory :=
  if v = Memory.unlisted then m else (a, v) :: m

/-- Write one octet, keeping the canonical form. -/
def Memory.write : Memory → Nat → Octet → Memory
  | [], a, v => Memory.cons a v []
  | (b, w) :: m, a, v =>
    if a < b then Memory.cons a v ((b, w) :: m)
    else if a = b then Memory.cons a v m
    else (b, w) :: Memory.write m a v

/-- Write octets at successive addresses from `a` on: `MemWrite` (R8) of the big-endian octets of a value. -/
def Memory.writeOctets : Memory → Nat → List Octet → Memory
  | m, _, [] => m
  | m, a, v :: vs => Memory.writeOctets (Memory.write m a v) (a + 1) vs

/-- The `n` octets from address `a` on. -/
def Memory.octets (m : Memory) (a n : Nat) : List Octet :=
  (List.range n).map fun i => Memory.read m (a + i)

/-- The canonical form of a memory whose listed addresses are all at least `lo`. -/
def Memory.wfFrom : Nat → Memory → Bool
  | _, [] => true
  | lo, (a, v) :: m => decide (lo ≤ a) && decide (v ≠ Memory.unlisted) && Memory.wfFrom (a + 1) m

/-- The canonical form: addresses strictly rising, no cell holding the unlisted value. -/
def Memory.wf (m : Memory) : Bool := Memory.wfFrom 0 m

/-- Every listed address lies below `n`. -/
def Memory.within (n : Nat) (m : Memory) : Bool := m.all fun c => decide (c.1 < n)

end Sys2Proof.Machine
end

