-- ==== Sys2Proof/Machine/Records.lean ====
section
/-! DEFINITION. The records the spec names: outcome codes (R231, R173), the decoded RTP packet (R101), the decoded RTCP
packets (R121), the reception report block (R90, R121), the source-table entry (R22) and the response (R30). -/

namespace Sys2Proof.Machine

/-- The outcome of a command (R231). -/
inductive Status where
  | ok | rejected | tooShort | badVersion | lengthMismatch | illegalCommand | tableFull | noSuchSource
  deriving DecidableEq, Repr, Inhabited

/-- The branch RTP_RECEIVED took (R173). -/
inductive RxClass where
  | newSource | probAdvance | probReset | inOrder | duplicate | jump | restart
  deriving DecidableEq, Repr, Inhabited

/-- A decoded RTP header extension (R72, R101). -/
structure RtpExtension where
  profile : U16
  length : U16
  data : List Octet
  deriving DecidableEq, Repr, Inhabited

/-- The record of the response field `RTP` (R101). -/
structure RtpPacket where
  version : BitVec 2
  padding : BitVec 1
  extension : BitVec 1
  cc : BitVec 4
  marker : BitVec 1
  pt : BitVec 7
  seq : U16
  timestamp : U32
  ssrc : U32
  csrc : List U32
  ext : Option RtpExtension
  payloadOffset : Nat
  payload : List Octet
  deriving DecidableEq, Repr, Inhabited

/-- A reception report block as fields (R90, R121). `cumLost` is the signed value, in [-2^23, 2^23 - 1]. -/
structure ReportBlock where
  ssrc : U32
  fraction : Octet
  cumLost : Int
  extMax : U32
  jitter : U32
  lsr : U32
  dlsr : U32
  deriving DecidableEq, Repr, Inhabited

/-- One SDES item (R81, R121). -/
structure SdesItem where
  type : Octet
  length : Octet
  text : List Octet
  deriving DecidableEq, Repr, Inhabited

/-- One SDES chunk (R80, R121). -/
structure SdesChunk where
  ssrc : U32
  items : List SdesItem
  deriving DecidableEq, Repr, Inhabited

/-- The type-specific part of a decoded RTCP packet (R121). -/
inductive RtcpBody where
  | sr (ssrc ntpMsw ntpLsw rtpTs packetCount octetCount : U32) (blocks : List ReportBlock)
  | rr (ssrc : U32) (blocks : List ReportBlock)
  | sdes (chunks : List SdesChunk)
  | bye (ssrcs : List U32) (reason : Option (List Octet))
  | app (subtype : BitVec 5) (data : List Octet)
  | other (data : List Octet)
  deriving DecidableEq, Repr, Inhabited

/-- One record of the response field `PKTS` (R121). -/
structure RtcpPacket where
  version : BitVec 2
  padding : BitVec 1
  count : BitVec 5
  pt : Octet
  length : U16
  padLen : Octet
  body : RtcpBody
  deriving DecidableEq, Repr, Inhabited

/-- One allocated entry of the source table (R22). `alloc` is 1 exactly for the entries the table lists (R21).
`expectedPrior` is read as a signed 64-bit value. -/
structure Entry where
  ssrc : U32
  maxSeq : U16
  cycles : U32
  baseSeq : U16
  badSeq : BitVec 17
  probation : BitVec 8
  received : U32
  expectedPrior : BitVec 64
  receivedPrior : U32
  transitPrev : U32
  transitValid : BitVec 1
  jitter : U32
  deriving DecidableEq, Repr, Inhabited

/-- The source table (R21) as the finite map from SSRC to entry that R21 allows: entries in strictly rising order of
SSRC, one per allocated entry. -/
abbrev Table := List Entry

/-- The response fields (R30). -/
structure Response where
  status : BitVec 4
  cls : BitVec 3
  res0 : U32
  rtp : RtpPacket
  pkts : List RtcpPacket
  rb : ReportBlock
  out : Memory
  q : Entry
  deriving DecidableEq, Repr, Inhabited

end Sys2Proof.Machine
end

