-- ==== Sys2Proof/Config.lean ====
section
/-! DEFINITION. What is fixed for a block: the hardwired constants (R12), the OPEN parameters as a record (R11), and the
free values for what the spec leaves unspecified (R35). -/

namespace Sys2Proof

/-- `RTP_SEQ_MOD` (R12). -/
def Config.rtpSeqMod : Nat := 65536

/-- `MAX_DROPOUT` (R12). -/
def Config.maxDropout : Nat := 3000

/-- `MAX_MISORDER` (R12). -/
def Config.maxMisorder : Nat := 100

/-- `MIN_SEQUENTIAL` (R12). -/
def Config.minSequential : Nat := 2

/-- `BAD_SEQ_NONE = RTP_SEQ_MOD + 1` (R12). -/
def Config.badSeqNone : Nat := Config.rtpSeqMod + 1

/-- The jitter gain is one part in this many (R12). -/
def Config.jitterGain : Int := 16

/-- Octets in a reception report block, and so in OUT (R50(b), R90). -/
def Config.outOctets : Nat := 24

/-- The two OPEN parameters of a block instance (R11). -/
structure Params where
  maxSources : Nat
  maxBufOctets : Nat
  deriving DecidableEq, Repr, Inhabited

/-- What R11 asks of the parameters. -/
def Params.wf (p : Params) : Bool := decide (1 ≤ p.maxSources) && decide (12 ≤ p.maxBufOctets)

/-- DESIGN CHOICE (log entry 1): the instance that State.reset carries, the one 95_test_vectors.md uses. -/
def Config.resetParams : Params := { maxSources := 16, maxBufOctets := 1500 }

/-! Free values (log entry 3): the response fields are unspecified after a reset (R35, R260). Each is applied to the
number of unspecified responses drawn before. -/

/-- STATUS after a reset signal. -/
opaque Config.freeStatus : Nat → BitVec 4

/-- CLASS after a reset signal. -/
opaque Config.freeClass : Nat → BitVec 3

/-- RES0 after a reset signal. -/
opaque Config.freeRes0 : Nat → U32

/-- RTP after a reset signal. -/
opaque Config.freeRtp : Nat → Machine.RtpPacket

/-- PKTS after a reset signal. -/
opaque Config.freePkts : Nat → List Machine.RtcpPacket

/-- RB after a reset signal. -/
opaque Config.freeRb : Nat → Machine.ReportBlock

/-- The octet of OUT at an offset after a reset signal. -/
opaque Config.freeOut : Nat → Nat → Octet

/-- Q after a reset signal. -/
opaque Config.freeQ : Nat → Machine.Entry

end Sys2Proof
end

