-- ==== Sys2Proof/Syntax.lean ====
section
/-! DEFINITION. What the host hands the block (R29, R99, R266) and the instructions: one constructor per row of
spec/opcode_table.json. -/

namespace Sys2Proof

/-- The fields of one command (R29). BUF_LEN is the length of `buf`. -/
structure Command where
  cmd : U32
  arg0 : U32
  arg1 : U32
  arg2 : U32
  arg3 : U32
  buf : List Octet
  deriving DecidableEq, Repr

/-- One input of the host (R266): a command, the reset signal (R261), or the pseudo-command RECV_RTP (R99). -/
inductive HostEvent where
  | command (c : Command)
  | reset
  | recvRtp (buf : List Octet) (arrival : U32)
  deriving DecidableEq, Repr

/-- The instructions. The first seven are the command words of R93 and R94 with the operands of R95; the last seven are
the wire rows: one packet whose header word has been read, with the octets that follow that word. -/
inductive Instr where
  /-- DECODE_RTP (R100). -/
  | decodeRtp (buf : List Octet)
  /-- DECODE_RTCP (R120). -/
  | decodeRtcp (buf : List Octet)
  /-- RTP_RECEIVED (R160). -/
  | rtpReceived (ssrc : U32) (seq : U16) (rtpTs arrival : U32)
  /-- BUILD_REPORT (R200): `supplied` is `some (lsr, dlsr)` exactly when LSRV = 1. -/
  | buildReport (ssrc : U32) (supplied : Option (U32 × U32))
  /-- REMOVE_SOURCE (R220). -/
  | removeSource (ssrc : U32)
  /-- QUERY_SOURCE (R222). -/
  | querySource (ssrc : U32)
  /-- ILLEGAL (R94, R223): the command word as issued. -/
  | illegal (cmd : U32)
  /-- RTP_DATA (R70, R102): word 0 of an RTP packet of version 2; `rest` is every octet of BUF after it. -/
  | rtpData (padding extension : BitVec 1) (cc : BitVec 4) (marker : BitVec 1) (pt : BitVec 7) (seq : U16)
      (rest : List Octet)
  /-- RTCP_SR (R78, R126): `body` is the packet's octets after its common header. -/
  | rtcpSr (padding : BitVec 1) (count : BitVec 5) (length : U16) (body : List Octet)
  /-- RTCP_RR (R79, R127). -/
  | rtcpRr (padding : BitVec 1) (count : BitVec 5) (length : U16) (body : List Octet)
  /-- RTCP_SDES (R80, R134). -/
  | rtcpSdes (padding : BitVec 1) (count : BitVec 5) (length : U16) (body : List Octet)
  /-- RTCP_BYE (R82, R129). -/
  | rtcpBye (padding : BitVec 1) (count : BitVec 5) (length : U16) (body : List Octet)
  /-- RTCP_APP (R83, R131). -/
  | rtcpApp (padding : BitVec 1) (count : BitVec 5) (length : U16) (body : List Octet)
  /-- RTCP_OTHER (R89, R132): any packet type outside 200 to 204. -/
  | rtcpOther (pt : Octet) (padding : BitVec 1) (count : BitVec 5) (length : U16) (body : List Octet)
  deriving DecidableEq, Repr

/-- How an instruction lies before it is decoded: a command at the command port (R92), or the octets of one wire packet
in an RTP or an RTCP buffer (R70, R74). -/
inductive Words where
  | command (c : Command)
  | rtp (octets : List Octet)
  | rtcp (octets : List Octet)
  deriving DecidableEq, Repr

end Sys2Proof
end

