-- ==== Sys2Proof/Machine/State.lean ====
section
/-! DEFINITION. The machine's state as plain data, how a step can stop, and the state after reset. -/

namespace Sys2Proof.Machine

/-- Faults: there are none. The block raises no trap and has no fatal condition (R230, R235, R242), so no meaning and no
step raises a fault. -/
inductive Fault where
  deriving DecidableEq, Repr

/-- Refusals. -/
inductive Refusal where
  /-- Raised by an arm of exec for an instruction that has no meaning yet; safe. No arm raises it: every instruction of
  the opcode table has its meaning. -/
  | notModelled (mnemonic : String)
  deriving DecidableEq, Repr

/-- The state: the source table and the response fields of the last command (R20), and, as the model's own carriers, the
host inputs not yet taken (R29, R266), the instance's parameters (R11), and the count of unspecified responses drawn. -/
structure State where
  table : Table
  resp : Response
  pending : List HostEvent
  params : Params
  fresh : Nat
  deriving DecidableEq, Repr

/-- The entry record whose fields all read 0 (`Q` of a command that does not define it, R97). -/
def Entry.zero : Entry :=
  { ssrc := 0, maxSeq := 0, cycles := 0, baseSeq := 0, badSeq := 0, probation := 0, received := 0,
    expectedPrior := 0, receivedPrior := 0, transitPrev := 0, transitValid := 0, jitter := 0 }

/-- The all-zero `RTP` record (R97). -/
def RtpPacket.zero : RtpPacket :=
  { version := 0, padding := 0, extension := 0, cc := 0, marker := 0, pt := 0, seq := 0, timestamp := 0, ssrc := 0,
    csrc := [], ext := none, payloadOffset := 0, payload := [] }

/-- The all-zero `RB` record (R97). -/
def ReportBlock.zero : ReportBlock :=
  { ssrc := 0, fraction := 0, cumLost := 0, extMax := 0, jitter := 0, lsr := 0, dlsr := 0 }

/-- The response whose fields all read 0, an empty list or an all-zero record (R30, R97). -/
def Response.zero : Response :=
  { status := 0, cls := 0, res0 := 0, rtp := RtpPacket.zero, pkts := [], rb := ReportBlock.zero,
    out := Memory.empty, q := Entry.zero }

/-- The state after reset of the block instance with the given parameters: every entry free, no host input waiting
(R35, R260). The response fields, which R35 leaves unspecified, read 0 here (DESIGN CHOICE, log entry 2). -/
def State.resetWith (p : Params) : State :=
  { table := [], resp := Response.zero, pending := [], params := p, fresh := 0 }

/-- The state after reset. The parameters are OPEN (R11); this instance is log entry 1's. -/
def State.reset : State := State.resetWith Config.resetParams

end Sys2Proof.Machine
end

