-- ==== Sys2Proof/Machine/Flags.lean ====
section
/-! DEFINITION. The per-entry flags of R31, `probation` and `transit_valid`, and the codes of STATUS (R231) and CLASS
(R173). -/

namespace Sys2Proof.Machine

/-- The code of a STATUS (R231). -/
def Status.code : Status → BitVec 4
  | .ok => 0
  | .rejected => 1
  | .tooShort => 2
  | .badVersion => 3
  | .lengthMismatch => 4
  | .illegalCommand => 5
  | .tableFull => 6
  | .noSuchSource => 7

/-- The code of a CLASS (R173). -/
def RxClass.code : RxClass → BitVec 3
  | .newSource => 0
  | .probAdvance => 1
  | .probReset => 2
  | .inOrder => 3
  | .duplicate => 4
  | .jump => 5
  | .restart => 6

/-- The classes that accept the packet (R172, R173). -/
def RxClass.accepts : RxClass → Bool
  | .newSource => true
  | .probAdvance => true
  | .probReset => false
  | .inOrder => true
  | .duplicate => false
  | .jump => false
  | .restart => true

/-- `MIN_SEQUENTIAL − 1`, to which creation, restart and a mismatch set `probation` (R31). -/
def probationArmed : BitVec 8 := BitVec.ofNat 8 (Config.minSequential - 1)

/-- The entry is in state `Probation(n)` (R23). -/
def Entry.onProbation (e : Entry) : Bool := decide (e.probation ≠ 0)

/-- Arm probation (R31, R165). -/
def Entry.armProbation (e : Entry) : Entry := { e with probation := probationArmed }

/-- Count probation down by a match (R31, R164). -/
def Entry.countDownProbation (e : Entry) : Entry := { e with probation := e.probation - 1 }

/-- Keep a transit and mark that one exists (R31, R190). -/
def Entry.keepTransit (e : Entry) (transit : U32) : Entry := { e with transitPrev := transit, transitValid := 1 }

end Sys2Proof.Machine
end

