-- ==== Sys2Proof/Machine/Operands.lean ====
section
/-! DEFINITION. Operand forms: reading fields and octet lists from a buffer (R8, R53, R56, R88), splitting a value into
its big-endian octets, the fields of the command word (R92, R94), and the arithmetic of R7. -/

namespace Sys2Proof.Machine

/-- `BUF[o]`. Every caller has checked that `o` lies inside the buffer (R51); outside it the value is immaterial
(log entry 10). -/
def octetAt (buf : List Octet) (o : Nat) : Octet := (buf[o]?).getD 0

/-- `MemRead(o, 1)` (R8). -/
def memRead1 (buf : List Octet) (o : Nat) : Octet := octetAt buf o

/-- `MemRead(o, 2)` (R8). -/
def memRead2 (buf : List Octet) (o : Nat) : U16 := octetAt buf o ++ octetAt buf (o + 1)

/-- `MemRead(o, 3)` (R8). -/
def memRead3 (buf : List Octet) (o : Nat) : BitVec 24 :=
  octetAt buf o ++ octetAt buf (o + 1) ++ octetAt buf (o + 2)

/-- `MemRead(o, 4)` (R8). -/
def memRead4 (buf : List Octet) (o : Nat) : U32 :=
  octetAt buf o ++ octetAt buf (o + 1) ++ octetAt buf (o + 2) ++ octetAt buf (o + 3)

/-- `Octets(o, n)` (R8). -/
def octets (buf : List Octet) (o n : Nat) : List Octet := (buf.drop o).take n

/-- The big-endian octets of a 16-bit value. -/
def octetsOf2 (v : U16) : List Octet := [v.extractLsb' 8 8, v.extractLsb' 0 8]

/-- The big-endian octets of a 24-bit value. -/
def octetsOf3 (v : BitVec 24) : List Octet := [v.extractLsb' 16 8, v.extractLsb' 8 8, v.extractLsb' 0 8]

/-- The big-endian octets of a 32-bit value. -/
def octetsOf4 (v : U32) : List Octet :=
  [v.extractLsb' 24 8, v.extractLsb' 16 8, v.extractLsb' 8 8, v.extractLsb' 0 8]

/-! ## Fields of the command word and of a packet type -/

/-- `OPC = CMD[7:0]` (R92). -/
def opcodeOf (cmd : U32) : Octet := cmd.extractLsb' 0 8

/-- `LSRV = CMD[8]` (R92). -/
def lsrvOf (cmd : U32) : BitVec 1 := cmd.extractLsb' 8 1

/-- `CMD[31:9]`, reserved (R92). -/
def reservedOf (cmd : U32) : BitVec 23 := cmd.extractLsb' 9 23

/-- The illegal command words of R94, as CommandCheck of R223 tests them. -/
def illegalWord (cmd : U32) : Bool :=
  decide (reservedOf cmd ≠ 0)
    || decide (opcodeOf cmd = 0 ∨ 7 ≤ (opcodeOf cmd).toNat)
    || decide (lsrvOf cmd = 1 ∧ opcodeOf cmd ≠ 4)

/-- The packet types that have a row of their own (R76): 200 to 204. -/
def namedPacketType (pt : Octet) : Bool := decide (200 ≤ pt.toNat ∧ pt.toNat ≤ 204)

/-! ## Numbers -/

/-- `roundup4(n)` (R7). -/
def roundup4 (n : Nat) : Nat := 4 * ((n + 3) / 4)

/-- `sext_N(v)` (R7). -/
def sext {w : Nat} (v : BitVec w) : Int := v.toInt

/-- `tdiv(a, b)`: division that truncates toward zero (R7). -/
def tdiv (a b : Int) : Int := Int.tdiv a b

/-- `abs(v)` (R7). -/
def absVal (v : Int) : Int := if v < 0 then -v else v

end Sys2Proof.Machine
end

