-- ==== Sys2Proof/Machine/Ops.lean ====
section
/-! DEFINITION. The named operations over the source table, the response and OUT: lookup, allocation, freeing, raise,
return and emit (R9), and the reset signal (R260). The block has no trap to take (R235); `State.raise` is how a command
ends in an error. -/

namespace Sys2Proof.Machine

/-- What one step answers. -/
abbrev Outcome := Host.Outcome State Fault Refusal

/-! ## The source table (R10, R21) -/

/-- `T[s]`: the allocated entry of an SSRC, if there is one. -/
def Table.lookup : Table → U32 → Option Entry
  | [], _ => none
  | e :: t, s => if e.ssrc = s then some e else Table.lookup t s

/-- `T[e.ssrc] <- e`: allocate the entry, or replace the one its SSRC has. -/
def Table.put : Table → Entry → Table
  | [], e => [e]
  | d :: t, e =>
    if e.ssrc.toNat < d.ssrc.toNat then e :: d :: t
    else if e.ssrc = d.ssrc then e :: t
    else d :: Table.put t e

/-- `T[s].alloc <- 0`: free the entry of an SSRC. -/
def Table.free : Table → U32 → Table
  | [], _ => []
  | d :: t, s => if d.ssrc = s then t else d :: Table.free t s

/-- `count(T)`: how many entries are allocated. -/
def Table.count (t : Table) : Nat := t.length

/-- The entries stand in strictly rising order of SSRC, each at least `lo`: at most one entry per SSRC (R21). -/
def Table.sortedFrom : Nat → Table → Bool
  | _, [] => true
  | lo, e :: t => decide (lo ≤ e.ssrc.toNat) && Table.sortedFrom (e.ssrc.toNat + 1) t

/-- The canonical form of the table. -/
def Table.sorted (t : Table) : Bool := Table.sortedFrom 0 t

/-- `InitEntry(s, seq)` (R26). -/
def initEntry (s : U32) (seq : U16) : Entry :=
  { ssrc := s, maxSeq := seq, cycles := 0, baseSeq := seq, badSeq := BitVec.ofNat 17 Config.badSeqNone,
    probation := probationArmed, received := 1, expectedPrior := 0, receivedPrior := 0,
    transitPrev := 0, transitValid := 0, jitter := 0 }

/-- `ExtMax(E)` (R25). -/
def Entry.extMax (e : Entry) : U32 := e.cycles + e.maxSeq.setWidth 32

/-! ## The response (R9, R30, R97) -/

/-- Write the whole response. -/
def State.respond (s : State) (r : Response) : State := { s with resp := r }

/-- Replace the source table. -/
def State.withTable (s : State) (t : Table) : State := { s with table := t }

/-- Take the first host input off. -/
def State.withPending (s : State) (p : List HostEvent) : State := { s with pending := p }

/-- The response of a STATUS with every other field 0. -/
def Response.ofStatus (st : Status) : Response := { Response.zero with status := st.code }

/-- `raise <Status>` (R9): the command ends with that STATUS, every other response field 0, and the table as it was. -/
def State.raise (s : State) (st : Status) : Outcome := .next (s.respond (Response.ofStatus st))

/-- `return OK` with a response (R9). -/
def State.finish (s : State) (r : Response) : Outcome := .next (s.respond r)

/-- End a step of DECODE_RTCP: `emit` the decoded packet, or raise and keep the packets decoded before (R9, R97, D35). -/
def State.emit (s : State) : Except Status RtcpPacket → Outcome
  | .ok p => s.finish { Response.ofStatus .ok with pkts := s.resp.pkts ++ [p] }
  | .error st => s.finish { Response.ofStatus st with pkts := s.resp.pkts }

/-! ## Reset (R260, R261) -/

/-- OUT with an unspecified octet at each offset. -/
def freeOut (k : Nat) : Memory :=
  Memory.empty.writeOctets 0 ((List.range Config.outOctets).map (Config.freeOut k))

/-- The response after a reset signal: unspecified, so every field is a free value (R35, log entry 3). -/
def Response.unspecified (k : Nat) : Response :=
  { status := Config.freeStatus k, cls := Config.freeClass k, res0 := Config.freeRes0 k, rtp := Config.freeRtp k,
    pkts := Config.freePkts k, rb := Config.freeRb k, out := freeOut k, q := Config.freeQ k }

/-- The reset signal: every entry is freed, and the response fields become unspecified (R260). -/
def State.resetSignal (s : State) : State :=
  { s with table := [], resp := Response.unspecified s.fresh, fresh := s.fresh + 1 }

end Sys2Proof.Machine
end

