-- ==== Sys2Proof/Machine/Report.lean ====
section
/-! DEFINITION. BUILD_REPORT and the reception report block encoder (R200 to R212). -/

namespace Sys2Proof.Machine

/-- `expected` (R202). -/
def expectedOf (e : Entry) : Int := (e.extMax.toNat : Int) - (e.baseSeq.toNat : Int) + 1

/-- `lost` (R203), before it is limited to the field. -/
def lostOf (e : Entry) : Int := max 0 (expectedOf e - (e.received.toNat : Int))

/-- `cum_lost` (R203). -/
def cumLostOf (e : Entry) : Int := min (lostOf e) (2 ^ 23 - 1)

/-- `expected_interval` (R204). -/
def expectedInterval (e : Entry) : Int := expectedOf e - sext e.expectedPrior

/-- `received_interval` (R204). -/
def receivedInterval (e : Entry) : Int := (e.received.toNat : Int) - (e.receivedPrior.toNat : Int)

/-- `lost_interval` (R204). -/
def lostInterval (e : Entry) : Int := expectedInterval e - receivedInterval e

/-- The rounded, saturated fraction of two interval counts (R205). -/
def fractionOf (expectedInt lostInt : Int) : Int :=
  if expectedInt ≤ 0 ∨ lostInt ≤ 0 then 0
  else min 255 ((512 * lostInt + expectedInt) / (2 * expectedInt))

/-- The report block of an entry (R201, R206, R207). -/
def reportOf (e : Entry) (supplied : Option (U32 × U32)) : ReportBlock :=
  { ssrc := e.ssrc
    fraction := BitVec.ofInt 8 (fractionOf (expectedInterval e) (lostInterval e))
    cumLost := cumLostOf e
    extMax := e.extMax
    jitter := e.jitter
    lsr := (supplied.map Prod.fst).getD 0
    dlsr := (supplied.map Prod.snd).getD 0 }

/-- `EncodeBlock(RB)` (R209): `MemWrite` of each field at its offset. -/
def encodeBlock (m : Memory) (b : ReportBlock) : Memory :=
  let m := m.writeOctets 0 (octetsOf4 b.ssrc)
  let m := m.writeOctets 4 [b.fraction]
  let m := m.writeOctets 5 (octetsOf3 (BitVec.ofInt 24 b.cumLost))
  let m := m.writeOctets 8 (octetsOf4 b.extMax)
  let m := m.writeOctets 12 (octetsOf4 b.jitter)
  let m := m.writeOctets 16 (octetsOf4 b.lsr)
  m.writeOctets 20 (octetsOf4 b.dlsr)

/-- The snapshot after a report (R208). -/
def Entry.snapshot (e : Entry) : Entry :=
  { e with expectedPrior := BitVec.ofInt 64 (expectedOf e), receivedPrior := e.received }

/-- The response of a report (R210). -/
def reportResponse (b : ReportBlock) : Response :=
  { Response.ofStatus .ok with rb := b, out := encodeBlock Memory.empty b }

/-- BUILD_REPORT (R201). -/
def execBuildReport (ssrc : U32) (supplied : Option (U32 × U32)) (s : State) : Outcome :=
  match s.table.lookup ssrc with
  | none => s.raise .noSuchSource
  | some e => (s.withTable (s.table.put e.snapshot)).finish (reportResponse (reportOf e supplied))

end Sys2Proof.Machine
end

