-- ==== Sys2Proof/WellFormed.lean ====
section
/-! DEFINITION. Which instruction terms the encodings of the spec can produce: the illegal words (R94), and the sizes that
tie a wire packet's octets to its header word (R70, R75, R76). -/

namespace Sys2Proof

open Machine

/-- An RTCP packet's octets after its common header: `4·(length+1)` less the header's 4 (R75). -/
def bodyFits (length : U16) (body : List Octet) : Bool := decide (body.length = 4 * length.toNat)

/-- Well-formed instructions. -/
def Instr.wellFormed : Instr → Bool
  | .decodeRtp _ => true
  | .decodeRtcp _ => true
  | .rtpReceived _ _ _ _ => true
  | .buildReport _ _ => true
  | .removeSource _ => true
  | .querySource _ => true
  | .illegal cmd => illegalWord cmd
  | .rtpData _ _ _ _ _ _ rest => decide (8 ≤ rest.length)
  | .rtcpSr _ _ length body => bodyFits length body
  | .rtcpRr _ _ length body => bodyFits length body
  | .rtcpSdes _ _ length body => bodyFits length body
  | .rtcpBye _ _ length body => bodyFits length body
  | .rtcpApp _ _ length body => bodyFits length body
  | .rtcpOther pt _ _ length body => bodyFits length body && !namedPacketType pt

end Sys2Proof
end

