-- ==== Sys2Proof/Decode.lean ====
section
/-! DEFINITION. Decoding of command words (R92 to R95) and of wire packets (R70, R74, R86, R122), each total; then the
encoder, and the reading of a word of spec/opcode_table.json. -/

namespace Sys2Proof

open Machine

/-! ## Commands -/

/-- `lsr` and `dlsr` as supplied by a command: only when LSRV = 1 (R95, R207). -/
def suppliedOf (c : Command) : Option (U32 × U32) :=
  if lsrvOf c.cmd = 1 then some (c.arg1, c.arg2) else none

/-- The instruction of a command: CommandCheck (R223), the opcode map (R93) and the argument mapping (R95). -/
def decodeCommand (c : Command) : Instr :=
  if illegalWord c.cmd then .illegal c.cmd
  else if opcodeOf c.cmd = 1 then .decodeRtp c.buf
  else if opcodeOf c.cmd = 2 then .decodeRtcp c.buf
  else if opcodeOf c.cmd = 3 then .rtpReceived c.arg0 (c.arg1.extractLsb' 0 16) c.arg2 c.arg3
  else if opcodeOf c.cmd = 4 then .buildReport c.arg0 (suppliedOf c)
  else if opcodeOf c.cmd = 5 then .removeSource c.arg0
  else .querySource c.arg0

/-! ## Wire packets -/

/-- The fields of octets 0 to 3 of an RTP packet, less the version (R70). -/
structure RtpWord where
  padding : BitVec 1
  extension : BitVec 1
  cc : BitVec 4
  marker : BitVec 1
  pt : BitVec 7
  seq : U16
  deriving DecidableEq, Repr

/-- The fields of an RTCP common header, less the version (R74). -/
structure RtcpHeader where
  padding : BitVec 1
  count : BitVec 5
  pt : Octet
  length : U16
  deriving DecidableEq, Repr

/-- V of the packet that starts at octet 0 (R70, R74). -/
def versionOf (buf : List Octet) : BitVec 2 := (memRead1 buf 0).extractLsb' 6 2

/-- Octets 0 to 3 of an RTP packet as fields (R70). -/
def rtpWordOf (buf : List Octet) : RtpWord :=
  { padding := (memRead1 buf 0).extractLsb' 5 1
    extension := (memRead1 buf 0).extractLsb' 4 1
    cc := (memRead1 buf 0).extractLsb' 0 4
    marker := (memRead1 buf 1).extractLsb' 7 1
    pt := (memRead1 buf 1).extractLsb' 0 7
    seq := memRead2 buf 2 }

/-- An RTCP common header as fields (R74). -/
def rtcpHeaderOf (buf : List Octet) : RtcpHeader :=
  { padding := (memRead1 buf 0).extractLsb' 5 1
    count := (memRead1 buf 0).extractLsb' 0 5
    pt := memRead1 buf 1
    length := memRead2 buf 2 }

/-- Octets of the whole packet: `4·(length+1)` (R75). -/
def packetOctets (length : U16) : Nat := 4 * (length.toNat + 1)

/-- The first two checks of R102, with the fields of word 0 and the octets after it. -/
def frameRtp (buf : List Octet) : Except Status (RtpWord × List Octet) :=
  if buf.length < 12 then .error .tooShort
  else if versionOf buf ≠ 2 then .error .badVersion
  else .ok (rtpWordOf buf, buf.drop 4)

/-- The checks of R122 before padding, on the octets from offset `o` on: the header's fields, the packet's octets after
its header, and the octets after the packet. -/
def frameRtcp (buf : List Octet) : Except Status (RtcpHeader × List Octet × List Octet) :=
  if buf.length < 4 then .error .lengthMismatch
  else if versionOf buf ≠ 2 then .error .badVersion
  else
    let n := packetOctets (rtcpHeaderOf buf).length
    if buf.length < n then .error .lengthMismatch
    else .ok (rtcpHeaderOf buf, octets buf 4 (n - 4), buf.drop n)

/-- The wire instruction of an RTP packet (R102). -/
def RtpWord.instr (w : RtpWord) (rest : List Octet) : Instr :=
  .rtpData w.padding w.extension w.cc w.marker w.pt w.seq rest

/-- The wire instruction of an RTCP packet, by its packet type (R76, R125, R132). -/
def RtcpHeader.instr (h : RtcpHeader) (body : List Octet) : Instr :=
  if h.pt = 200 then .rtcpSr h.padding h.count h.length body
  else if h.pt = 201 then .rtcpRr h.padding h.count h.length body
  else if h.pt = 202 then .rtcpSdes h.padding h.count h.length body
  else if h.pt = 203 then .rtcpBye h.padding h.count h.length body
  else if h.pt = 204 then .rtcpApp h.padding h.count h.length body
  else .rtcpOther h.pt h.padding h.count h.length body

/-- The instruction that words stand for, where there is one: a command always has one (an illegal word is the
instruction ILLEGAL); wire octets have one when they are framed as one whole packet. -/
def decodeWords : Words → Option Instr
  | .command c => some (decodeCommand c)
  | .rtp buf =>
    match frameRtp buf with
    | .ok (w, rest) => some (w.instr rest)
    | .error _ => none
  | .rtcp buf =>
    match frameRtcp buf with
    | .ok (h, body, []) => some (h.instr body)
    | .ok (_, _, _ :: _) => none
    | .error _ => none

/-! ## The encoder -/

/-- A command that carries a buffer only. The arguments, which it does not read, are 0: DESIGN CHOICE (log entry 22), since
R95 and I12 leave them any value. -/
def bufferCommand (cmd : U32) (buf : List Octet) : Command :=
  { cmd := cmd, arg0 := 0, arg1 := 0, arg2 := 0, arg3 := 0, buf := buf }

/-- A command that carries arguments only. BUF, which it does not read (R96), is empty: DESIGN CHOICE (log entry 22). -/
def argCommand (cmd arg0 arg1 arg2 arg3 : U32) : Command :=
  { cmd := cmd, arg0 := arg0, arg1 := arg1, arg2 := arg2, arg3 := arg3, buf := [] }

/-- The octets of an RTP packet of version 2 from word 0 and the rest (R70). -/
def rtpOctets (w : RtpWord) (rest : List Octet) : List Octet :=
  ((2#2 ++ w.padding ++ w.extension ++ w.cc : BitVec 8)) :: ((w.marker ++ w.pt : BitVec 8)) ::
    (octetsOf2 w.seq ++ rest)

/-- The octets of an RTCP packet of version 2 from its header fields and the rest (R74). -/
def rtcpOctets (h : RtcpHeader) (body : List Octet) : List Octet :=
  ((2#2 ++ h.padding ++ h.count : BitVec 8)) :: h.pt :: (octetsOf2 h.length ++ body)

/-- The words of an instruction: the assembly forms of R98 and the layouts of R70 and R74. What a command does not read,
ARG1[31:16] of RTP_RECEIVED too, is 0 or empty: DESIGN CHOICE (log entry 22), since R95 and I12 leave it any value. -/
def encode : Instr → Words
  | .decodeRtp buf => .command (bufferCommand 0x00000001 buf)
  | .decodeRtcp buf => .command (bufferCommand 0x00000002 buf)
  | .rtpReceived ssrc seq rtpTs arrival =>
    .command (argCommand 0x00000003 ssrc (seq.setWidth 32) rtpTs arrival)
  | .buildReport ssrc none => .command (argCommand 0x00000004 ssrc 0 0 0)
  | .buildReport ssrc (some (lsr, dlsr)) => .command (argCommand 0x00000104 ssrc lsr dlsr 0)
  | .removeSource ssrc => .command (argCommand 0x00000005 ssrc 0 0 0)
  | .querySource ssrc => .command (argCommand 0x00000006 ssrc 0 0 0)
  | .illegal cmd => .command (argCommand cmd 0 0 0 0)
  | .rtpData padding extension cc marker pt seq rest =>
    .rtp (rtpOctets { padding, extension, cc, marker, pt, seq } rest)
  | .rtcpSr padding count length body => .rtcp (rtcpOctets { padding, count, pt := 200, length } body)
  | .rtcpRr padding count length body => .rtcp (rtcpOctets { padding, count, pt := 201, length } body)
  | .rtcpSdes padding count length body => .rtcp (rtcpOctets { padding, count, pt := 202, length } body)
  | .rtcpBye padding count length body => .rtcp (rtcpOctets { padding, count, pt := 203, length } body)
  | .rtcpApp padding count length body => .rtcp (rtcpOctets { padding, count, pt := 204, length } body)
  | .rtcpOther pt padding count length body => .rtcp (rtcpOctets { padding, count, pt, length } body)

/-! ## Host inputs and the words of the opcode table -/

/-- The command through which the host hands over words: wire octets go in as the BUF of the decode command (R96). -/
def Words.issue : Words → Command
  | .command c => c
  | .rtp buf => bufferCommand 0x00000001 buf
  | .rtcp buf => bufferCommand 0x00000002 buf

/-- The command RECV_RTP issues second, from the RTP record its DECODE_RTP returned (R99). ARG1[31:16] and BUF, which it
does not read, are 0 and empty: DESIGN CHOICE (log entry 22). -/
def receivedCommand (p : RtpPacket) (arrival : U32) : Command :=
  argCommand 0x00000003 p.ssrc (p.seq.setWidth 32) p.timestamp arrival

/-- The words of a 32-bit word of spec/opcode_table.json, with every operand 0 (log entry 7). A word whose bits 31:30
hold 2 is no legal command word, and is read as the first word of a wire packet: of an RTCP packet when its second
octet is at least 200 (R76), else of an RTP packet. -/
def tableWords (nbits w : Nat) : Words :=
  let v : U32 := BitVec.ofNat 32 (w % 2 ^ nbits)
  if v.extractLsb' 30 2 = 2 then
    if 200 ≤ (v.extractLsb' 16 8).toNat then
      .rtcp (octetsOf4 v ++ List.replicate (4 * (v.extractLsb' 0 16).toNat) 0)
    else
      .rtp (octetsOf4 v ++ List.replicate
        (8 + 4 * (v.extractLsb' 24 4).toNat + 4 * (v.extractLsb' 28 1).toNat) 0)
  else .command (argCommand v 0 0 0 0)

/-- The instruction of a word of spec/opcode_table.json. -/
def decodeTableWord (nbits w : Nat) : Option Instr := decodeWords (tableWords nbits w)

end Sys2Proof
end

