-- ==== Sys2Proof/Machine/RtcpDecode.lean ====
section
/-! DEFINITION. DECODE_RTCP and its wire rows, one per packet type (R120 to R140). Offsets count from the start of the
packet, so `o` of the rules is 0 here. -/

namespace Sys2Proof.Machine

/-! ## Report blocks, SR and RR -/

/-- `DecodeBlock(q)` (R128). -/
def decodeBlock (pkt : List Octet) (q : Nat) : ReportBlock :=
  { ssrc := memRead4 pkt q, fraction := memRead1 pkt (q + 4), cumLost := sext (memRead3 pkt (q + 5)),
    extMax := memRead4 pkt (q + 8), jitter := memRead4 pkt (q + 12), lsr := memRead4 pkt (q + 16),
    dlsr := memRead4 pkt (q + 20) }

/-- The report blocks from offset `q` on (R126, R127). -/
def decodeBlocks (pkt : List Octet) (q n : Nat) : List ReportBlock :=
  (List.range n).map fun i => decodeBlock pkt (q + 24 * i)

/-- `DecodeSR` (R126). -/
def decodeSr (count : BitVec 5) (pkt : List Octet) (c : Nat) : Except Status RtcpBody :=
  if c ≠ 28 + 24 * count.toNat then .error .lengthMismatch
  else .ok (.sr (memRead4 pkt 4) (memRead4 pkt 8) (memRead4 pkt 12) (memRead4 pkt 16) (memRead4 pkt 20)
    (memRead4 pkt 24) (decodeBlocks pkt 28 count.toNat))

/-- `DecodeRR` (R127). -/
def decodeRr (count : BitVec 5) (pkt : List Octet) (c : Nat) : Except Status RtcpBody :=
  if c ≠ 8 + 24 * count.toNat then .error .lengthMismatch
  else .ok (.rr (memRead4 pkt 4) (decodeBlocks pkt 8 count.toNat))

/-! ## BYE, APP and other types -/

/-- `DecodeReason` (R130). -/
def decodeReason (pkt : List Octet) (p r : Nat) : Except Status (Option (List Octet)) :=
  if r = 0 then .ok none
  else
    let l := (memRead1 pkt p).toNat
    if r ≠ roundup4 (1 + l) then .error .lengthMismatch
    else .ok (some (octets pkt (p + 1) l))

/-- `DecodeBYE` (R129). -/
def decodeBye (count : BitVec 5) (pkt : List Octet) (c : Nat) : Except Status RtcpBody :=
  if c < 4 + 4 * count.toNat then .error .lengthMismatch
  else
    let ssrcs := (List.range count.toNat).map fun i => memRead4 pkt (4 + 4 * i)
    match decodeReason pkt (4 + 4 * count.toNat) (c - 4 - 4 * count.toNat) with
    | .error st => .error st
    | .ok reason => .ok (.bye ssrcs reason)

/-- The APP body (R131). -/
def decodeApp (count : BitVec 5) (pkt : List Octet) (c : Nat) : Except Status RtcpBody :=
  .ok (.app count (octets pkt 4 (c - 4)))

/-- The body of any other packet type (R132). -/
def decodeOther (pkt : List Octet) (c : Nat) : Except Status RtcpBody :=
  .ok (.other (octets pkt 4 (c - 4)))

/-! ## SDES -/

/-- `DecodeItem` (R136). -/
def decodeItem (pkt : List Octet) (p stop : Nat) : Except Status (SdesItem × Nat) :=
  if stop < p + 2 then .error .lengthMismatch
  else
    let l := memRead1 pkt (p + 1)
    if stop < p + 2 + l.toNat then .error .lengthMismatch
    else .ok ({ type := memRead1 pkt p, length := l, text := octets pkt (p + 2) l.toNat }, p + 2 + l.toNat)

/-- `EndItem` (R137). -/
def endItem (p stop : Nat) : Except Status Nat :=
  let q := roundup4 (p + 1)
  if stop < q then .error .lengthMismatch else .ok q

/-- The item loop of `DecodeChunk` (R135), with the items read so far. Each turn consumes at least two octets, so a
`fuel` of more than the octets left never runs out (log entry 11). -/
def decodeItems (pkt : List Octet) (stop : Nat) : Nat → Nat → List SdesItem → Except Status (List SdesItem × Nat)
  | 0, _, _ => .error .lengthMismatch
  | fuel + 1, p, items =>
    if p = stop then .ok (items, p)
    else if memRead1 pkt p = 0 then
      match endItem p stop with
      | .error st => .error st
      | .ok q => .ok (items, q)
    else
      match decodeItem pkt p stop with
      | .error st => .error st
      | .ok (item, q) => decodeItems pkt stop fuel q (items ++ [item])

/-- `DecodeChunk` (R135). -/
def decodeChunk (pkt : List Octet) (p stop : Nat) : Except Status (SdesChunk × Nat) :=
  if stop < p + 4 then .error .lengthMismatch
  else
    match decodeItems pkt stop (stop - (p + 4) + 1) (p + 4) [] with
    | .error st => .error st
    | .ok (items, q) => .ok ({ ssrc := memRead4 pkt p, items := items }, q)

/-- The chunk loop of `DecodeSDES` (R134): `n` chunks from position `p` on, and the position after them. -/
def decodeChunks (pkt : List Octet) (stop : Nat) : Nat → Nat → Except Status (List SdesChunk × Nat)
  | 0, p => .ok ([], p)
  | n + 1, p =>
    match decodeChunk pkt p stop with
    | .error st => .error st
    | .ok (chunk, q) =>
      match decodeChunks pkt stop n q with
      | .error st => .error st
      | .ok (chunks, q') => .ok (chunk :: chunks, q')

/-- `DecodeSDES` (R134, R138). -/
def decodeSdes (count : BitVec 5) (pkt : List Octet) (c : Nat) : Except Status RtcpBody :=
  match decodeChunks pkt c count.toNat 4 with
  | .error st => .error st
  | .ok (chunks, p) => if p ≠ c then .error .lengthMismatch else .ok (.sdes chunks)

/-! ## One packet -/

/-- `Padding(o, n, P)` (R124): the number of padding octets. -/
def paddingOf (pkt : List Octet) (n : Nat) (padding : BitVec 1) : Except Status Octet :=
  if padding = 0 then .ok 0
  else
    let pad := memRead1 pkt (n - 1)
    if pad = 0 ∨ n - 4 < pad.toNat then .error .lengthMismatch else .ok pad

/-- `DecodeOne` (R122) on a packet whose version has been checked, with the body decoder of its type (R125). -/
def decodePacket (h : RtcpHeader) (body : List Octet)
    (decodeBody : List Octet → Nat → Except Status RtcpBody) : Except Status RtcpPacket :=
  let pkt := rtcpOctets h body
  let n := packetOctets h.length
  if pkt.length < n then .error .lengthMismatch
  else
    match paddingOf pkt n h.padding with
    | .error st => .error st
    | .ok pad =>
      match decodeBody pkt (n - pad.toNat) with
      | .error st => .error st
      | .ok b =>
        .ok { version := 2, padding := h.padding, count := h.count, pt := h.pt, length := h.length, padLen := pad,
              body := b }

/-! ## The wire rows -/

/-- RTCP_SR (R126). -/
def execRtcpSr (padding : BitVec 1) (count : BitVec 5) (length : U16) (body : List Octet) (s : State) : Outcome :=
  s.emit (decodePacket { padding, count, pt := 200, length } body (decodeSr count))

/-- RTCP_RR (R127). -/
def execRtcpRr (padding : BitVec 1) (count : BitVec 5) (length : U16) (body : List Octet) (s : State) : Outcome :=
  s.emit (decodePacket { padding, count, pt := 201, length } body (decodeRr count))

/-- RTCP_SDES (R134). -/
def execRtcpSdes (padding : BitVec 1) (count : BitVec 5) (length : U16) (body : List Octet) (s : State) : Outcome :=
  s.emit (decodePacket { padding, count, pt := 202, length } body (decodeSdes count))

/-- RTCP_BYE (R129). -/
def execRtcpBye (padding : BitVec 1) (count : BitVec 5) (length : U16) (body : List Octet) (s : State) : Outcome :=
  s.emit (decodePacket { padding, count, pt := 203, length } body (decodeBye count))

/-- RTCP_APP (R131). -/
def execRtcpApp (padding : BitVec 1) (count : BitVec 5) (length : U16) (body : List Octet) (s : State) : Outcome :=
  s.emit (decodePacket { padding, count, pt := 204, length } body (decodeApp count))

/-- RTCP_OTHER (R132). -/
def execRtcpOther (pt : Octet) (padding : BitVec 1) (count : BitVec 5) (length : U16) (body : List Octet) (s : State) :
    Outcome :=
  s.emit (decodePacket { padding, count, pt, length } body decodeOther)

/-! ## The command -/

/-- Body dispatch on the packet type (R125). -/
def runRtcp (h : RtcpHeader) (body : List Octet) (s : State) : Outcome :=
  if h.pt = 200 then execRtcpSr h.padding h.count h.length body s
  else if h.pt = 201 then execRtcpRr h.padding h.count h.length body s
  else if h.pt = 202 then execRtcpSdes h.padding h.count h.length body s
  else if h.pt = 203 then execRtcpBye h.padding h.count h.length body s
  else if h.pt = 204 then execRtcpApp h.padding h.count h.length body s
  else execRtcpOther h.pt h.padding h.count h.length body s

/-- The compound loop (R123) on the octets from `off` on: it ends at buffer exhaustion or at the first packet that
raises. Each packet takes at least four octets, so a `fuel` of the octets left never runs out (log entry 11). -/
def rtcpLoop : Nat → List Octet → State → Outcome
  | _, [], s => .next s
  | 0, _ :: _, s => s.emit (.error .lengthMismatch)
  | fuel + 1, o :: buf, s =>
    match frameRtcp (o :: buf) with
    | .error st => s.emit (.error st)
    | .ok (h, body, rest) =>
      match runRtcp h body s with
      | .next t => if t.resp.status = Status.ok.code then rtcpLoop fuel rest t else .next t
      | .fault r => .fault r
      | .refused r => .refused r

/-- DECODE_RTCP (R123). -/
def execDecodeRtcp (buf : List Octet) (s : State) : Outcome :=
  if s.params.maxBufOctets < buf.length then s.raise .illegalCommand
  else if buf.length < 4 then s.raise .tooShort
  else rtcpLoop buf.length buf (s.respond (Response.ofStatus .ok))

end Sys2Proof.Machine
end

