-- ==== Sys2Proof/Machine/RtpDecode.lean ====
section
/-! DEFINITION. DECODE_RTP and its wire row RTP_DATA (R100 to R108). -/

namespace Sys2Proof.Machine

/-- The CSRC list of an RTP packet (R71, R102). -/
def csrcList (buf : List Octet) (cc : Nat) : List U32 := (List.range cc).map fun i => memRead4 buf (12 + 4 * i)

/-- The RTP record of a header of `h` octets (R101, R102). -/
def rtpRecord (w : RtpWord) (buf : List Octet) (ext : Option RtpExtension) (h : Nat) : RtpPacket :=
  { version := 2, padding := w.padding, extension := w.extension, cc := w.cc, marker := w.marker, pt := w.pt,
    seq := w.seq, timestamp := memRead4 buf 4, ssrc := memRead4 buf 8, csrc := csrcList buf w.cc.toNat, ext := ext,
    payloadOffset := h, payload := octets buf h (buf.length - h) }

/-- The checks of R102 after the version check, on the whole packet (R102, R104, R105). -/
def parseRtp (w : RtpWord) (buf : List Octet) : Except Status RtpPacket :=
  let h := 12 + 4 * w.cc.toNat
  if buf.length < h then .error .tooShort
  else if w.extension = 1 then
    if buf.length < h + 4 then .error .tooShort
    else
      let el := memRead2 buf (h + 2)
      let h' := h + 4 + 4 * el.toNat
      if buf.length < h' then .error .tooShort
      else .ok (rtpRecord w buf
        (some { profile := memRead2 buf h, length := el, data := octets buf (h + 4) (4 * el.toNat) }) h')
  else .ok (rtpRecord w buf none h)

/-- End DECODE_RTP with a decoded record or an error (R97, R106). -/
def State.finishRtp (s : State) : Except Status RtpPacket → Outcome
  | .ok p => s.finish { Response.ofStatus .ok with rtp := p }
  | .error st => s.raise st

/-- RTP_DATA (R102): a packet of version 2 whose word 0 has been read. -/
def execRtpData (padding extension : BitVec 1) (cc : BitVec 4) (marker : BitVec 1) (pt : BitVec 7) (seq : U16)
    (rest : List Octet) (s : State) : Outcome :=
  let w : RtpWord := { padding, extension, cc, marker, pt, seq }
  s.finishRtp (parseRtp w (rtpOctets w rest))

/-- DECODE_RTP (R102). -/
def execDecodeRtp (buf : List Octet) (s : State) : Outcome :=
  if s.params.maxBufOctets < buf.length then s.raise .illegalCommand
  else
    match frameRtp buf with
    | .error st => s.raise st
    | .ok (w, rest) => execRtpData w.padding w.extension w.cc w.marker w.pt w.seq rest s

end Sys2Proof.Machine
end

