-- ==== Sys2Proof/Machine/Sources.lean ====
section
/-! DEFINITION. REMOVE_SOURCE (R220, R221), QUERY_SOURCE (R222) and ILLEGAL (R94, R223). -/

namespace Sys2Proof.Machine

/-- REMOVE_SOURCE (R220). -/
def execRemoveSource (ssrc : U32) (s : State) : Outcome :=
  match s.table.lookup ssrc with
  | none => s.raise .noSuchSource
  | some _ => (s.withTable (s.table.free ssrc)).finish (Response.ofStatus .ok)

/-- QUERY_SOURCE (R222). -/
def execQuerySource (ssrc : U32) (s : State) : Outcome :=
  match s.table.lookup ssrc with
  | none => s.raise .noSuchSource
  | some e => s.finish { Response.ofStatus .ok with q := e }

/-- An illegal command word (R94, R223): whatever the word, the command is answered ILLEGAL_COMMAND. -/
def execIllegal (_cmd : U32) (s : State) : Outcome := s.raise .illegalCommand

end Sys2Proof.Machine
end

