-- ==== Sys2Proof/Machine/Jitter.lean ====
section
/-! DEFINITION. The jitter step of an accepted RTP_RECEIVED (R190 to R196). -/

namespace Sys2Proof.Machine

/-- `transit` (R190): arrival time minus RTP timestamp, modulo 2^32. -/
def transitOf (rtpTs arrival : U32) : U32 := arrival - rtpTs

/-- The smoothed estimate after a transit difference `d` (R192). -/
def smoothedJitter (jitter : U32) (d : Int) : U32 :=
  BitVec.ofInt 32 ((jitter.toNat : Int) + tdiv (absVal d - (jitter.toNat : Int)) Config.jitterGain)

/-- `JitterStep(E, rtp_ts, arrival)` (R190). -/
def jitterStep (e : Entry) (rtpTs arrival : U32) : Entry :=
  let transit := transitOf rtpTs arrival
  if e.transitValid = 1 then
    { e with jitter := smoothedJitter e.jitter (sext (transit - e.transitPrev)) }.keepTransit transit
  else e.keepTransit transit

end Sys2Proof.Machine
end

