-- ==== Sys2Proof/Machine/Validator.lean ====
section
/-! DEFINITION. RTP_RECEIVED: the sequence validator and the extended-sequence tracker (R160 to R175). -/

namespace Sys2Proof.Machine

/-- `udelta = (seq − max_seq) mod RTP_SEQ_MOD` (R166). -/
def udelta (e : Entry) (seq : U16) : Nat := (seq - e.maxSeq).toNat

/-- Count a packet, modulo 2^32 (R164, R167, R170). -/
def Entry.countReceived (e : Entry) : Entry := { e with received := e.received + 1 }

/-- Probation (R164, R165). -/
def validateOnProbation (e : Entry) (seq : U16) : Entry × RxClass :=
  if seq.toNat = e.maxSeq.toNat + 1 then
    ({ e.countDownProbation.countReceived with maxSeq := seq }, .probAdvance)
  else ({ e.armProbation with maxSeq := seq }, .probReset)

/-- `cycles` after an in-order packet: one more wrap when the sequence number went down (R167). -/
def cyclesAfter (e : Entry) (seq : U16) : U32 :=
  if seq.toNat < e.maxSeq.toNat then e.cycles + BitVec.ofNat 32 Config.rtpSeqMod else e.cycles

/-- A Valid entry (R166 to R170). -/
def validateValid (e : Entry) (seq : U16) : Entry × RxClass :=
  let u := udelta e seq
  if 1 ≤ u ∧ u < Config.maxDropout then
    ({ e.countReceived with cycles := cyclesAfter e seq, maxSeq := seq }, .inOrder)
  else if Config.maxDropout ≤ u ∧ u ≤ Config.rtpSeqMod - Config.maxMisorder then
    if seq.setWidth 17 = e.badSeq then (initEntry e.ssrc seq, .restart)
    else ({ e with badSeq := (seq + 1).setWidth 17 }, .jump)
  else (e.countReceived, .duplicate)

/-- The validator step on an allocated entry (R161). -/
def validate (e : Entry) (seq : U16) : Entry × RxClass :=
  if e.onProbation then validateOnProbation e seq else validateValid e seq

/-- The response of RTP_RECEIVED for a class and the entry after the validator (R171, R173). -/
def rxResponse (cls : RxClass) (e : Entry) (seq : U16) : Response :=
  if cls.accepts then { Response.ofStatus .ok with cls := cls.code, res0 := e.cycles + seq.setWidth 32 }
  else { Response.ofStatus .rejected with cls := cls.code }

/-- The end of RTP_RECEIVED (R161): the jitter step when the packet is accepted, the entry stored, the response. -/
def finishReceived (s : State) (r : Entry × RxClass) (seq : U16) (rtpTs arrival : U32) : Outcome :=
  let e := if r.2.accepts then jitterStep r.1 rtpTs arrival else r.1
  (s.withTable (s.table.put e)).finish (rxResponse r.2 e seq)

/-- RTP_RECEIVED (R161). -/
def execRtpReceived (ssrc : U32) (seq : U16) (rtpTs arrival : U32) (s : State) : Outcome :=
  match s.table.lookup ssrc with
  | none =>
    if s.params.maxSources ≤ s.table.count then s.raise .tableFull
    else finishReceived s (initEntry ssrc seq, .newSource) seq rtpTs arrival
  | some e => finishReceived s (validate e seq) seq rtpTs arrival

end Sys2Proof.Machine
end

