-- ==== Sys2Proof/Machine/Dispatch.lean ====
section
/-! DEFINITION. One arm per instruction. -/

namespace Sys2Proof.Machine

def exec (i : Instr) (s : State) : Host.Outcome State Fault Refusal :=
  match i with
  | .decodeRtp buf => Sys2Proof.Machine.execDecodeRtp buf s
  | .decodeRtcp buf => Sys2Proof.Machine.execDecodeRtcp buf s
  | .rtpReceived ssrc seq rtpTs arrival => Sys2Proof.Machine.execRtpReceived ssrc seq rtpTs arrival s
  | .buildReport ssrc supplied => Sys2Proof.Machine.execBuildReport ssrc supplied s
  | .removeSource ssrc => Sys2Proof.Machine.execRemoveSource ssrc s
  | .querySource ssrc => Sys2Proof.Machine.execQuerySource ssrc s
  | .illegal cmd => Sys2Proof.Machine.execIllegal cmd s
  | .rtpData padding extension cc marker pt seq rest => Sys2Proof.Machine.execRtpData padding extension cc marker pt seq rest s
  | .rtcpSr padding count length body => Sys2Proof.Machine.execRtcpSr padding count length body s
  | .rtcpRr padding count length body => Sys2Proof.Machine.execRtcpRr padding count length body s
  | .rtcpSdes padding count length body => Sys2Proof.Machine.execRtcpSdes padding count length body s
  | .rtcpBye padding count length body => Sys2Proof.Machine.execRtcpBye padding count length body s
  | .rtcpApp padding count length body => Sys2Proof.Machine.execRtcpApp padding count length body s
  | .rtcpOther pt padding count length body => Sys2Proof.Machine.execRtcpOther pt padding count length body s

end Sys2Proof.Machine
end

