-- ==== Sys2Proof/Machine/Fetch.lean ====
section
/-! DEFINITION. The host side of a step: taking the next host input, and what the host does with the answer of a
DECODE_RTP that RECV_RTP issued (R99). -/

namespace Sys2Proof.Machine

/-- The first command of `RECV_RTP <buf>, <arrival>` (R99). Its arguments are 0: DESIGN CHOICE (log entry 22). -/
def recvFirst (buf : List Octet) : Command := bufferCommand 0x00000001 buf

/-- The host's decision after the first command of RECV_RTP: only if it returned OK does the host issue RTP_RECEIVED next,
with the fields of the returned record (R99). -/
def State.recvNext (s : State) (arrival : U32) : State :=
  if s.resp.status = Status.ok.code then
    s.withPending (.command (receivedCommand s.resp.rtp arrival) :: s.pending)
  else s

/-- The same on the outcome of the first command. -/
def afterDecode (arrival : U32) : Outcome → Outcome
  | .next s => .next (s.recvNext arrival)
  | .fault r => .fault r
  | .refused r => .refused r

/-- The host input that issues a word of spec/opcode_table.json (log entry 8). -/
def tableEvent (nbits w : Nat) : HostEvent := .command (tableWords nbits w).issue

end Sys2Proof.Machine
end

