-- ==== Sys2Proof/Machine/Step.lean ====
section
/-! DEFINITION. One step: the block takes the next host input and performs it, whole (R57, R267). -/

namespace Sys2Proof.Machine

/-- One step. With no host input waiting, the block holds its state (R241). -/
def step (s : State) : Host.Outcome State Fault Refusal :=
  match s.pending with
  | [] => .next s
  | .command c :: rest => exec (decodeCommand c) (s.withPending rest)
  | .reset :: rest => .next (s.withPending rest).resetSignal
  | .recvRtp buf arrival :: rest => afterDecode arrival (exec (decodeCommand (recvFirst buf)) (s.withPending rest))

/-- The host issues a word of spec/opcode_table.json next (log entry 8). -/
def State.withFetchWord (s : State) (nbits w : Nat) : State := s.withPending (tableEvent nbits w :: s.pending)

end Sys2Proof.Machine
end

