-- ==== Sys2Proof/Machine/Layout.lean ====
section
/-! DEFINITION. The wire layouts of whole records, as 30_encoding.md fixes them (R70 to R85, R90). The block has no
encoder for whole packets (R3(a)); the layouts serve the round-trip properties R91, R108 and R140. The octets that the
spec leaves any value in a laid-out RTCP packet are zeros here (DESIGN CHOICE, log entry 21). -/

namespace Sys2Proof.Machine

/-! ## RTP (R70 to R73) -/

/-- The octets of a header extension (R72). -/
def layoutExtension : Option RtpExtension → List Octet
  | none => []
  | some x => octetsOf2 x.profile ++ octetsOf2 x.length ++ x.data

/-- The octets of an RTP packet (R70 to R73). -/
def layoutRtp (p : RtpPacket) : List Octet :=
  rtpOctets { padding := p.padding, extension := p.extension, cc := p.cc, marker := p.marker, pt := p.pt, seq := p.seq }
    (octetsOf4 p.timestamp ++ (octetsOf4 p.ssrc ++ (p.csrc.flatMap octetsOf4 ++ (layoutExtension p.ext ++ p.payload))))

/-- The header length of an RTP packet (R73). -/
def headerOctets (p : RtpPacket) : Nat :=
  12 + 4 * p.cc.toNat + (match p.ext with | none => 0 | some x => 4 + 4 * x.length.toNat)

/-- The RTP records R108 speaks of. -/
def RtpPacket.representable (p : RtpPacket) : Bool :=
  decide (p.version = 2) && decide (p.csrc.length = p.cc.toNat) && decide (p.payloadOffset = headerOctets p) &&
    (match p.ext with
      | none => decide (p.extension = 0)
      | some x => decide (p.extension = 1) && decide (x.data.length = 4 * x.length.toNat))

/-! ## RTCP (R74 to R85) -/

/-- Octets filled up to a multiple of 4. The fill octets are zeros: DESIGN CHOICE (log entry 21), since the spec leaves
the fill after END and after a BYE reason any value (R130, R137, I15). -/
def padTo4 (o : List Octet) : List Octet := o ++ List.replicate (roundup4 o.length - o.length) 0

/-- The octets of a reception report block (R90). -/
def layoutBlock (b : ReportBlock) : List Octet :=
  octetsOf4 b.ssrc ++ ([b.fraction] ++ (octetsOf3 (BitVec.ofInt 24 b.cumLost) ++ (octetsOf4 b.extMax ++
    (octetsOf4 b.jitter ++ (octetsOf4 b.lsr ++ octetsOf4 b.dlsr)))))

/-- The octets of an SDES item (R81). -/
def layoutItem (i : SdesItem) : List Octet := i.type :: i.length :: i.text

/-- The octets of an SDES chunk with its END item and padding (R80, R81). -/
def layoutChunk (c : SdesChunk) : List Octet := padTo4 (octetsOf4 c.ssrc ++ (c.items.flatMap layoutItem ++ [0]))

/-- The octets of an SDES body and the chunks they stand for (R80, R81, R138). Every chunk but the last ends with an END
item and octets up to a multiple of 4, whatever they hold; the last may end at the content boundary instead. -/
inductive SdesContent : List SdesChunk → List Octet → Prop where
  | none : SdesContent [] []
  | openChunk (c : SdesChunk) (hi : ∀ i ∈ c.items, i.type ≠ 0 ∧ i.text.length = i.length.toNat) :
      SdesContent [c] (octetsOf4 c.ssrc ++ c.items.flatMap layoutItem)
  | ended (c : SdesChunk) (fill : List Octet) (cs : List SdesChunk) (o : List Octet)
      (hi : ∀ i ∈ c.items, i.type ≠ 0 ∧ i.text.length = i.length.toNat)
      (hf : fill.length < 4 ∧ (4 + (c.items.flatMap layoutItem).length + 1 + fill.length) % 4 = 0)
      (ho : SdesContent cs o) :
      SdesContent (c :: cs) (octetsOf4 c.ssrc ++ (c.items.flatMap layoutItem ++ (0 :: (fill ++ o))))

/-- The octets of a BYE reason (R82). -/
def layoutReason : Option (List Octet) → List Octet
  | none => []
  | some text => padTo4 (BitVec.ofNat 8 text.length :: text)

/-- The octets of a body (R78 to R83). -/
def layoutBody : RtcpBody → List Octet
  | .sr ssrc ntpMsw ntpLsw rtpTs packetCount octetCount blocks =>
    octetsOf4 ssrc ++ (octetsOf4 ntpMsw ++ (octetsOf4 ntpLsw ++ (octetsOf4 rtpTs ++ (octetsOf4 packetCount ++
      (octetsOf4 octetCount ++ blocks.flatMap layoutBlock)))))
  | .rr ssrc blocks => octetsOf4 ssrc ++ blocks.flatMap layoutBlock
  | .sdes chunks => chunks.flatMap layoutChunk
  | .bye ssrcs reason => ssrcs.flatMap octetsOf4 ++ layoutReason reason
  | .app _ data => data
  | .other data => data

/-- The padding octets of a packet (R84). Those before the last are zeros: DESIGN CHOICE (log entry 21), since the spec
leaves them any value (R124, I14). -/
def layoutPadding (padding : BitVec 1) (padLen : Octet) : List Octet :=
  if padding = 0 then [] else List.replicate (padLen.toNat - 1) 0 ++ [padLen]

/-- The octets of an RTCP packet after its common header. -/
def layoutRest (p : RtcpPacket) : List Octet := layoutBody p.body ++ layoutPadding p.padding p.padLen

/-- The octets of an RTCP packet (R74, R75). -/
def layoutRtcp (p : RtcpPacket) : List Octet :=
  rtcpOctets { padding := p.padding, count := p.count, pt := p.pt, length := p.length } (layoutRest p)

/-- A compound buffer (R85). -/
def layoutCompound (ps : List RtcpPacket) : List Octet := ps.flatMap layoutRtcp

/-- A report block whose `cum_lost` lies in the range of R121. -/
def ReportBlock.representable (b : ReportBlock) : Bool := decide (-(2 ^ 23) ≤ b.cumLost) && decide (b.cumLost < 2 ^ 23)

/-- An SDES item that is not END and whose length octet counts its text (R81). -/
def SdesItem.representable (i : SdesItem) : Bool := decide (i.type ≠ 0) && decide (i.text.length = i.length.toNat)

/-- A body that the packet type names, whose lists have the length of the count field (R76, R77, R121). -/
def RtcpBody.representable (pt : Octet) (count : BitVec 5) : RtcpBody → Bool
  | .sr _ _ _ _ _ _ blocks =>
    decide (pt = 200) && decide (blocks.length = count.toNat) && blocks.all ReportBlock.representable
  | .rr _ blocks => decide (pt = 201) && decide (blocks.length = count.toNat) && blocks.all ReportBlock.representable
  | .sdes chunks =>
    decide (pt = 202) && decide (chunks.length = count.toNat) &&
      chunks.all fun c => c.items.all SdesItem.representable
  | .bye ssrcs reason =>
    decide (pt = 203) && decide (ssrcs.length = count.toNat) &&
      (match reason with | none => true | some text => decide (text.length ≤ 255))
  | .app subtype _ => decide (pt = 204) && decide (subtype = count)
  | .other _ => !namedPacketType pt

/-- Padding as R84 gives it: none, or a positive count. -/
def paddingRepresentable (padding : BitVec 1) (padLen : Octet) : Bool :=
  if padding = 0 then decide (padLen = 0) else decide (padLen ≠ 0)

/-- The RTCP records R140 speaks of: `length` is the laid-out size in words less one, `pad_len` the padding laid out. -/
def RtcpPacket.representable (p : RtcpPacket) : Bool :=
  decide (p.version = 2) && p.body.representable p.pt p.count && paddingRepresentable p.padding p.padLen &&
    decide (4 + (layoutRest p).length = packetOctets p.length)

end Sys2Proof.Machine
end

