-- ==== Sys2Proof/Safety.lean ====
section
/-! DEFINITION. What the claims speak of: the invariant of the source table and of OUT (R21, R24, R50), what a command
leaves unchanged, and the conditions on operands under which a packet decodes. -/

namespace Sys2Proof.Machine

/-- R24 and R175(a) for one allocated entry, between commands. -/
def Entry.wf (e : Entry) : Bool :=
  decide (e.cycles.extractLsb' 0 16 = 0) &&
  decide (e.probation.toNat ≤ Config.minSequential - 1) &&
  decide (e.badSeq.toNat < Config.rtpSeqMod ∨ e.badSeq.toNat = Config.badSeqNone) &&
  decide (e.jitter.toNat ≤ 2 ^ 31) &&
  decide (-65534 ≤ e.expectedPrior.toInt ∧ e.expectedPrior.toInt ≤ 2 ^ 32) &&
  decide (e.transitValid = 1) &&
  decide (e.onProbation = true → e.cycles = 0)

/-- The table is a map with at most MAX_SOURCES keys (R21) of well-formed entries (R24). -/
def Table.wf (maxSources : Nat) (t : Table) : Bool :=
  t.sorted && decide (t.count ≤ maxSources) && t.all Entry.wf

/-- OUT is 24 octets (R50(b)) in the canonical form. -/
def outWf (m : Memory) : Bool := m.wf && m.within Config.outOctets

/-- The invariant. -/
def State.inv (s : State) : Bool := s.params.wf && s.table.wf s.params.maxSources && outWf s.resp.out

/-- What no command writes: the parameters (R11), the host inputs not yet taken, and the model's counter. -/
def State.SameRest (s t : State) : Prop := t.params = s.params ∧ t.pending = s.pending ∧ t.fresh = s.fresh

/-- Every source other than `ssrc` keeps its entry, or stays without one (R174(j)). -/
def State.OthersKept (ssrc : U32) (s t : State) : Prop := ∀ k, k ≠ ssrc → t.table.lookup k = s.table.lookup k

/-- From `s` to `t`, the entry of `ssrc` becomes `e` (`none`: it is free), the response is `r`, and nothing else
changes. -/
def State.Stored (s t : State) (ssrc : U32) (e : Option Entry) (r : Response) : Prop :=
  t.table.lookup ssrc = e ∧ s.OthersKept ssrc t ∧ s.SameRest t ∧ t.resp = r

/-- The entry that a first packet leaves behind, field by field (R26, R191): InitEntry after its jitter step. -/
def createdEntry (ssrc : U32) (seq : U16) (transit : U32) : Entry :=
  { ssrc := ssrc, maxSeq := seq, cycles := 0, baseSeq := seq, badSeq := 65537, probation := 1, received := 1,
    expectedPrior := 0, receivedPrior := 0, transitPrev := transit, transitValid := 1, jitter := 0 }

/-- The signed distance of a sequence number from the highest one seen, modulo 65536 and not negative (R166). -/
def seqDistance (e : Entry) (seq : U16) : Int := ((seq.toNat : Int) - (e.maxSeq.toNat : Int)) % 65536

/-! ## Operands of the decoders -/

/-- CC of a buffer's octet 0 (R70). -/
def ccOf (buf : List Octet) : Nat := (octetAt buf 0).toNat % 16

/-- X of a buffer's octet 0 (R70). -/
def hasExtension (buf : List Octet) : Prop := (octetAt buf 0).toNat / 16 % 2 = 1

/-- `ext_len` of a buffer whose extension starts at `h` (R72). -/
def extLenOf (buf : List Octet) (h : Nat) : Nat := (octetAt buf (h + 2)).toNat * 256 + (octetAt buf (h + 3)).toNat

/-- The octets of a body before its padding (R84), given the number of padding octets. -/
def contentOf (body : List Octet) (pad : Octet) : List Octet := body.take (body.length - pad.toNat)

/-- `pad` is the number of padding octets of a packet whose octets after the header are `body` (R84, R124): 0 when P = 0,
else the last octet, at least 1 and at most the octets after the header. -/
def PaddedBy (padding : BitVec 1) (body : List Octet) (pad : Octet) : Prop :=
  (padding = 0 ∧ pad = 0) ∨
  (padding = 1 ∧ body.getLast? = some pad ∧ pad ≠ 0 ∧ pad.toNat ≤ body.length)

/-- The record of a decoded packet with the given header fields and body (R121, R122). -/
def packetRecord (padding : BitVec 1) (count : BitVec 5) (pt : Octet) (length : U16) (pad : Octet) (b : RtcpBody) :
    RtcpPacket :=
  { version := 2, padding := padding, count := count, pt := pt, length := length, padLen := pad, body := b }

/-- The state after a packet was decoded: the record is appended to PKTS, STATUS is OK (R9, R97). -/
def State.withPacket (s : State) (p : RtcpPacket) : State :=
  s.respond { Response.ofStatus .ok with pkts := s.resp.pkts ++ [p] }

/-- The state after a packet raised LENGTH_MISMATCH: PKTS keeps the packets decoded before (R9, D35). -/
def State.withMismatch (s : State) : State :=
  s.respond { Response.ofStatus .lengthMismatch with pkts := s.resp.pkts }

end Sys2Proof.Machine
end

