-- ==== Sys2Proof/Certificates/Slice0/Obligations.lean ====
section
/-! DEFINITION. The statements for the provers. -/

open Sys2Proof Sys2Proof.Machine

/-! ## Reset and the step -/

/-- R260: the reset signal frees every entry, and the response fields become unspecified. That they are free values, and
that the host inputs behind the signal and the parameters stay, is the model's choice (log entries 1, 3 and 4). -/
def Obligations.ResetSignalFreesEverySource : Prop :=
  ∀ (s : State) (rest : List HostEvent), s.pending = .reset :: rest →
    ∃ t, step s = .next t ∧ (∀ k, t.table.lookup k = none) ∧ t.table.count = 0 ∧
      t.resp = Response.unspecified s.fresh ∧ t.pending = rest ∧ t.params = s.params

/-- R24, R35: the state after reset of every block instance meets the invariant and has no source. -/
def Obligations.ResetStateMeetsInvariant : Prop :=
  (∀ p : Params, p.wf = true →
    (State.resetWith p).inv = true ∧ ∀ k, (State.resetWith p).table.lookup k = none) ∧
  State.reset = State.resetWith Config.resetParams ∧ State.reset.inv = true

/-- R21, R24, R50, R175(a): every step keeps the invariant, from every state that has it. -/
def Obligations.StepKeepsInvariant : Prop :=
  ∀ s t : State, s.inv = true → step s = .next t → t.inv = true

/-- R230, R242: no instruction and no step faults or is refused. -/
def Obligations.EveryStepAnswersNextState : Prop :=
  (∀ (i : Instr) (s : State), ∃ t, exec i s = .next t) ∧ ∀ s : State, ∃ t, step s = .next t

/-- R57, R92: a step on a waiting command runs exactly the instruction the command decodes to; so on the encoding of a
well-formed command instruction it runs that instruction. -/
def Obligations.CommandStepRunsDecodedInstruction : Prop :=
  (∀ (s : State) (c : Command) (rest : List HostEvent), s.pending = .command c :: rest →
    step s = exec (decodeCommand c) (s.withPending rest)) ∧
  (∀ (i : Instr) (s : State) (c : Command) (rest : List HostEvent), i.wellFormed = true → encode i = .command c →
    s.pending = .command c :: rest → step s = exec i (s.withPending rest))

/-- R100, R120, R125: a decode command on the octets of one well-formed wire packet does what the packet's wire row
does: RTP_DATA for DECODE_RTP, and the row of the packet type, with PKTS empty before, for DECODE_RTCP. -/
def Obligations.DecodeCommandRunsWireRow : Prop :=
  ∀ (i : Instr) (s : State) (buf : List Octet), i.wellFormed = true → buf.length ≤ s.params.maxBufOctets →
    (encode i = .rtp buf → exec (.decodeRtp buf) s = exec i s) ∧
    (encode i = .rtcp buf → exec (.decodeRtcp buf) s = exec i (s.respond (Response.ofStatus .ok)))

/-- R85, R122, R123, D35: a buffer that decodes without error, followed by more octets, decodes to its own packets and
then what the octets after it decode to; a packet whose row answers an error ends the decoding, whatever follows it. -/
def Obligations.CompoundBufferDecodesInParts : Prop :=
  (∀ (a b : List Octet) (s t u : State), a.length + b.length ≤ s.params.maxBufOctets → 4 ≤ b.length →
    exec (.decodeRtcp a) s = .next t → t.resp.status = Status.ok.code → exec (.decodeRtcp b) s = .next u →
    exec (.decodeRtcp (a ++ b)) s = .next (s.respond { u.resp with pkts := t.resp.pkts ++ u.resp.pkts })) ∧
  ∀ (i : Instr) (a b : List Octet) (s t : State), i.wellFormed = true → encode i = .rtcp a →
    a.length + b.length ≤ s.params.maxBufOctets → exec i (s.respond (Response.ofStatus .ok)) = .next t →
    t.resp.status ≠ Status.ok.code →
    exec (.decodeRtcp a) s = .next t ∧ exec (.decodeRtcp (a ++ b)) s = .next t

/-- R123, R139(b): one to three octets after whole packets are LENGTH_MISMATCH, and PKTS holds the packets. -/
def Obligations.TrailingFragmentIsMismatch : Prop :=
  ∀ (a b : List Octet) (s t : State), a.length + b.length ≤ s.params.maxBufOctets → 1 ≤ b.length → b.length ≤ 3 →
    exec (.decodeRtcp a) s = .next t → t.resp.status = Status.ok.code →
    exec (.decodeRtcp (a ++ b)) s =
      .next (s.respond { Response.ofStatus .lengthMismatch with pkts := t.resp.pkts })

/-- R241: with no host input waiting the block holds its state. -/
def Obligations.IdleBlockHoldsItsState : Prop := ∀ s : State, s.pending = [] → step s = .next s

/-- R99: RECV_RTP issues DECODE_RTP, and, only if that returns OK, RTP_RECEIVED with the returned record's fields. -/
def Obligations.RecvRtpIssuesTwoCommands : Prop :=
  ∀ (s : State) (buf : List Octet) (arrival : U32) (rest : List HostEvent), s.pending = .recvRtp buf arrival :: rest →
    ∃ t, exec (.decodeRtp buf) (s.withPending rest) = .next t ∧
      (t.resp.status = Status.ok.code → ∃ c,
        decodeCommand c = .rtpReceived t.resp.rtp.ssrc t.resp.rtp.seq t.resp.rtp.timestamp arrival ∧
          step s = .next (t.withPending (.command c :: rest))) ∧
      (t.resp.status ≠ Status.ok.code → step s = .next t)

/-- R268: a finite list of commands runs to its end from every state: one step per command, none waiting after it. -/
def Obligations.FiniteRunsEnd : Prop :=
  ∀ (cs : List Command) (s : State), ∃ t,
    Host.Core.run Sys2Proof.core cs.length (s.withPending (cs.map HostEvent.command)) = .next t ∧
      t.pending = [] ∧ t.params = s.params ∧ t.fresh = s.fresh

/-! ## Decode and encode -/

/-- R70, R74, R92 to R95: decoding the encoding of a well-formed instruction gives it back. -/
def Obligations.DecodeEncodeRoundTrip : Prop :=
  ∀ i : Instr, i.wellFormed = true → decodeWords (encode i) = some i

/-- R93, R95: the instruction of every command word and argument list. -/
def Obligations.CommandWordsFollowOpcodeMap : Prop :=
  ∀ c : Command, decodeCommand c =
    if c.cmd = 0x00000001 then .decodeRtp c.buf
    else if c.cmd = 0x00000002 then .decodeRtcp c.buf
    else if c.cmd = 0x00000003 then .rtpReceived c.arg0 (BitVec.ofNat 16 (c.arg1.toNat % 65536)) c.arg2 c.arg3
    else if c.cmd = 0x00000004 then .buildReport c.arg0 none
    else if c.cmd = 0x00000104 then .buildReport c.arg0 (some (c.arg1, c.arg2))
    else if c.cmd = 0x00000005 then .removeSource c.arg0
    else if c.cmd = 0x00000006 then .querySource c.arg0
    else .illegal c.cmd

/-- R94: an illegal command word is answered ILLEGAL_COMMAND, every other response field 0, and nothing else changes. -/
def Obligations.IllegalWordsAreRefused : Prop :=
  (∀ (cmd : U32) (s : State), exec (.illegal cmd) s = .next (s.respond (Response.ofStatus .illegalCommand))) ∧
  ∀ (s : State) (c : Command) (rest : List HostEvent), s.pending = .command c :: rest →
    (c.cmd.toNat % 256 = 0 ∨ 7 ≤ c.cmd.toNat % 256 ∨ c.cmd.toNat / 512 ≠ 0 ∨
      (c.cmd.toNat / 256 % 2 = 1 ∧ c.cmd.toNat % 256 ≠ 4)) →
    step s = .next ((s.withPending rest).respond (Response.ofStatus .illegalCommand))

/-- R92, R70, R74: a word of each family, written out from its encoding, decodes to its instruction. -/
def Obligations.SpecWordsDecode : Prop :=
  decodeTableWord 32 0x00000001 = some (.decodeRtp []) ∧
  decodeTableWord 32 0x00000104 = some (.buildReport 0 (some (0, 0))) ∧
  decodeTableWord 32 0x00010003 = some (.illegal 0x00010003) ∧
  decodeWords (.rtp [0x80, 0xE0, 0, 7, 0, 0, 0, 0, 0, 0, 0, 1]) =
    some (.rtpData 0 0 0 1 0x60 7 [0, 0, 0, 0, 0, 0, 0, 1]) ∧
  decodeWords (.rtcp [0xA3, 0xCC, 0, 1, 1, 2, 3, 4]) = some (.rtcpApp 1 3 1 [1, 2, 3, 4])

/-! ## RTP_RECEIVED -/

/-- R163: the first packet of an SSRC that has no entry, while an entry is free. -/
def Obligations.NewSourceIsAccepted : Prop :=
  ∀ (s : State) (ssrc : U32) (seq : U16) (rtpTs arrival : U32), s.table.lookup ssrc = none →
    s.table.count < s.params.maxSources →
    ∃ t, exec (.rtpReceived ssrc seq rtpTs arrival) s = .next t ∧
      s.Stored t ssrc (some (createdEntry ssrc seq (arrival - rtpTs)))
        { Response.ofStatus .ok with cls := RxClass.newSource.code, res0 := seq.setWidth 32 }

/-- R162: no entry is free. -/
def Obligations.FullTableRefusesNewSource : Prop :=
  ∀ (s : State) (ssrc : U32) (seq : U16) (rtpTs arrival : U32), s.table.lookup ssrc = none →
    s.params.maxSources ≤ s.table.count →
    exec (.rtpReceived ssrc seq rtpTs arrival) s = .next (s.respond (Response.ofStatus .tableFull))

/-- R164: on probation, the number after the highest one seen, compared as integers. -/
def Obligations.ProbationCountsDownOnMatch : Prop :=
  ∀ (s : State) (ssrc : U32) (seq : U16) (rtpTs arrival : U32) (e : Entry), s.table.lookup ssrc = some e →
    e.probation ≠ 0 → seq.toNat = e.maxSeq.toNat + 1 →
    ∃ t, exec (.rtpReceived ssrc seq rtpTs arrival) s = .next t ∧
      s.Stored t ssrc
        (some (jitterStep { e with probation := e.probation - 1, maxSeq := seq, received := e.received + 1 }
          rtpTs arrival))
        { Response.ofStatus .ok with cls := RxClass.probAdvance.code, res0 := e.cycles + seq.setWidth 32 }

/-- R165: on probation, any other number. -/
def Obligations.ProbationMismatchRearms : Prop :=
  ∀ (s : State) (ssrc : U32) (seq : U16) (rtpTs arrival : U32) (e : Entry), s.table.lookup ssrc = some e →
    e.probation ≠ 0 → seq.toNat ≠ e.maxSeq.toNat + 1 →
    ∃ t, exec (.rtpReceived ssrc seq rtpTs arrival) s = .next t ∧
      s.Stored t ssrc (some { e with probation := 1, maxSeq := seq })
        { Response.ofStatus .rejected with cls := RxClass.probReset.code }

/-- R167: a Valid source and a distance of 1 to 2999; the number is the lower one exactly when it wrapped. -/
def Obligations.InOrderPacketIsAccepted : Prop :=
  ∀ (s : State) (ssrc : U32) (seq : U16) (rtpTs arrival : U32) (e : Entry), s.table.lookup ssrc = some e →
    e.probation = 0 → 1 ≤ seqDistance e seq → seqDistance e seq < 3000 →
    (seq.toNat < e.maxSeq.toNat ↔ 65536 ≤ (e.maxSeq.toNat : Int) + seqDistance e seq) ∧
    ∃ (t : State) (cycles : U32),
      cycles = (if seq.toNat < e.maxSeq.toNat then e.cycles + 65536 else e.cycles) ∧
      exec (.rtpReceived ssrc seq rtpTs arrival) s = .next t ∧
      s.Stored t ssrc
        (some (jitterStep { e with cycles := cycles, maxSeq := seq, received := e.received + 1 } rtpTs arrival))
        { Response.ofStatus .ok with cls := RxClass.inOrder.code, res0 := cycles + seq.setWidth 32 }

/-- R168: a Valid source and a distance of 3000 to 65436, not the number that a jump before announced. -/
def Obligations.LargeJumpIsRejected : Prop :=
  ∀ (s : State) (ssrc : U32) (seq : U16) (rtpTs arrival : U32) (e : Entry), s.table.lookup ssrc = some e →
    e.probation = 0 → 3000 ≤ seqDistance e seq → seqDistance e seq ≤ 65436 → seq.toNat ≠ e.badSeq.toNat →
    ∃ t, exec (.rtpReceived ssrc seq rtpTs arrival) s = .next t ∧
      s.Stored t ssrc (some { e with badSeq := BitVec.ofNat 17 ((seq.toNat + 1) % 65536) })
        { Response.ofStatus .rejected with cls := RxClass.jump.code }

/-- R169: a Valid source and a distance of 3000 to 65436, the number that a jump before announced. -/
def Obligations.AnnouncedJumpRestartsSource : Prop :=
  ∀ (s : State) (ssrc : U32) (seq : U16) (rtpTs arrival : U32) (e : Entry), s.table.lookup ssrc = some e →
    e.probation = 0 → 3000 ≤ seqDistance e seq → seqDistance e seq ≤ 65436 → seq.toNat = e.badSeq.toNat →
    ∃ t, exec (.rtpReceived ssrc seq rtpTs arrival) s = .next t ∧
      s.Stored t ssrc (some (createdEntry ssrc seq (arrival - rtpTs)))
        { Response.ofStatus .ok with cls := RxClass.restart.code, res0 := seq.setWidth 32 }

/-- R170: a Valid source and a distance of 0 or of more than 65436. -/
def Obligations.DuplicateIsRejectedButCounted : Prop :=
  ∀ (s : State) (ssrc : U32) (seq : U16) (rtpTs arrival : U32) (e : Entry), s.table.lookup ssrc = some e →
    e.probation = 0 → (seqDistance e seq = 0 ∨ 65436 < seqDistance e seq) →
    ∃ t, exec (.rtpReceived ssrc seq rtpTs arrival) s = .next t ∧
      s.Stored t ssrc (some { e with received := e.received + 1 })
        { Response.ofStatus .rejected with cls := RxClass.duplicate.code }

/-- R166: the class of a packet of a Valid source by the signed distance of its number; whether it is accepted; and that a
duplicate is counted. -/
def Obligations.ValidSourceClassBySignedDistance : Prop :=
  ∀ (s : State) (ssrc : U32) (seq : U16) (rtpTs arrival : U32) (e : Entry), s.table.lookup ssrc = some e →
    e.probation = 0 →
    ∃ (t : State) (d : Int), d = (seq - e.maxSeq).toInt ∧ exec (.rtpReceived ssrc seq rtpTs arrival) s = .next t ∧
      t.resp.cls =
        (if 1 ≤ d ∧ d ≤ 2999 then RxClass.inOrder.code
        else if -99 ≤ d ∧ d ≤ 0 then RxClass.duplicate.code
        else if seq.toNat = e.badSeq.toNat then RxClass.restart.code
        else RxClass.jump.code) ∧
      (t.resp.status = Status.ok.code ↔ (1 ≤ d ∧ d ≤ 2999) ∨ (¬(-99 ≤ d ∧ d ≤ 2999) ∧ seq.toNat = e.badSeq.toNat)) ∧
      (-99 ≤ d ∧ d ≤ 0 → ∃ e', t.table.lookup ssrc = some e' ∧ e'.received = e.received + 1)

/-- R190, R191, R192: the jitter step, on unbounded integers, and the fields it leaves alone. -/
def Obligations.JitterStepIsExact : Prop :=
  ∀ (e : Entry) (rtpTs arrival : U32),
    (e.transitValid = 1 →
      (((jitterStep e rtpTs arrival).jitter.toNat : Int) =
        e.jitter.toNat + Int.tdiv (|(arrival - rtpTs - e.transitPrev).toInt| - e.jitter.toNat) 16)) ∧
    (e.transitValid ≠ 1 → (jitterStep e rtpTs arrival).jitter = e.jitter) ∧
    jitterStep e rtpTs arrival =
      { e with jitter := (jitterStep e rtpTs arrival).jitter, transitPrev := arrival - rtpTs, transitValid := 1 }

/-- R194: the new estimate lies between the old one and the absolute difference, and never above 2^31 unless the old one
was. -/
def Obligations.JitterEstimateIsBounded : Prop :=
  ∀ (e : Entry) (rtpTs arrival : U32) (d : Int), e.transitValid = 1 → d = |(arrival - rtpTs - e.transitPrev).toInt| →
    0 ≤ d ∧ d ≤ 2 ^ 31 ∧
    ((e.jitter.toNat : Int) ≤ d →
      (e.jitter.toNat : Int) ≤ (jitterStep e rtpTs arrival).jitter.toNat ∧
        ((jitterStep e rtpTs arrival).jitter.toNat : Int) ≤ d) ∧
    (d < e.jitter.toNat →
      d ≤ ((jitterStep e rtpTs arrival).jitter.toNat : Int) ∧
        (jitterStep e rtpTs arrival).jitter.toNat ≤ e.jitter.toNat) ∧
    (jitterStep e rtpTs arrival).jitter.toNat ≤ max e.jitter.toNat (2 ^ 31)

/-- R193: under a constant transit the estimate decays to 15 and stays there; at most 15, it does not change. -/
def Obligations.JitterDecaysToFifteen : Prop :=
  ∀ (e : Entry) (rtpTs arrival : U32), e.transitValid = 1 → arrival - rtpTs = e.transitPrev →
    (e.jitter.toNat ≤ 15 → jitterStep e rtpTs arrival = e) ∧
    (15 ≤ e.jitter.toNat → ∃ n, ∀ m, n ≤ m →
      ((fun x => jitterStep x rtpTs arrival)^[m] e).jitter = 15)

/-- R175(b), for three of the classes of a Valid source: ExtMax moves by the distance on an in-order packet, and stays on
a duplicate and on a jump. (AnnouncedJumpRestartsSource gives the entry of a restart.) -/
def Obligations.ExtendedMaximumInOrderDuplicateAndJump : Prop :=
  ∀ (s t : State) (ssrc : U32) (seq : U16) (rtpTs arrival : U32) (e : Entry), s.table.lookup ssrc = some e →
    e.probation = 0 → exec (.rtpReceived ssrc seq rtpTs arrival) s = .next t →
    ∃ e', t.table.lookup ssrc = some e' ∧
      (t.resp.cls = RxClass.inOrder.code →
        (e'.extMax.toNat : Int) = ((e.extMax.toNat : Int) + seqDistance e seq) % 2 ^ 32 ∧ t.resp.res0 = e'.extMax) ∧
      (t.resp.cls = RxClass.duplicate.code ∨ t.resp.cls = RxClass.jump.code → e'.extMax = e.extMax)

/-- R174(j), R208, R221: a command that names an SSRC changes no other source. -/
def Obligations.OnlyTheNamedSourceChanges : Prop :=
  ∀ (s t : State) (ssrc : U32),
    ((∃ seq rtpTs arrival, exec (.rtpReceived ssrc seq rtpTs arrival) s = .next t) ∨
      (∃ supplied, exec (.buildReport ssrc supplied) s = .next t) ∨
      exec (.removeSource ssrc) s = .next t ∨ exec (.querySource ssrc) s = .next t) →
    s.OthersKept ssrc t ∧ s.SameRest t

/-- R174(i): a Valid source goes back on probation only by a restart. -/
def Obligations.OnlyRestartReturnsToProbation : Prop :=
  ∀ (s t : State) (c : Command) (rest : List HostEvent) (k : U32) (e e' : Entry), s.inv = true →
    s.pending = .command c :: rest → step s = .next t → s.table.lookup k = some e → e.probation = 0 →
    t.table.lookup k = some e' → e'.probation ≠ 0 →
    t.resp.cls = RxClass.restart.code ∧ ∃ seq rtpTs arrival, decodeCommand c = .rtpReceived k seq rtpTs arrival

/-! ## BUILD_REPORT -/

/-- R201 to R204, R206 to R208: the report of a source, from the registers as unbounded integers, and the snapshot. -/
def Obligations.ReportIsBuiltFromCounters : Prop :=
  ∀ (s : State) (ssrc : U32) (supplied : Option (U32 × U32)) (e : Entry), s.table.lookup ssrc = some e →
    ∃ (t : State) (expected lost expectedInt lostInt : Int),
      expected = ((e.cycles + e.maxSeq.setWidth 32).toNat : Int) - e.baseSeq.toNat + 1 ∧
      lost = max 0 (expected - e.received.toNat) ∧
      expectedInt = expected - e.expectedPrior.toInt ∧
      lostInt = expectedInt - ((e.received.toNat : Int) - e.receivedPrior.toNat) ∧
      exec (.buildReport ssrc supplied) s = .next t ∧
      s.Stored t ssrc
        (some { e with expectedPrior := BitVec.ofInt 64 expected, receivedPrior := e.received })
        { Response.ofStatus .ok with
          rb := { ssrc := ssrc
                  fraction := BitVec.ofInt 8 (fractionOf expectedInt lostInt)
                  cumLost := min lost (2 ^ 23 - 1)
                  extMax := e.cycles + e.maxSeq.setWidth 32
                  jitter := e.jitter
                  lsr := match supplied with | some (l, _) => l | none => 0
                  dlsr := match supplied with | some (_, d) => d | none => 0 }
          out := t.resp.out } ∧
      (BitVec.ofInt 64 expected).toInt = expected

/-- R201, R220, R222: a command on an SSRC that has no entry. -/
def Obligations.UnknownSourceIsRefused : Prop :=
  ∀ (s : State) (ssrc : U32), s.table.lookup ssrc = none →
    (∀ supplied, exec (.buildReport ssrc supplied) s = .next (s.respond (Response.ofStatus .noSuchSource))) ∧
    exec (.removeSource ssrc) s = .next (s.respond (Response.ofStatus .noSuchSource)) ∧
    exec (.querySource ssrc) s = .next (s.respond (Response.ofStatus .noSuchSource))

/-- R205: the fraction is 0 without an expected or a lost packet in the interval, else 256 times the ratio, rounded to
nearest with halves up and saturated at 255; the octet of the report holds it. -/
def Obligations.FractionLostIsRounded : Prop :=
  (∀ ei li : Int, (ei ≤ 0 ∨ li ≤ 0 → fractionOf ei li = 0) ∧
    (0 < ei → 0 < li → fractionOf ei li = min 255 ((512 * li + ei) / (2 * ei)) ∧
      ∃ r : Int, (2 * r - 1) * ei ≤ 512 * li ∧ 512 * li < (2 * r + 1) * ei ∧ fractionOf ei li = min 255 r)) ∧
  fractionOf 50 10 = 51 ∧
  ∀ (s t : State) (ssrc : U32) (supplied : Option (U32 × U32)) (e : Entry), s.table.lookup ssrc = some e →
    exec (.buildReport ssrc supplied) s = .next t →
    ((t.resp.rb.fraction.toNat : Int) = fractionOf (expectedInterval e) (lostInterval e))

/-- R203: the cumulative count is never negative, saturates at 0x7FFFFF, and lies in OUT with its sign bit 0. -/
def Obligations.CumulativeLostSaturates : Prop :=
  ∀ (s t : State) (ssrc : U32) (supplied : Option (U32 × U32)) (e : Entry), s.table.lookup ssrc = some e →
    exec (.buildReport ssrc supplied) s = .next t →
    t.resp.rb.cumLost = min (max 0 (expectedOf e - e.received.toNat)) 0x7FFFFF ∧ 0 ≤ t.resp.rb.cumLost ∧
      (((t.resp.out.read 5).toNat * 65536 + (t.resp.out.read 6).toNat * 256 + (t.resp.out.read 7).toNat : Nat) : Int) =
        t.resp.rb.cumLost ∧
      (t.resp.out.read 5).toNat < 128

/-- R209: OUT holds the block's fields at their offsets, big-endian. That an offset beyond its 24 octets (R50(b)) reads 0 is
the model's reading (DEDUCED, log entry 12). -/
def Obligations.OutHoldsTheReportBlock : Prop :=
  ∀ (s t : State) (ssrc : U32) (supplied : Option (U32 × U32)) (e : Entry), s.table.lookup ssrc = some e →
    exec (.buildReport ssrc supplied) s = .next t →
    t.resp.out.octets 0 24 =
      octetsOf4 t.resp.rb.ssrc ++ [t.resp.rb.fraction] ++ octetsOf3 (BitVec.ofInt 24 t.resp.rb.cumLost) ++
        octetsOf4 t.resp.rb.extMax ++ octetsOf4 t.resp.rb.jitter ++ octetsOf4 t.resp.rb.lsr ++
        octetsOf4 t.resp.rb.dlsr ∧
      ∀ a, 24 ≤ a → t.resp.out.read a = 0

/-- R91: decoding the 24 octets of OUT as a report block gives RB back. -/
def Obligations.ReportBlockDecodesBack : Prop :=
  ∀ (s t : State) (ssrc : U32) (supplied : Option (U32 × U32)) (e : Entry), s.table.lookup ssrc = some e →
    exec (.buildReport ssrc supplied) s = .next t → decodeBlock (t.resp.out.octets 0 24) 0 = t.resp.rb

/-- R211(b): of two reports with nothing between them the second has an empty interval. -/
def Obligations.SecondReportHasEmptyInterval : Prop :=
  ∀ (s t u : State) (ssrc : U32) (first second : Option (U32 × U32)) (e : Entry), s.table.lookup ssrc = some e →
    exec (.buildReport ssrc first) s = .next t → exec (.buildReport ssrc second) t = .next u →
    u.resp.rb.fraction = 0 ∧ u.resp.rb.cumLost = t.resp.rb.cumLost ∧ u.resp.rb.extMax = t.resp.rb.extMax ∧
      u.table.lookup ssrc = t.table.lookup ssrc

/-! ## REMOVE_SOURCE and QUERY_SOURCE -/

/-- R220: the entry of the SSRC becomes free; without one, NO_SUCH_SOURCE. -/
def Obligations.RemovedSourceIsGone : Prop :=
  ∀ (s : State) (ssrc : U32), s.inv = true →
    (∀ e, s.table.lookup ssrc = some e →
      ∃ t, exec (.removeSource ssrc) s = .next t ∧ s.Stored t ssrc none (Response.ofStatus .ok) ∧
        t.table.count + 1 = s.table.count) ∧
    (s.table.lookup ssrc = none →
      exec (.removeSource ssrc) s = .next (s.respond (Response.ofStatus .noSuchSource)))

/-- R221: after the removal, the next packet of the SSRC is NEW and nothing of the old entry survives. -/
def Obligations.RemovedSourceStartsAnew : Prop :=
  ∀ (s t : State) (ssrc : U32) (seq : U16) (rtpTs arrival : U32) (e : Entry), s.inv = true →
    s.table.lookup ssrc = some e → exec (.removeSource ssrc) s = .next t →
    ∃ u, exec (.rtpReceived ssrc seq rtpTs arrival) t = .next u ∧
      u.table.lookup ssrc = some (createdEntry ssrc seq (arrival - rtpTs)) ∧
      u.resp = { Response.ofStatus .ok with cls := RxClass.newSource.code, res0 := seq.setWidth 32 }

/-- R222: Q is a copy of the entry, and nothing changes but the response; without an entry, NO_SUCH_SOURCE. -/
def Obligations.QueryCopiesTheEntry : Prop :=
  ∀ (s : State) (ssrc : U32),
    (∀ e, s.table.lookup ssrc = some e →
      exec (.querySource ssrc) s = .next (s.respond { Response.ofStatus .ok with q := e })) ∧
    (s.table.lookup ssrc = none →
      exec (.querySource ssrc) s = .next (s.respond (Response.ofStatus .noSuchSource)))

/-! ## DECODE_RTP -/

/-- R102, R107, R234: the errors of DECODE_RTP, each under the checks before it having passed. -/
def Obligations.RtpErrorsComeInOrder : Prop :=
  ∀ (s : State) (buf : List Octet) (h : Nat), h = 12 + 4 * ccOf buf →
    (s.params.maxBufOctets < buf.length →
      exec (.decodeRtp buf) s = .next (s.respond (Response.ofStatus .illegalCommand))) ∧
    (buf.length ≤ s.params.maxBufOctets →
      (buf.length < 12 → exec (.decodeRtp buf) s = .next (s.respond (Response.ofStatus .tooShort))) ∧
      (12 ≤ buf.length → (octetAt buf 0).toNat / 64 ≠ 2 →
        exec (.decodeRtp buf) s = .next (s.respond (Response.ofStatus .badVersion))) ∧
      (12 ≤ buf.length → (octetAt buf 0).toNat / 64 = 2 →
        (buf.length < h ∨ (hasExtension buf ∧ (buf.length < h + 4 ∨ buf.length < h + 4 + 4 * extLenOf buf h))) →
        exec (.decodeRtp buf) s = .next (s.respond (Response.ofStatus .tooShort))))

/-- R101, R102: a buffer that passes every check decodes to the record of its fields. -/
def Obligations.RtpPacketIsDecoded : Prop :=
  ∀ (s : State) (buf : List Octet) (h : Nat), h = 12 + 4 * ccOf buf → buf.length ≤ s.params.maxBufOctets →
    12 ≤ buf.length → (octetAt buf 0).toNat / 64 = 2 → h ≤ buf.length →
    (hasExtension buf → h + 4 + 4 * extLenOf buf h ≤ buf.length) →
    ∃ (t : State) (h' : Nat), exec (.decodeRtp buf) s = .next t ∧
      (hasExtension buf → h' = h + 4 + 4 * extLenOf buf h) ∧ (¬hasExtension buf → h' = h) ∧
      t = s.respond { Response.ofStatus .ok with rtp := t.resp.rtp } ∧
      t.resp.rtp.version = 2 ∧ t.resp.rtp.padding.toNat = (octetAt buf 0).toNat / 32 % 2 ∧
      t.resp.rtp.extension.toNat = (octetAt buf 0).toNat / 16 % 2 ∧ t.resp.rtp.cc.toNat = ccOf buf ∧
      t.resp.rtp.marker.toNat = (octetAt buf 1).toNat / 128 ∧ t.resp.rtp.pt.toNat = (octetAt buf 1).toNat % 128 ∧
      t.resp.rtp.seq = memRead2 buf 2 ∧ t.resp.rtp.timestamp = memRead4 buf 4 ∧ t.resp.rtp.ssrc = memRead4 buf 8 ∧
      t.resp.rtp.csrc = (List.range (ccOf buf)).map (fun i => memRead4 buf (12 + 4 * i)) ∧
      (¬hasExtension buf → t.resp.rtp.ext = none) ∧
      (hasExtension buf → t.resp.rtp.ext =
        some { profile := memRead2 buf h, length := memRead2 buf (h + 2),
               data := (buf.drop (h + 4)).take (4 * extLenOf buf h) }) ∧
      t.resp.rtp.payloadOffset = h' ∧ t.resp.rtp.payload = buf.drop h'

/-- R102, R103, R104: the wire row RTP_DATA decodes when its CSRC list and extension fit, and is TOO_SHORT otherwise. (A
rest of fewer than 8 octets is a term that no encoding gives, log entry 16; it too is TOO_SHORT.) -/
def Obligations.RtpDataRowDecodes : Prop :=
  (∀ (s : State) (padding extension : BitVec 1) (cc : BitVec 4) (marker : BitVec 1) (pt : BitVec 7) (seq : U16)
    (rest : List Octet), rest.length < 8 + 4 * cc.toNat →
    exec (.rtpData padding extension cc marker pt seq rest) s = .next (s.respond (Response.ofStatus .tooShort))) ∧
  ∀ (s : State) (padding extension : BitVec 1) (cc : BitVec 4) (marker : BitVec 1) (pt : BitVec 7) (seq : U16)
    (timestamp ssrc : U32) (csrc : List U32) (tail : List Octet), csrc.length = cc.toNat →
    (extension = 0 →
      exec (.rtpData padding extension cc marker pt seq
          (octetsOf4 timestamp ++ octetsOf4 ssrc ++ csrc.flatMap octetsOf4 ++ tail)) s =
        .next (s.respond { Response.ofStatus .ok with
          rtp := { version := 2, padding := padding, extension := extension, cc := cc, marker := marker, pt := pt,
                   seq := seq, timestamp := timestamp, ssrc := ssrc, csrc := csrc, ext := none,
                   payloadOffset := 12 + 4 * cc.toNat, payload := tail } })) ∧
    (extension = 1 → ∀ (profile length : U16) (data payload : List Octet),
      tail = octetsOf2 profile ++ octetsOf2 length ++ data ++ payload → data.length = 4 * length.toNat →
      exec (.rtpData padding extension cc marker pt seq
          (octetsOf4 timestamp ++ octetsOf4 ssrc ++ csrc.flatMap octetsOf4 ++ tail)) s =
        .next (s.respond { Response.ofStatus .ok with
          rtp := { version := 2, padding := padding, extension := extension, cc := cc, marker := marker, pt := pt,
                   seq := seq, timestamp := timestamp, ssrc := ssrc, csrc := csrc,
                   ext := some { profile := profile, length := length, data := data },
                   payloadOffset := 16 + 4 * cc.toNat + 4 * length.toNat, payload := payload } })) ∧
    (extension = 1 →
      (tail.length < 4 ∨ tail.length < 4 + 4 * ((octetAt tail 2).toNat * 256 + (octetAt tail 3).toNat)) →
      exec (.rtpData padding extension cc marker pt seq
          (octetsOf4 timestamp ++ octetsOf4 ssrc ++ csrc.flatMap octetsOf4 ++ tail)) s =
        .next (s.respond (Response.ofStatus .tooShort)))

/-- R108: laying out a representable RTP record and decoding it gives OK and the record. -/
def Obligations.RtpRecordRoundTrip : Prop :=
  ∀ (s : State) (p : RtpPacket), p.representable = true → (layoutRtp p).length ≤ s.params.maxBufOctets →
    exec (.decodeRtp (layoutRtp p)) s = .next (s.respond { Response.ofStatus .ok with rtp := p })

/-- R101, R105: a decoded RTP record is representable, and laying it out gives the buffer: no octet is lost. -/
def Obligations.DecodedRtpRecordLaysOutAsBuffer : Prop :=
  ∀ (s t : State) (buf : List Octet), exec (.decodeRtp buf) s = .next t → t.resp.status = Status.ok.code →
    t.resp.rtp.representable = true ∧ layoutRtp t.resp.rtp = buf

/-- R106: DECODE_RTP writes only STATUS and RTP, and neither reads nor writes the table. -/
def Obligations.DecodeRtpWritesOnlyItsResponse : Prop :=
  ∀ (s : State) (buf : List Octet), ∃ (st : Status) (p : RtpPacket),
    (st = .ok ∨ p = RtpPacket.zero) ∧
    exec (.decodeRtp buf) s = .next (s.respond { Response.ofStatus st with rtp := p }) ∧
    ∀ table : Table,
      exec (.decodeRtp buf) (s.withTable table) =
        .next ((s.withTable table).respond { Response.ofStatus st with rtp := p })

/-! ## DECODE_RTCP -/

/-- R123, R223: a buffer of fewer than four octets, and one longer than the block takes. -/
def Obligations.RtcpBufferSizeIsChecked : Prop :=
  ∀ (s : State) (buf : List Octet),
    (s.params.maxBufOctets < buf.length →
      exec (.decodeRtcp buf) s = .next (s.respond (Response.ofStatus .illegalCommand))) ∧
    (buf.length ≤ s.params.maxBufOctets → buf.length < 4 →
      exec (.decodeRtcp buf) s = .next (s.respond (Response.ofStatus .tooShort)))

/-- R86, R122, R123, R234: the framing errors of the first packet of a buffer: its version, then a declared length that
does not fit. PKTS is empty. -/
def Obligations.RtcpFramingErrorsComeInOrder : Prop :=
  ∀ (s : State) (buf : List Octet), 4 ≤ buf.length → buf.length ≤ s.params.maxBufOctets →
    ((octetAt buf 0).toNat / 64 ≠ 2 →
      exec (.decodeRtcp buf) s = .next (s.respond (Response.ofStatus .badVersion))) ∧
    ((octetAt buf 0).toNat / 64 = 2 →
      buf.length < 4 * ((octetAt buf 2).toNat * 256 + (octetAt buf 3).toNat + 1) →
      exec (.decodeRtcp buf) s = .next (s.respond (Response.ofStatus .lengthMismatch)))

/-- R78, R126: a sender report has exactly the size its count gives. Offsets are those of R78 less the header's 4. -/
def Obligations.SenderReportRowDecodes : Prop :=
  ∀ (s : State) (padding : BitVec 1) (count : BitVec 5) (length : U16) (body : List Octet) (pad : Octet),
    body.length = 4 * length.toNat → PaddedBy padding body pad →
    (body.length - pad.toNat = 24 + 24 * count.toNat →
      exec (.rtcpSr padding count length body) s = .next (s.withPacket (packetRecord padding count 200 length pad
        (.sr (memRead4 body 0) (memRead4 body 4) (memRead4 body 8) (memRead4 body 12) (memRead4 body 16)
          (memRead4 body 20) ((List.range count.toNat).map fun i => decodeBlock body (24 + 24 * i)))))) ∧
    (body.length - pad.toNat ≠ 24 + 24 * count.toNat →
      exec (.rtcpSr padding count length body) s = .next s.withMismatch)

/-- R79, R127: a receiver report. -/
def Obligations.ReceiverReportRowDecodes : Prop :=
  ∀ (s : State) (padding : BitVec 1) (count : BitVec 5) (length : U16) (body : List Octet) (pad : Octet),
    body.length = 4 * length.toNat → PaddedBy padding body pad →
    (body.length - pad.toNat = 4 + 24 * count.toNat →
      exec (.rtcpRr padding count length body) s = .next (s.withPacket (packetRecord padding count 201 length pad
        (.rr (memRead4 body 0) ((List.range count.toNat).map fun i => decodeBlock body (4 + 24 * i)))))) ∧
    (body.length - pad.toNat ≠ 4 + 24 * count.toNat →
      exec (.rtcpRr padding count length body) s = .next s.withMismatch)

/-- R134 to R138: an SDES packet decodes to chunks exactly when its content is those chunks, as many as its count. -/
def Obligations.SdesRowDecodesItsChunks : Prop :=
  ∀ (s : State) (padding : BitVec 1) (count : BitVec 5) (length : U16) (body : List Octet) (pad : Octet),
    body.length = 4 * length.toNat → PaddedBy padding body pad →
    (∀ chunks : List SdesChunk, SdesContent chunks (contentOf body pad) → chunks.length = count.toNat →
      exec (.rtcpSdes padding count length body) s =
        .next (s.withPacket (packetRecord padding count 202 length pad (.sdes chunks)))) ∧
    ((¬∃ chunks : List SdesChunk, SdesContent chunks (contentOf body pad) ∧ chunks.length = count.toNat) →
      exec (.rtcpSdes padding count length body) s = .next s.withMismatch)

/-- R82, R129, R130: a BYE packet: its SSRCs, and the reason when content remains. -/
def Obligations.ByeRowDecodes : Prop :=
  ∀ (s : State) (padding : BitVec 1) (count : BitVec 5) (length : U16) (body : List Octet) (pad : Octet) (k r l : Nat)
    (ssrcs : List U32), body.length = 4 * length.toNat → PaddedBy padding body pad → k = 4 * count.toNat →
    r = body.length - pad.toNat - k → l = (octetAt body k).toNat →
    ssrcs = (List.range count.toNat).map (fun i => memRead4 body (4 * i)) →
    (body.length - pad.toNat = k →
      exec (.rtcpBye padding count length body) s =
        .next (s.withPacket (packetRecord padding count 203 length pad (.bye ssrcs none)))) ∧
    (k < body.length - pad.toNat → r = roundup4 (1 + l) →
      exec (.rtcpBye padding count length body) s =
        .next (s.withPacket (packetRecord padding count 203 length pad
          (.bye ssrcs (some ((body.drop (k + 1)).take l)))))) ∧
    (body.length - pad.toNat < k ∨ (k < body.length - pad.toNat ∧ r ≠ roundup4 (1 + l)) →
      exec (.rtcpBye padding count length body) s = .next s.withMismatch)

/-- R83, R131: an APP packet: its count as subtype and its content as it stands. -/
def Obligations.AppRowDecodes : Prop :=
  ∀ (s : State) (padding : BitVec 1) (count : BitVec 5) (length : U16) (body : List Octet) (pad : Octet),
    body.length = 4 * length.toNat → PaddedBy padding body pad →
    exec (.rtcpApp padding count length body) s =
      .next (s.withPacket (packetRecord padding count 204 length pad (.app count (contentOf body pad))))

/-- R132: the row of any other packet type: its content as it stands. For the types 200 to 204, which have rows of their
own (R125), the row is a term that no encoding gives, and its meaning is the model's choice (log entry 16). -/
def Obligations.OtherRowDecodes : Prop :=
  ∀ (s : State) (pt : Octet) (padding : BitVec 1) (count : BitVec 5) (length : U16) (body : List Octet) (pad : Octet),
    body.length = 4 * length.toNat → PaddedBy padding body pad →
    exec (.rtcpOther pt padding count length body) s =
      .next (s.withPacket (packetRecord padding count pt length pad (.other (contentOf body pad))))

/-- R84, R124: with P = 1, a last octet of 0, or of more than the octets after the header, is LENGTH_MISMATCH for every
packet type. -/
def Obligations.BadPaddingIsMismatch : Prop :=
  ∀ (s : State) (h : RtcpHeader) (body : List Octet), body.length = 4 * h.length.toNat → h.padding = 1 →
    (∀ pad, body.getLast? = some pad → pad = 0 ∨ body.length < pad.toNat) →
    exec (h.instr body) s = .next s.withMismatch

/-- R140: laying out representable RTCP records, at least one, and decoding them gives OK and the records. The layout
fills with zeros where the spec leaves octets any value (DESIGN CHOICE, log entry 21). -/
def Obligations.RtcpRecordsRoundTrip : Prop :=
  ∀ (s : State) (ps : List RtcpPacket), ps ≠ [] → (∀ p ∈ ps, p.representable = true) →
    (layoutCompound ps).length ≤ s.params.maxBufOctets →
    exec (.decodeRtcp (layoutCompound ps)) s = .next (s.respond { Response.ofStatus .ok with pkts := ps })

/-- R133: DECODE_RTCP writes only STATUS and PKTS, and neither reads nor writes the table. -/
def Obligations.DecodeRtcpWritesOnlyItsResponse : Prop :=
  ∀ (s : State) (buf : List Octet), ∃ (st : Status) (ps : List RtcpPacket),
    exec (.decodeRtcp buf) s = .next (s.respond { Response.ofStatus st with pkts := ps }) ∧
    ∀ table : Table,
      exec (.decodeRtcp buf) (s.withTable table) =
        .next ((s.withTable table).respond { Response.ofStatus st with pkts := ps })

/-! ## All commands -/

/-- R233: every STATUS from 2 to 7 leaves the table as it was before the command. -/
def Obligations.ErrorsLeaveTheTable : Prop :=
  ∀ (s t : State) (c : Command) (rest : List HostEvent), s.pending = .command c :: rest → step s = .next t →
    2 ≤ t.resp.status.toNat → t.table = s.table

/-- R173, R231, D39: a command answers a listed STATUS and CLASS; CLASS and RES0 are 0 but for RTP_RECEIVED, and RES0 is 0
unless the packet is accepted. -/
def Obligations.OutcomeCodesAreTheListedOnes : Prop :=
  ∀ (s t : State) (c : Command) (rest : List HostEvent), s.pending = .command c :: rest → step s = .next t →
    t.resp.status.toNat ≤ 7 ∧ t.resp.cls.toNat ≤ 6 ∧
    ((∀ ssrc seq rtpTs arrival, decodeCommand c ≠ .rtpReceived ssrc seq rtpTs arrival) →
      t.resp.cls = 0 ∧ t.resp.res0 = 0) ∧
    (t.resp.status ≠ Status.ok.code → t.resp.res0 = 0)
end

