-- ==== Sys2Proof/Laws/Operands.lean ====
section
/-! SUPPORT. Reading back what was laid out: the big-endian octets of a value, and reads past other octets. -/

namespace Sys2Proof.Machine

@[simp] theorem octetAt_cons_zero (x : Octet) (l : List Octet) : octetAt (x :: l) 0 = x := rfl
@[simp] theorem octetAt_cons_succ (x : Octet) (l : List Octet) (o : Nat) : octetAt (x :: l) (o + 1) = octetAt l o := by
  simp [octetAt]

@[simp] theorem memRead1_cons_zero (x : Octet) (l : List Octet) : memRead1 (x :: l) 0 = x := rfl
@[simp] theorem memRead1_cons_succ (x : Octet) (l : List Octet) (o : Nat) :
    memRead1 (x :: l) (o + 1) = memRead1 l o := octetAt_cons_succ x l o
@[simp] theorem memRead2_cons_succ (x : Octet) (l : List Octet) (o : Nat) :
    memRead2 (x :: l) (o + 1) = memRead2 l o := by simp [memRead2]
@[simp] theorem memRead3_cons_succ (x : Octet) (l : List Octet) (o : Nat) :
    memRead3 (x :: l) (o + 1) = memRead3 l o := by simp [memRead3]
@[simp] theorem memRead4_cons_succ (x : Octet) (l : List Octet) (o : Nat) :
    memRead4 (x :: l) (o + 1) = memRead4 l o := by simp [memRead4]
@[simp] theorem octets_cons_succ (x : Octet) (l : List Octet) (o n : Nat) :
    octets (x :: l) (o + 1) n = octets l o n := rfl

/-- Reads past the octets in front. -/
theorem octetAt_append (a b : List Octet) (o : Nat) : octetAt (a ++ b) (a.length + o) = octetAt b o := by
  simp [octetAt, List.getElem?_append_right]

theorem memRead1_append (a b : List Octet) (o : Nat) : memRead1 (a ++ b) (a.length + o) = memRead1 b o :=
  octetAt_append a b o
theorem memRead2_append (a b : List Octet) (o : Nat) : memRead2 (a ++ b) (a.length + o) = memRead2 b o := by
  simp [memRead2, octetAt_append, Nat.add_assoc]
theorem memRead3_append (a b : List Octet) (o : Nat) : memRead3 (a ++ b) (a.length + o) = memRead3 b o := by
  simp [memRead3, octetAt_append, Nat.add_assoc]
theorem memRead4_append (a b : List Octet) (o : Nat) : memRead4 (a ++ b) (a.length + o) = memRead4 b o := by
  simp [memRead4, octetAt_append, Nat.add_assoc]
theorem octets_append (a b : List Octet) (o n : Nat) : octets (a ++ b) (a.length + o) n = octets b o n := by
  simp only [octets]
  rw [← List.drop_drop, List.drop_left]

/-- Reads before the octets behind. -/
theorem octetAt_append_left {a : List Octet} (b : List Octet) {o : Nat} (h : o < a.length) :
    octetAt (a ++ b) o = octetAt a o := by
  simp [octetAt, List.getElem?_append_left h]

theorem memRead1_append_left {a : List Octet} (b : List Octet) {o : Nat} (h : o < a.length) :
    memRead1 (a ++ b) o = memRead1 a o := octetAt_append_left b h
theorem memRead2_append_left {a : List Octet} (b : List Octet) {o : Nat} (h : o + 2 ≤ a.length) :
    memRead2 (a ++ b) o = memRead2 a o := by
  simp only [memRead2]
  rw [octetAt_append_left b (by omega), octetAt_append_left b (by omega)]
theorem memRead3_append_left {a : List Octet} (b : List Octet) {o : Nat} (h : o + 3 ≤ a.length) :
    memRead3 (a ++ b) o = memRead3 a o := by
  simp only [memRead3]
  rw [octetAt_append_left b (by omega), octetAt_append_left b (by omega), octetAt_append_left b (by omega)]
theorem memRead4_append_left {a : List Octet} (b : List Octet) {o : Nat} (h : o + 4 ≤ a.length) :
    memRead4 (a ++ b) o = memRead4 a o := by
  simp only [memRead4]
  rw [octetAt_append_left b (by omega), octetAt_append_left b (by omega), octetAt_append_left b (by omega),
    octetAt_append_left b (by omega)]
theorem octets_append_left {a : List Octet} (b : List Octet) {o n : Nat} (h : o + n ≤ a.length) :
    octets (a ++ b) o n = octets a o n := by
  simp only [octets]
  rw [List.drop_append_of_le_length (by omega), List.take_append_of_le_length (by simp; omega)]

@[simp] theorem octetsOf2_length (v : U16) : (octetsOf2 v).length = 2 := rfl
@[simp] theorem octetsOf3_length (v : BitVec 24) : (octetsOf3 v).length = 3 := rfl
@[simp] theorem octetsOf4_length (v : U32) : (octetsOf4 v).length = 4 := rfl

/-- Two octets of a value, joined, are the value. -/
theorem join2 (v : BitVec (8 + 8)) : v.extractLsb' 8 8 ++ v.extractLsb' 0 8 = v := by
  apply BitVec.eq_of_getLsbD_eq
  intro i hi
  rw [BitVec.getLsbD_append]
  simp only [BitVec.getLsbD_extractLsb']
  by_cases h : i < 8
  · simp [h]
  · have e : 8 + (i - 8) = i := by omega
    have e' : i - 8 < 8 := by omega
    simp [h, e, e']

/-- The low and the high part of joined vectors. -/
theorem low_append {m n : Nat} (x : BitVec m) (y : BitVec n) : (x ++ y).extractLsb' 0 n = y := by
  apply BitVec.eq_of_getLsbD_eq
  intro i hi
  simp [BitVec.getLsbD_append, hi]

theorem high_append {m n : Nat} (x : BitVec m) (y : BitVec n) : (x ++ y).extractLsb' n m = x := by
  apply BitVec.eq_of_getLsbD_eq
  intro i hi
  simp [BitVec.getLsbD_append, hi]

/-- A field inside the low part of joined vectors is a field of the low part. -/
theorem field_append_low {m n : Nat} (x : BitVec m) (y : BitVec n) {k w : Nat} (h : k + w ≤ n) :
    (x ++ y).extractLsb' k w = y.extractLsb' k w := by
  apply BitVec.eq_of_getLsbD_eq
  intro i hi
  have : k + i < n := by omega
  simp [BitVec.getLsbD_extractLsb', BitVec.getLsbD_append, this]

/-- A field inside the high part of joined vectors is a field of the high part. -/
theorem field_append_high {m n : Nat} (x : BitVec m) (y : BitVec n) {k w : Nat} :
    (x ++ y).extractLsb' (n + k) w = x.extractLsb' k w := by
  apply BitVec.eq_of_getLsbD_eq
  intro i hi
  have : ¬ n + k + i < n := by omega
  have e : n + k + i - n = k + i := by omega
  simp [BitVec.getLsbD_extractLsb', BitVec.getLsbD_append, this, e]

/-- Adjacent fields join to one field. -/
theorem join_fields {n : Nat} (v : BitVec n) (k a b : Nat) :
    v.extractLsb' (k + b) a ++ v.extractLsb' k b = v.extractLsb' k (a + b) := by
  apply BitVec.eq_of_getLsbD_eq
  intro i hi
  rw [BitVec.getLsbD_append]
  simp only [BitVec.getLsbD_extractLsb']
  by_cases h : i < b
  · simp [h, show i < a + b by omega]
  · have e : k + b + (i - b) = k + i := by omega
    simp [h, e, show i - b < a by omega, show i < a + b by omega]

/-- The field that is the whole vector. -/
theorem whole_field {n : Nat} (v : BitVec n) : v.extractLsb' 0 n = v := by
  apply BitVec.eq_of_getLsbD_eq
  intro i hi
  simp [hi]

/-- A 16-bit value reads back from its octets. -/
@[simp] theorem memRead2_octetsOf2 (v : U16) (l : List Octet) : memRead2 (octetsOf2 v ++ l) 0 = v := join2 v

/-- A 24-bit value reads back from its octets. -/
@[simp] theorem memRead3_octetsOf3 (v : BitVec 24) (l : List Octet) : memRead3 (octetsOf3 v ++ l) 0 = v := by
  have h : (v.extractLsb' (8 + 8) 8 ++ v.extractLsb' (0 + 8) 8) ++ v.extractLsb' 0 8 = v := by
    rw [join_fields v (0 + 8) 8 8, join_fields v 0 (8 + 8) 8]
    exact whole_field v
  exact h

/-- A 32-bit value reads back from its octets. -/
@[simp] theorem memRead4_octetsOf4 (v : U32) (l : List Octet) : memRead4 (octetsOf4 v ++ l) 0 = v := by
  have h : ((v.extractLsb' (8 + 8 + 8) 8 ++ v.extractLsb' (8 + 8) 8) ++ v.extractLsb' (0 + 8) 8) ++ v.extractLsb' 0 8
      = v := by
    rw [join_fields v (8 + 8) 8 8, join_fields v (0 + 8) (8 + 8) 8, join_fields v 0 (8 + 8 + 8) 8]
    exact whole_field v
  exact h

/-- The octets of a 16-bit read. -/
theorem octetsOf2_memRead2 (l : List Octet) (o : Nat) : octetsOf2 (memRead2 l o) = [octetAt l o, octetAt l (o + 1)] := by
  have h1 := high_append (octetAt l o) (octetAt l (o + 1))
  have h0 := low_append (octetAt l o) (octetAt l (o + 1))
  simp only [octetsOf2, memRead2, List.cons.injEq, and_true]
  exact ⟨h1, h0⟩

/-- A rounded-up number is a multiple of 4, at least the number and less than 4 above it. -/
theorem roundup4_spec (n : Nat) : n ≤ roundup4 n ∧ roundup4 n < n + 4 ∧ roundup4 n % 4 = 0 := by
  unfold roundup4
  omega

/-- A multiple of 4 moves out of the rounding. -/
theorem roundup4_add (k n : Nat) : roundup4 (4 * k + n) = 4 * k + roundup4 n := by
  unfold roundup4
  omega

/-! ## Reads as numbers, and a buffer as what was read from it -/

/-- A 16-bit read as a number. -/
theorem memRead2_toNat (buf : List Octet) (o : Nat) :
    (memRead2 buf o).toNat = (octetAt buf o).toNat * 256 + (octetAt buf (o + 1)).toNat := by
  have h := (octetAt buf (o + 1)).isLt
  have e := BitVec.toNat_append (octetAt buf o) (octetAt buf (o + 1))
  rw [← Nat.shiftLeft_add_eq_or_of_lt h, Nat.shiftLeft_eq] at e
  exact e

/-- The octets of a 32-bit read. -/
theorem octetsOf4_memRead4 (l : List Octet) (o : Nat) :
    octetsOf4 (memRead4 l o) = [octetAt l o, octetAt l (o + 1), octetAt l (o + 2), octetAt l (o + 3)] := by
  let a := octetAt l o
  let b := octetAt l (o + 1)
  let c := octetAt l (o + 2)
  let d := octetAt l (o + 3)
  have f3 := low_append (a ++ b ++ c) d
  have f2 := field_append_high (m := 8 + 8 + 8) (n := 8) (a ++ b ++ c) d (k := 0) (w := 8)
  have g2 := low_append (a ++ b) c
  have f1 := field_append_high (m := 8 + 8 + 8) (n := 8) (a ++ b ++ c) d (k := 8) (w := 8)
  have g1 := field_append_high (m := 8 + 8) (n := 8) (a ++ b) c (k := 0) (w := 8)
  have h1 := low_append a b
  have f0 := field_append_high (m := 8 + 8 + 8) (n := 8) (a ++ b ++ c) d (k := 16) (w := 8)
  have g0 := field_append_high (m := 8 + 8) (n := 8) (a ++ b) c (k := 8) (w := 8)
  have h0 := high_append a b
  simp only [octetsOf4, memRead4, List.cons.injEq, and_true]
  exact ⟨f0.trans (g0.trans h0), f1.trans (g1.trans h1), f2.trans g2, f3⟩

/-- The octet at an offset comes first of the octets from there on. -/
theorem drop_octetAt {l : List Octet} {o : Nat} (h : o < l.length) : l.drop o = octetAt l o :: l.drop (o + 1) := by
  rw [List.drop_eq_getElem_cons h]
  simp [octetAt, h]

/-- So do the two octets of a 16-bit read. -/
theorem drop_memRead2 {l : List Octet} {o : Nat} (h : o + 2 ≤ l.length) :
    l.drop o = octetsOf2 (memRead2 l o) ++ l.drop (o + 2) := by
  rw [octetsOf2_memRead2, drop_octetAt (by omega), drop_octetAt (o := o + 1) (by omega)]
  rfl

/-- So do the four octets of a 32-bit read. -/
theorem drop_memRead4 {l : List Octet} {o : Nat} (h : o + 4 ≤ l.length) :
    l.drop o = octetsOf4 (memRead4 l o) ++ l.drop (o + 4) := by
  rw [octetsOf4_memRead4, drop_octetAt (by omega), drop_octetAt (o := o + 1) (by omega),
    drop_octetAt (o := o + 1 + 1) (by omega), drop_octetAt (o := o + 1 + 1 + 1) (by omega)]
  rfl

/-- So do the octets of a list of 32-bit reads. -/
theorem drop_memRead4s {l : List Octet} {n o : Nat} (h : o + 4 * n ≤ l.length) :
    l.drop o = ((List.range n).map fun i => memRead4 l (o + 4 * i)).flatMap octetsOf4 ++ l.drop (o + 4 * n) := by
  induction n generalizing o with
  | zero => simp
  | succ n ih =>
    rw [drop_memRead4 (by omega), ih (by omega), List.range_succ_eq_map]
    simp only [List.map_cons, List.map_map, List.flatMap_cons, List.append_assoc]
    rw [show o + 4 + 4 * n = o + 4 * (n + 1) by omega]
    congr 2
    congr 1
    apply List.map_congr_left
    intro i _
    show memRead4 l _ = memRead4 l _
    congr 1
    omega

theorem flatMap_octetsOf4_length (l : List U32) : (l.flatMap octetsOf4).length = 4 * l.length := by
  induction l with
  | nil => rfl
  | cons a l ih =>
    simp only [List.flatMap_cons, List.length_append, octetsOf4_length, List.length_cons, ih]
    omega

/-- A list of 32-bit values reads back from its octets. -/
theorem memRead4s_octetsOf4 (pre : List Octet) (l : List U32) (post : List Octet) :
    (List.range l.length).map (fun i => memRead4 (pre ++ (l.flatMap octetsOf4 ++ post)) (pre.length + 4 * i)) = l := by
  induction l generalizing pre with
  | nil => rfl
  | cons a l ih =>
    rw [List.length_cons, List.range_succ_eq_map, List.map_cons, List.map_map]
    congr 1
    · rw [memRead4_append]
      simp only [List.flatMap_cons, List.append_assoc]
      exact memRead4_octetsOf4 _ _
    · have h := ih (pre ++ octetsOf4 a)
      conv_rhs => rw [← h]
      apply List.map_congr_left
      intro i _
      simp only [List.flatMap_cons, List.append_assoc, Function.comp, List.length_append, octetsOf4_length]
      congr 1
      omega

end Sys2Proof.Machine
end

