-- ==== Sys2Proof/Laws/Decode.lean ====
section
/-! SUPPORT. The wire headers: reading the fields of laid-out octets, laying out the fields that were read, and what
framing answers. -/

namespace Sys2Proof

open Machine

/-! ## Reading laid-out headers -/

@[simp] theorem rtpOctets_length (w : RtpWord) (rest : List Octet) : (rtpOctets w rest).length = 4 + rest.length := by
  simp [rtpOctets, octetsOf2]
  omega

@[simp] theorem rtcpOctets_length (h : RtcpHeader) (body : List Octet) :
    (rtcpOctets h body).length = 4 + body.length := by
  simp [rtcpOctets, octetsOf2]
  omega

@[simp] theorem rtpOctets_drop (w : RtpWord) (rest : List Octet) : (rtpOctets w rest).drop 4 = rest := rfl

@[simp] theorem rtcpOctets_drop (h : RtcpHeader) (body : List Octet) : (rtcpOctets h body).drop 4 = body := rfl

@[simp] theorem versionOf_rtpOctets (w : RtpWord) (rest : List Octet) : versionOf (rtpOctets w rest) = 2 := by
  have h1 := field_append_high (m := 2 + 1 + 1) (n := 4) (2#2 ++ w.padding ++ w.extension) w.cc (k := 2) (w := 2)
  have h2 := field_append_high (m := 2 + 1) (n := 1) (2#2 ++ w.padding) w.extension (k := 1) (w := 2)
  have h3 := high_append (2#2) w.padding
  exact h1.trans (h2.trans h3)

@[simp] theorem rtpWordOf_rtpOctets (w : RtpWord) (rest : List Octet) : rtpWordOf (rtpOctets w rest) = w := by
  obtain ⟨p, x, cc, m, pt, seq⟩ := w
  have hp1 := field_append_high (m := 2 + 1 + 1) (n := 4) (2#2 ++ p ++ x) cc (k := 1) (w := 1)
  have hp2 := field_append_high (m := 2 + 1) (n := 1) (2#2 ++ p) x (k := 0) (w := 1)
  have hp3 := low_append (2#2) p
  have hx1 := field_append_high (m := 2 + 1 + 1) (n := 4) (2#2 ++ p ++ x) cc (k := 0) (w := 1)
  have hx2 := low_append (2#2 ++ p) x
  have hcc := low_append (2#2 ++ p ++ x) cc
  have hm := high_append m pt
  have hpt := low_append m pt
  have hs := memRead2_octetsOf2 seq rest
  show ({ padding := _, extension := _, cc := _, marker := _, pt := _, seq := _ } : RtpWord) = _
  congr 1
  · exact hp1.trans (hp2.trans hp3)
  · exact hx1.trans hx2

@[simp] theorem versionOf_rtcpOctets (h : RtcpHeader) (body : List Octet) : versionOf (rtcpOctets h body) = 2 := by
  have h1 := field_append_high (m := 2 + 1) (n := 5) (2#2 ++ h.padding) h.count (k := 1) (w := 2)
  have h2 := high_append (2#2) h.padding
  exact h1.trans h2

@[simp] theorem rtcpHeaderOf_rtcpOctets (h : RtcpHeader) (body : List Octet) :
    rtcpHeaderOf (rtcpOctets h body) = h := by
  obtain ⟨p, count, pt, length⟩ := h
  have hp1 := field_append_high (m := 2 + 1) (n := 5) (2#2 ++ p) count (k := 0) (w := 1)
  have hp2 := low_append (2#2) p
  have hc := low_append (2#2 ++ p) count
  have hl := memRead2_octetsOf2 length body
  show ({ padding := _, count := _, pt := _, length := _ } : RtcpHeader) = _
  congr 1
  exact hp1.trans hp2

/-! ## Laying out what was read -/

/-- A list of at least four octets. -/
theorem four_octets {buf : List Octet} (h : 4 ≤ buf.length) :
    ∃ a b c d rest, buf = a :: b :: c :: d :: rest := by
  match buf, h with
  | a :: b :: c :: d :: rest, _ => exact ⟨a, b, c, d, rest, rfl⟩

/-- An octet of version 2 is its RTP fields. -/
theorem rtp_octet0 (a : Octet) (h : a.extractLsb' 6 2 = 2) :
    (2#2 ++ a.extractLsb' 5 1 ++ a.extractLsb' 4 1 ++ a.extractLsb' 0 4 : BitVec 8) = a := by
  have h' : (2#2 : BitVec 2) = a.extractLsb' (5 + 1) 2 := h.symm
  rw [h']
  have j1 := join_fields a 5 2 1
  have j2 := join_fields a 4 (2 + 1) 1
  have j3 := join_fields a 0 (2 + 1 + 1) 4
  have e : a.extractLsb' (5 + 1) 2 ++ a.extractLsb' 5 1 = a.extractLsb' (4 + 1) (2 + 1) := j1
  rw [e]
  have e2 : a.extractLsb' (4 + 1) (2 + 1) ++ a.extractLsb' 4 1 = a.extractLsb' (0 + 4) (2 + 1 + 1) := j2
  rw [e2]
  exact j3.trans (whole_field a)

/-- An octet of version 2 is its RTCP fields. -/
theorem rtcp_octet0 (a : Octet) (h : a.extractLsb' 6 2 = 2) :
    (2#2 ++ a.extractLsb' 5 1 ++ a.extractLsb' 0 5 : BitVec 8) = a := by
  have h' : (2#2 : BitVec 2) = a.extractLsb' (5 + 1) 2 := h.symm
  rw [h']
  have e : a.extractLsb' (5 + 1) 2 ++ a.extractLsb' 5 1 = a.extractLsb' (0 + 5) (2 + 1) := join_fields a 5 2 1
  rw [e]
  exact (join_fields a 0 (2 + 1) 5).trans (whole_field a)

/-- An octet is its marker and payload type. -/
theorem rtp_octet1 (a : Octet) : (a.extractLsb' 7 1 ++ a.extractLsb' 0 7 : BitVec 8) = a :=
  (join_fields a 0 1 7).trans (whole_field a)

/-- The octets of an RTP packet of version 2 are the layout of its word 0 and the octets after it. -/
theorem rtpOctets_rtpWordOf {buf : List Octet} (h : 4 ≤ buf.length) (hv : versionOf buf = 2) :
    rtpOctets (rtpWordOf buf) (buf.drop 4) = buf := by
  obtain ⟨a, b, c, d, rest, rfl⟩ := four_octets h
  have h0 := rtp_octet0 a hv
  have h1 := rtp_octet1 b
  have h2 := octetsOf2_memRead2 (a :: b :: c :: d :: rest) 2
  simp only [rtpOctets, rtpWordOf]
  rw [h2]
  show (_ : Octet) :: (_ : Octet) :: _ = _
  exact congrArg₂ List.cons h0 (congrArg₂ List.cons h1 rfl)

/-- The octets from an RTCP packet of version 2 on are the layout of its header and the octets after it. -/
theorem rtcpOctets_rtcpHeaderOf {buf : List Octet} (h : 4 ≤ buf.length) (hv : versionOf buf = 2) :
    rtcpOctets (rtcpHeaderOf buf) (buf.drop 4) = buf := by
  obtain ⟨a, b, c, d, rest, rfl⟩ := four_octets h
  have h0 := rtcp_octet0 a hv
  have h2 := octetsOf2_memRead2 (a :: b :: c :: d :: rest) 2
  simp only [rtcpOctets, rtcpHeaderOf]
  rw [h2]
  exact congrArg₂ List.cons h0 rfl

/-! ## Framing -/

/-- A laid-out RTP packet of at least 12 octets is framed as its fields. -/
theorem frameRtp_rtpOctets (w : RtpWord) {rest : List Octet} (h : 8 ≤ rest.length) :
    frameRtp (rtpOctets w rest) = .ok (w, rest) := by
  simp [frameRtp]
  omega

/-- What framing an RTP buffer answers when it succeeds. -/
theorem frameRtp_ok {buf : List Octet} {w : RtpWord} {rest : List Octet} (h : frameRtp buf = .ok (w, rest)) :
    12 ≤ buf.length ∧ versionOf buf = 2 ∧ buf = rtpOctets w rest ∧ 8 ≤ rest.length := by
  unfold frameRtp at h
  split at h
  · cases h
  · split at h
    · cases h
    · rename_i h1 h2
      cases h
      have hv : versionOf buf = 2 := not_not.mp h2
      exact ⟨by omega, hv, (rtpOctets_rtpWordOf (by omega) hv).symm, by simp; omega⟩

@[simp] theorem packetOctets_pos (length : U16) : 4 ≤ packetOctets length := by
  unfold packetOctets
  omega

/-- A laid-out RTCP packet of the declared length is framed as its fields, whatever follows it. -/
theorem frameRtcp_rtcpOctets (h : RtcpHeader) {body : List Octet} (hb : body.length = 4 * h.length.toNat)
    (rest : List Octet) : frameRtcp (rtcpOctets h body ++ rest) = .ok (h, body, rest) := by
  have e : rtcpOctets h body ++ rest = rtcpOctets h (body ++ rest) := by simp [rtcpOctets]
  have hn : packetOctets h.length = 4 + body.length := by unfold packetOctets; omega
  have d1 : octets (rtcpOctets h (body ++ rest)) 4 body.length = body := by
    unfold octets
    rw [rtcpOctets_drop, List.take_left]
  have d2 : (rtcpOctets h (body ++ rest)).drop (4 + body.length) = rest := by
    rw [← List.drop_drop, rtcpOctets_drop, List.drop_left]
  rw [e]
  unfold frameRtcp
  simp [hn, d1, d2]

/-- What framing an RTCP packet answers when it succeeds. -/
theorem frameRtcp_ok {buf : List Octet} {h : RtcpHeader} {body rest : List Octet}
    (hf : frameRtcp buf = .ok (h, body, rest)) :
    versionOf buf = 2 ∧ body.length = 4 * h.length.toNat ∧ buf = rtcpOctets h body ++ rest := by
  unfold frameRtcp at hf
  split at hf
  · cases hf
  · split at hf
    · cases hf
    · rename_i h1 h2
      have hv : versionOf buf = 2 := not_not.mp h2
      simp only at hf
      split at hf
      · cases hf
      · rename_i h3
        cases hf
        have hl : packetOctets (rtcpHeaderOf buf).length = 4 * (rtcpHeaderOf buf).length.toNat + 4 := by
          unfold packetOctets; omega
        refine ⟨hv, by simp [octets]; omega, ?_⟩
        conv_lhs => rw [← rtcpOctets_rtcpHeaderOf (by omega) hv]
        have : buf.drop 4 = octets buf 4 (packetOctets (rtcpHeaderOf buf).length - 4) ++
            buf.drop (packetOctets (rtcpHeaderOf buf).length) := by
          conv_lhs => rw [← List.take_append_drop (packetOctets (rtcpHeaderOf buf).length - 4) (buf.drop 4)]
          rw [List.drop_drop]
          have e2 : 4 + (packetOctets (rtcpHeaderOf buf).length - 4) = packetOctets (rtcpHeaderOf buf).length := by
            omega
          rw [e2]
          rfl
        conv_lhs => rw [this]
        simp [rtcpOctets]

/-- A framed packet takes at least four octets. -/
theorem frameRtcp_rest_lt {buf : List Octet} {h : RtcpHeader} {body rest : List Octet}
    (hf : frameRtcp buf = .ok (h, body, rest)) : rest.length + 4 ≤ buf.length := by
  have h3 := (frameRtcp_ok hf).2.2
  rw [h3]
  simp
  omega

/-- A packet that ends its buffer is framed alike in front of any other octets (R85). -/
theorem frameRtcp_append {a b : List Octet} {h : RtcpHeader} {body : List Octet}
    (hf : frameRtcp a = .ok (h, body, [])) : frameRtcp (a ++ b) = .ok (h, body, b) := by
  obtain ⟨-, hb, ha⟩ := frameRtcp_ok hf
  rw [ha, List.append_nil]
  exact frameRtcp_rtcpOctets h hb b

/-! ## The version field and the illegal words as numbers -/

theorem versionOf_iff (buf : List Octet) : versionOf buf = 2 ↔ (octetAt buf 0).toNat / 64 = 2 := by
  unfold versionOf memRead1
  have h := (octetAt buf 0).isLt
  rw [← BitVec.toNat_inj, BitVec.extractLsb'_toNat, Nat.shiftRight_eq_div_pow]
  simp
  omega

/-- The illegal command words by arithmetic on the word (R94). -/
theorem illegalWord_iff (w : U32) : illegalWord w = true ↔
    w.toNat % 256 = 0 ∨ 7 ≤ w.toNat % 256 ∨ w.toNat / 512 ≠ 0 ∨ (w.toNat / 256 % 2 = 1 ∧ w.toNat % 256 ≠ 4) := by
  have h := w.isLt
  have h1 : (opcodeOf w).toNat = w.toNat % 256 := by
    unfold opcodeOf; rw [BitVec.extractLsb'_toNat]; simp
  have h2 : (lsrvOf w).toNat = w.toNat / 256 % 2 := by
    unfold lsrvOf; rw [BitVec.extractLsb'_toNat]; simp [Nat.shiftRight_eq_div_pow]
  have h3 : (reservedOf w).toNat = w.toNat / 512 % 2 ^ 23 := by
    unfold reservedOf; rw [BitVec.extractLsb'_toNat]; simp [Nat.shiftRight_eq_div_pow]
  unfold illegalWord
  simp only [Bool.or_eq_true, decide_eq_true_eq, ne_eq, ← BitVec.toNat_inj, h1, h2, h3, BitVec.ofNat_eq_ofNat,
    BitVec.toNat_ofNat]
  norm_num
  omega

end Sys2Proof
end

