-- ==== Sys2Proof/Laws/State.lean ====
section
/-! SUPPORT. One lemma per field per update of the state, and what the shared ends of a command answer. -/

namespace Sys2Proof.Machine

variable (s : State) (r : Response) (t : Table) (p : List HostEvent) (st : Status)

@[simp] theorem State.respond_table : (s.respond r).table = s.table := rfl
@[simp] theorem State.respond_resp : (s.respond r).resp = r := rfl
@[simp] theorem State.respond_pending : (s.respond r).pending = s.pending := rfl
@[simp] theorem State.respond_params : (s.respond r).params = s.params := rfl
@[simp] theorem State.respond_fresh : (s.respond r).fresh = s.fresh := rfl
@[simp] theorem State.withTable_table : (s.withTable t).table = t := rfl
@[simp] theorem State.withTable_resp : (s.withTable t).resp = s.resp := rfl
@[simp] theorem State.withTable_pending : (s.withTable t).pending = s.pending := rfl
@[simp] theorem State.withTable_params : (s.withTable t).params = s.params := rfl
@[simp] theorem State.withTable_fresh : (s.withTable t).fresh = s.fresh := rfl
@[simp] theorem State.withPending_table : (s.withPending p).table = s.table := rfl
@[simp] theorem State.withPending_resp : (s.withPending p).resp = s.resp := rfl
@[simp] theorem State.withPending_pending : (s.withPending p).pending = p := rfl
@[simp] theorem State.withPending_params : (s.withPending p).params = s.params := rfl
@[simp] theorem State.withPending_fresh : (s.withPending p).fresh = s.fresh := rfl
@[simp] theorem State.resetSignal_table : s.resetSignal.table = [] := rfl
@[simp] theorem State.resetSignal_resp : s.resetSignal.resp = Response.unspecified s.fresh := rfl
@[simp] theorem State.resetSignal_pending : s.resetSignal.pending = s.pending := rfl
@[simp] theorem State.resetSignal_params : s.resetSignal.params = s.params := rfl
@[simp] theorem State.resetSignal_fresh : s.resetSignal.fresh = s.fresh + 1 := rfl

@[simp] theorem State.respond_respond (r' : Response) : (s.respond r).respond r' = s.respond r' := rfl

/-- A state with its own response written again is itself. -/
@[simp] theorem State.respond_self : s.respond s.resp = s := rfl

@[simp] theorem State.raise_eq : s.raise st = .next (s.respond (Response.ofStatus st)) := rfl
@[simp] theorem State.finish_eq : s.finish r = .next (s.respond r) := rfl

@[simp] theorem Response.ofStatus_status : (Response.ofStatus st).status = st.code := rfl
@[simp] theorem Response.ofStatus_cls : (Response.ofStatus st).cls = 0 := rfl
@[simp] theorem Response.ofStatus_res0 : (Response.ofStatus st).res0 = 0 := rfl
@[simp] theorem Response.ofStatus_rtp : (Response.ofStatus st).rtp = RtpPacket.zero := rfl
@[simp] theorem Response.ofStatus_pkts : (Response.ofStatus st).pkts = [] := rfl
@[simp] theorem Response.ofStatus_rb : (Response.ofStatus st).rb = ReportBlock.zero := rfl
@[simp] theorem Response.ofStatus_out : (Response.ofStatus st).out = [] := rfl
@[simp] theorem Response.ofStatus_q : (Response.ofStatus st).q = Entry.zero := rfl

/-- The code names the status. -/
theorem Status.code_injective : Function.Injective Status.code := by
  intro a b h
  cases a <;> cases b <;> first | rfl | (revert h; decide)

/-- What emitting answers, in both cases. -/
theorem State.emit_eq (e : Except Status RtcpPacket) :
    s.emit e = .next (s.respond (match e with
      | .ok q => { Response.ofStatus .ok with pkts := s.resp.pkts ++ [q] }
      | .error st => { Response.ofStatus st with pkts := s.resp.pkts })) := by
  cases e <;> rfl

/-- The host's decision after RECV_RTP changes only what it issues next. -/
theorem State.recvNext_eq (arrival : U32) : ∃ p, s.recvNext arrival = s.withPending p := by
  unfold State.recvNext
  split
  · exact ⟨_, rfl⟩
  · exact ⟨s.pending, rfl⟩

end Sys2Proof.Machine
end

