-- ==== Sys2Proof/Laws/Entry.lean ====
section
/-! SUPPORT. One entry: what the jitter step, the validator and the report snapshot do to its fields, and that they keep
R24. -/

namespace Sys2Proof.Machine

/-! ## The jitter step -/

theorem absVal_eq (v : Int) : absVal v = (v.natAbs : Int) := by
  unfold absVal
  split <;> omega

/-- The truncated step of the estimate, by the sign of the difference. -/
theorem tdiv_gain (a j : Nat) : (j : Int) + tdiv ((a : Int) - (j : Int)) Config.jitterGain =
    if j ≤ a then ((j + (a - j) / 16 : Nat) : Int) else ((j - (j - a) / 16 : Nat) : Int) := by
  unfold tdiv Config.jitterGain
  split
  · rename_i h
    have : (a : Int) - (j : Int) = ((a - j : Nat) : Int) := by omega
    rw [this]
    show _ + (((a - j) / 16 : Nat) : Int) = _
    push_cast
    rfl
  · rename_i h
    have : (a : Int) - (j : Int) = -((j - a : Nat) : Int) := by omega
    rw [this, Int.neg_tdiv]
    show _ + -(((j - a) / 16 : Nat) : Int) = _
    have := Nat.div_le_self (j - a) 16
    omega

/-- The new estimate as a number (R192): it fits its register, so nothing wraps (R194). -/
theorem smoothedJitter_toNat (j : U32) (d : Int) (h : d.natAbs ≤ 2 ^ 31) :
    (smoothedJitter j d).toNat =
      if j.toNat ≤ d.natAbs then j.toNat + (d.natAbs - j.toNat) / 16 else j.toNat - (j.toNat - d.natAbs) / 16 := by
  unfold smoothedJitter
  rw [absVal_eq, tdiv_gain]
  have hj := j.isLt
  split
  · have := Nat.div_le_self (d.natAbs - j.toNat) 16
    rw [BitVec.ofInt_natCast, BitVec.toNat_ofNat, Nat.mod_eq_of_lt (by omega)]
  · rw [BitVec.ofInt_natCast, BitVec.toNat_ofNat, Nat.mod_eq_of_lt (by omega)]

/-- The difference of two transits is at most 2^31 away from 0 (R194). -/
theorem sext_natAbs_le (v : U32) : (sext v).natAbs ≤ 2 ^ 31 := by
  unfold sext
  have h1 := BitVec.le_toInt v
  have h2 := BitVec.toInt_lt (x := v)
  simp only [Nat.add_one_sub_one] at h1 h2
  omega

@[simp] theorem jitterStep_ssrc (e : Entry) (ts a : U32) : (jitterStep e ts a).ssrc = e.ssrc := by
  unfold jitterStep; split <;> rfl
@[simp] theorem jitterStep_maxSeq (e : Entry) (ts a : U32) : (jitterStep e ts a).maxSeq = e.maxSeq := by
  unfold jitterStep; split <;> rfl
@[simp] theorem jitterStep_cycles (e : Entry) (ts a : U32) : (jitterStep e ts a).cycles = e.cycles := by
  unfold jitterStep; split <;> rfl
@[simp] theorem jitterStep_baseSeq (e : Entry) (ts a : U32) : (jitterStep e ts a).baseSeq = e.baseSeq := by
  unfold jitterStep; split <;> rfl
@[simp] theorem jitterStep_badSeq (e : Entry) (ts a : U32) : (jitterStep e ts a).badSeq = e.badSeq := by
  unfold jitterStep; split <;> rfl
@[simp] theorem jitterStep_probation (e : Entry) (ts a : U32) : (jitterStep e ts a).probation = e.probation := by
  unfold jitterStep; split <;> rfl
@[simp] theorem jitterStep_received (e : Entry) (ts a : U32) : (jitterStep e ts a).received = e.received := by
  unfold jitterStep; split <;> rfl
@[simp] theorem jitterStep_expectedPrior (e : Entry) (ts a : U32) :
    (jitterStep e ts a).expectedPrior = e.expectedPrior := by
  unfold jitterStep; split <;> rfl
@[simp] theorem jitterStep_receivedPrior (e : Entry) (ts a : U32) :
    (jitterStep e ts a).receivedPrior = e.receivedPrior := by
  unfold jitterStep; split <;> rfl
@[simp] theorem jitterStep_transitPrev (e : Entry) (ts a : U32) : (jitterStep e ts a).transitPrev = a - ts := by
  unfold jitterStep; split <;> rfl
@[simp] theorem jitterStep_transitValid (e : Entry) (ts a : U32) : (jitterStep e ts a).transitValid = 1 := by
  unfold jitterStep; split <;> rfl

/-- The estimate after the step. -/
theorem jitterStep_jitter (e : Entry) (ts a : U32) : (jitterStep e ts a).jitter =
    if e.transitValid = 1 then smoothedJitter e.jitter (sext (a - ts - e.transitPrev)) else e.jitter := by
  unfold jitterStep transitOf; split <;> rfl

/-- The step keeps the estimate at most 2^31 (R24(d)). -/
theorem jitterStep_jitter_le (e : Entry) (ts a : U32) (h : e.jitter.toNat ≤ 2 ^ 31) :
    (jitterStep e ts a).jitter.toNat ≤ 2 ^ 31 := by
  rw [jitterStep_jitter]
  split
  · have hd := sext_natAbs_le (a - ts - e.transitPrev)
    rw [smoothedJitter_toNat _ _ hd]
    split <;> omega
  · exact h

/-! ## The validator -/

@[simp] theorem initEntry_ssrc (s : U32) (q : U16) : (initEntry s q).ssrc = s := rfl

/-- The validator keeps the key of the entry. -/
@[simp] theorem validate_ssrc (e : Entry) (q : U16) : (validate e q).1.ssrc = e.ssrc := by
  unfold validate validateOnProbation validateValid
  simp only
  repeat' split
  all_goals rfl

/-- The entry RTP_RECEIVED stores keeps its key. -/
theorem stored_ssrc (r : Entry × RxClass) (ts a : U32) :
    (if r.2.accepts then jitterStep r.1 ts a else r.1).ssrc = r.1.ssrc := by
  split <;> simp

/-- R24 and R175(a), field by field. -/
theorem Entry.wf_iff (e : Entry) : e.wf = true ↔
    e.cycles.extractLsb' 0 16 = 0 ∧ e.probation.toNat ≤ 1 ∧ (e.badSeq.toNat < 65536 ∨ e.badSeq.toNat = 65537) ∧
    e.jitter.toNat ≤ 2 ^ 31 ∧ (-65534 ≤ e.expectedPrior.toInt ∧ e.expectedPrior.toInt ≤ 2 ^ 32) ∧
    e.transitValid = 1 ∧ (e.onProbation = true → e.cycles = 0) := by
  unfold Entry.wf
  simp only [Bool.and_eq_true, decide_eq_true_eq, and_assoc]
  exact Iff.rfl

/-- R24 but for (f), which holds once the jitter step of the creating command has run. -/
theorem wf_jitterStep {e : Entry} (ts a : U32) (h1 : e.cycles.extractLsb' 0 16 = 0) (h2 : e.probation.toNat ≤ 1)
    (h3 : e.badSeq.toNat < 65536 ∨ e.badSeq.toNat = 65537) (h4 : e.jitter.toNat ≤ 2 ^ 31)
    (h5 : -65534 ≤ e.expectedPrior.toInt ∧ e.expectedPrior.toInt ≤ 2 ^ 32)
    (h7 : e.onProbation = true → e.cycles = 0) : (jitterStep e ts a).wf = true := by
  rw [Entry.wf_iff]
  refine ⟨by simpa, by simpa, by simpa, jitterStep_jitter_le e ts a h4, by simpa, by simp, ?_⟩
  simpa [Entry.onProbation] using h7

/-- A created or restarted entry is well-formed after its jitter step. -/
theorem wf_initEntry (s : U32) (q : U16) (ts a : U32) : (jitterStep (initEntry s q) ts a).wf = true :=
  wf_jitterStep ts a rfl (show probationArmed.toNat ≤ 1 by decide)
    (show (65537#17).toNat < 65536 ∨ (65537#17).toNat = 65537 by decide) (show (0#32).toNat ≤ 2 ^ 31 by decide)
    (show -65534 ≤ (0#64).toInt ∧ (0#64).toInt ≤ 2 ^ 32 by decide) (fun _ => rfl)

/-- Adding a wrap keeps the low half of `cycles` at 0. -/
theorem cycles_low_add {c : U32} (h : c.extractLsb' 0 16 = 0) :
    (c + BitVec.ofNat 32 65536).extractLsb' 0 16 = 0 := by
  have h' : c.toNat % 65536 = 0 := by
    have := congrArg BitVec.toNat h
    simpa [BitVec.extractLsb'_toNat] using this
  apply BitVec.eq_of_toNat_eq
  simp [BitVec.extractLsb'_toNat, BitVec.toNat_add]
  omega

/-- Every branch of the validator keeps R24 of what it stores. -/
theorem wf_stored {e : Entry} (h : e.wf = true) (q : U16) (ts a : U32) :
    (if (validate e q).2.accepts then jitterStep (validate e q).1 ts a else (validate e q).1).wf = true := by
  have h' := (Entry.wf_iff e).mp h
  obtain ⟨h1, h2, h3, h4, h5, h6, h7⟩ := h'
  unfold validate
  split
  · rename_i hp
    unfold validateOnProbation
    split
    · have hc := h7 hp
      refine wf_jitterStep ts a ?_ ?_ h3 h4 h5 ?_
      · show e.cycles.extractLsb' 0 16 = 0
        exact h1
      · show (e.probation - 1).toNat ≤ 1
        have : e.probation ≠ 0 := by simpa [Entry.onProbation] using hp
        have h0 : e.probation.toNat ≠ 0 := fun hh => this (BitVec.eq_of_toNat_eq hh)
        rw [BitVec.toNat_sub]
        simp
        omega
      · intro _
        exact hc
    · have hc := h7 hp
      show Entry.wf _ = true
      rw [Entry.wf_iff]
      exact ⟨h1, show probationArmed.toNat ≤ 1 by decide, h3, h4, h5, h6, fun _ => hc⟩
  · rename_i hp
    unfold validateValid
    simp only
    split
    · refine wf_jitterStep ts a ?_ h2 h3 h4 h5 ?_
      · show (cyclesAfter e q).extractLsb' 0 16 = 0
        unfold cyclesAfter
        split
        · exact cycles_low_add h1
        · exact h1
      · intro hq
        exact absurd hq hp
    · split
      · split
        · exact wf_initEntry e.ssrc q ts a
        · show Entry.wf _ = true
          rw [Entry.wf_iff]
          refine ⟨h1, h2, Or.inl ?_, h4, h5, h6, h7⟩
          show ((q + 1).setWidth 17).toNat < 65536
          have := (q + 1).isLt
          rw [BitVec.toNat_setWidth]
          omega
      · show Entry.wf _ = true
        rw [Entry.wf_iff]
        exact ⟨h1, h2, h3, h4, h5, h6, h7⟩

/-! ## The report snapshot -/

/-- The bounds of `expected` (R202). -/
theorem expectedOf_bounds (e : Entry) : -65534 ≤ expectedOf e ∧ expectedOf e ≤ 2 ^ 32 := by
  unfold expectedOf
  have h1 := e.extMax.isLt
  have h2 := e.baseSeq.isLt
  omega

/-- The snapshot holds `expected` exactly (R208). -/
theorem snapshot_expectedPrior (e : Entry) : e.snapshot.expectedPrior.toInt = expectedOf e := by
  have h := expectedOf_bounds e
  show (BitVec.ofInt 64 (expectedOf e)).toInt = _
  rw [BitVec.toInt_ofInt_eq_self (by decide)] <;> norm_num <;> omega

@[simp] theorem snapshot_ssrc (e : Entry) : e.snapshot.ssrc = e.ssrc := rfl

/-- The snapshot keeps R24. -/
theorem wf_snapshot {e : Entry} (h : e.wf = true) : e.snapshot.wf = true := by
  obtain ⟨h1, h2, h3, h4, -, h6, h7⟩ := (Entry.wf_iff e).mp h
  rw [Entry.wf_iff, snapshot_expectedPrior]
  exact ⟨h1, h2, h3, h4, expectedOf_bounds e, h6, h7⟩

end Sys2Proof.Machine
end

