-- ==== Sys2Proof/Laws/Exec.lean ====
section
/-! SUPPORT. What each meaning can answer, said once: the decode rows by one body decoder, the compound loop by one
function of the buffer, and every instruction as a table and a response. -/

namespace Sys2Proof.Machine

/-! ## One RTCP packet -/

/-- The body decoder a header names (R125). -/
def bodyDecoder (h : RtcpHeader) : List Octet → Nat → Except Status RtcpBody :=
  if h.pt = 200 then decodeSr h.count
  else if h.pt = 201 then decodeRr h.count
  else if h.pt = 202 then decodeSdes h.count
  else if h.pt = 203 then decodeBye h.count
  else if h.pt = 204 then decodeApp h.count
  else decodeOther

/-- DecodeOne after framing, for every packet type (R122). -/
def decodeOne (h : RtcpHeader) (body : List Octet) : Except Status RtcpPacket := decodePacket h body (bodyDecoder h)

/-- Dispatch runs the wire row the decoder names. -/
theorem runRtcp_eq_exec (h : RtcpHeader) (body : List Octet) (s : State) : runRtcp h body s = exec (h.instr body) s := by
  unfold runRtcp RtcpHeader.instr
  repeat' split
  all_goals rfl

/-- Dispatch emits the decoded packet. -/
theorem runRtcp_eq_emit (h : RtcpHeader) (body : List Octet) (s : State) :
    runRtcp h body s = s.emit (decodeOne h body) := by
  obtain ⟨p, c, pt, l⟩ := h
  unfold runRtcp decodeOne bodyDecoder
  by_cases h1 : pt = 200
  · subst h1; rfl
  by_cases h2 : pt = 201
  · subst h2; rfl
  by_cases h3 : pt = 202
  · subst h3; rfl
  by_cases h4 : pt = 203
  · subst h4; rfl
  by_cases h5 : pt = 204
  · subst h5; rfl
  simp only [h1, h2, h3, h4, h5, if_false]
  rfl

/-- Every error of an SDES item loop is LENGTH_MISMATCH. -/
theorem decodeItems_error {pkt : List Octet} {stop fuel p : Nat} {items : List SdesItem} {st : Status}
    (h : decodeItems pkt stop fuel p items = .error st) : st = .lengthMismatch := by
  induction fuel generalizing p items with
  | zero => cases h; rfl
  | succ fuel ih =>
    unfold decodeItems at h
    split at h
    · cases h
    · split at h
      · unfold endItem at h
        simp only at h
        split at h <;> rename_i he <;> cases h
        split at he <;> cases he
        rfl
      · split at h
        · rename_i he
          cases h
          unfold decodeItem at he
          split at he
          · cases he; rfl
          · simp only at he
            split at he <;> cases he
            rfl
        · exact ih h

theorem decodeChunks_error {pkt : List Octet} {stop n p : Nat} {st : Status}
    (h : decodeChunks pkt stop n p = .error st) : st = .lengthMismatch := by
  induction n generalizing p with
  | zero => cases h
  | succ n ih =>
    unfold decodeChunks at h
    split at h
    · rename_i he
      cases h
      unfold decodeChunk at he
      split at he
      · cases he; rfl
      · split at he
        · rename_i hi
          cases he
          exact decodeItems_error hi
        · cases he
    · split at h
      · rename_i he
        cases h
        exact ih he
      · cases h

/-- Every error of a body decoder is LENGTH_MISMATCH (R126 to R138). -/
theorem bodyDecoder_error {h : RtcpHeader} {pkt : List Octet} {c : Nat} {st : Status}
    (he : bodyDecoder h pkt c = .error st) : st = .lengthMismatch := by
  unfold bodyDecoder at he
  split at he
  · unfold decodeSr at he
    split at he <;> cases he
    rfl
  split at he
  · unfold decodeRr at he
    split at he <;> cases he
    rfl
  split at he
  · unfold decodeSdes at he
    split at he
    · rename_i hc
      cases he
      exact decodeChunks_error hc
    · split at he <;> cases he
      rfl
  split at he
  · unfold decodeBye at he
    split at he
    · cases he; rfl
    · simp only at he
      split at he
      · rename_i hr
        cases he
        unfold decodeReason at hr
        split at hr
        · cases hr
        · simp only at hr
          split at hr <;> cases hr
          rfl
      · cases he
  split at he
  · cases he
  · cases he

/-- Every error after framing is LENGTH_MISMATCH (R122). -/
theorem decodeOne_error {h : RtcpHeader} {body : List Octet} {st : Status} (he : decodeOne h body = .error st) :
    st = .lengthMismatch := by
  unfold decodeOne decodePacket at he
  simp only at he
  split at he
  · cases he; rfl
  · split at he
    · rename_i hp
      cases he
      unfold paddingOf at hp
      split at hp
      · cases hp
      · simp only at hp
        split at hp <;> cases hp
        rfl
    · split at he
      · rename_i hb
        cases he
        exact bodyDecoder_error hb
      · cases he

/-! ## The compound buffer -/

/-- The status and the packets of a compound buffer (R123), as a function of the buffer. -/
def compound : Nat → List Octet → Status × List RtcpPacket
  | _, [] => (.ok, [])
  | 0, _ :: _ => (.lengthMismatch, [])
  | fuel + 1, o :: buf =>
    match frameRtcp (o :: buf) with
    | .error st => (st, [])
    | .ok (h, body, rest) =>
      match decodeOne h body with
      | .error st => (st, [])
      | .ok p => ((compound fuel rest).1, p :: (compound fuel rest).2)

/-- The response of DECODE_RTCP with the packets decoded so far. -/
def rtcpResponse (st : Status) (ps : List RtcpPacket) : Response := { Response.ofStatus st with pkts := ps }

/-- The loop answers what the buffer holds, behind the packets decoded before. -/
theorem rtcpLoop_eq (fuel : Nat) (buf : List Octet) (s : State) (ps : List RtcpPacket) :
    rtcpLoop fuel buf (s.respond (rtcpResponse .ok ps)) =
      .next (s.respond (rtcpResponse (compound fuel buf).1 (ps ++ (compound fuel buf).2))) := by
  induction fuel generalizing buf ps with
  | zero =>
    cases buf with
    | nil => simp [rtcpLoop, compound]
    | cons o buf => simp [rtcpLoop, compound, State.emit, rtcpResponse]
  | succ fuel ih =>
    cases buf with
    | nil => simp [rtcpLoop, compound]
    | cons o buf =>
      unfold rtcpLoop compound
      cases hf : frameRtcp (o :: buf) with
      | error st => simp [State.emit, rtcpResponse]
      | ok r =>
        obtain ⟨h, body, rest⟩ := r
        simp only [runRtcp_eq_emit]
        cases hd : decodeOne h body with
        | error st =>
          rw [decodeOne_error hd]
          simp [State.emit, rtcpResponse, Status.code]
        | ok p =>
          have hih := ih rest (ps ++ [p])
          simp only [State.emit, State.finish_eq, State.respond_respond, State.respond_resp, Response.ofStatus_status,
            if_true]
          simp only [rtcpResponse, List.append_assoc, List.singleton_append] at hih ⊢
          exact hih

/-- More fuel than octets changes nothing (R268). -/
theorem compound_fuel {fuel : Nat} {buf : List Octet} (h : buf.length ≤ fuel) :
    compound fuel buf = compound buf.length buf := by
  have key : ∀ n, ∀ buf : List Octet, buf.length ≤ n → ∀ f, buf.length ≤ f → compound f buf = compound n buf := by
    intro n
    induction n with
    | zero =>
      intro buf hb f _
      have : buf = [] := List.length_eq_zero_iff.mp (by omega)
      subst this
      cases f <;> rfl
    | succ n ih =>
      intro buf hb f hf
      cases buf with
      | nil => cases f <;> rfl
      | cons o buf =>
        cases f with
        | zero => simp at hf
        | succ f =>
          unfold compound
          cases hfr : frameRtcp (o :: buf) with
          | error st => rfl
          | ok r =>
            obtain ⟨h, body, rest⟩ := r
            have hl := frameRtcp_rest_lt hfr
            simp only [List.length_cons] at hl hb hf
            have : compound f rest = compound n rest := ih rest (by omega) f (by omega)
            simp only [this]
  exact key buf.length buf le_rfl fuel h

/-- What a compound buffer with at least one octet holds: its first packet, then the rest (R85, R123). -/
theorem compound_cons {buf : List Octet} (hne : buf ≠ []) : compound buf.length buf =
    match frameRtcp buf with
    | .error st => (st, [])
    | .ok (h, body, rest) =>
      match decodeOne h body with
      | .error st => (st, [])
      | .ok p => ((compound rest.length rest).1, p :: (compound rest.length rest).2) := by
  cases buf with
  | nil => exact absurd rfl hne
  | cons o buf =>
    show compound (buf.length + 1) (o :: buf) = _
    conv_lhs => unfold compound
    cases hf : frameRtcp (o :: buf) with
    | error st => rfl
    | ok r =>
      obtain ⟨h, body, rest⟩ := r
      have hl := frameRtcp_rest_lt hf
      simp only [List.length_cons] at hl
      have : compound buf.length rest = compound rest.length rest := compound_fuel (by omega)
      simp only [this]

/-- DECODE_RTCP on a buffer the block accepts (R123). -/
theorem execDecodeRtcp_eq {buf : List Octet} {s : State} (h1 : buf.length ≤ s.params.maxBufOctets)
    (h2 : 4 ≤ buf.length) : execDecodeRtcp buf s =
      .next (s.respond (rtcpResponse (compound buf.length buf).1 (compound buf.length buf).2)) := by
  unfold execDecodeRtcp
  rw [if_neg (by omega), if_neg (by omega)]
  exact rtcpLoop_eq buf.length buf s []

/-! ## Every instruction -/

/-- What one instruction answers: always a next state, in which only the table and the response may differ. The table is
the old one unless STATUS is OK or REJECTED (R233). -/
theorem exec_answers (i : Instr) (s : State) : ∃ (t : Table) (r : Response),
    exec i s = .next ((s.withTable t).respond r) ∧
      (t = s.table ∨ r.status = Status.ok.code ∨ r.status = Status.rejected.code) := by
  have same : ∀ r, (Host.Outcome.next (s.respond r) : Outcome) = .next ((s.withTable s.table).respond r) := fun _ => rfl
  have emit : ∀ e, ∃ (t : Table) (r : Response), s.emit e = .next ((s.withTable t).respond r) ∧
      (t = s.table ∨ r.status = Status.ok.code ∨ r.status = Status.rejected.code) := fun e =>
    ⟨s.table, _, (State.emit_eq s e).trans (same _), Or.inl rfl⟩
  have rtp : ∀ e, ∃ (t : Table) (r : Response), s.finishRtp e = .next ((s.withTable t).respond r) ∧
      (t = s.table ∨ r.status = Status.ok.code ∨ r.status = Status.rejected.code) := by
    intro e
    cases e with
    | ok p => exact ⟨s.table, _, same _, Or.inl rfl⟩
    | error st => exact ⟨s.table, _, same _, Or.inl rfl⟩
  cases i with
  | decodeRtp buf =>
    show ∃ t r, execDecodeRtp buf s = _ ∧ _
    unfold execDecodeRtp
    split
    · exact ⟨s.table, _, same _, Or.inl rfl⟩
    · split
      · exact ⟨s.table, _, same _, Or.inl rfl⟩
      · exact rtp _
  | decodeRtcp buf =>
    show ∃ t r, execDecodeRtcp buf s = _ ∧ _
    by_cases h1 : s.params.maxBufOctets < buf.length
    · unfold execDecodeRtcp
      rw [if_pos h1]
      exact ⟨s.table, _, same _, Or.inl rfl⟩
    · by_cases h2 : buf.length < 4
      · unfold execDecodeRtcp
        rw [if_neg h1, if_pos h2]
        exact ⟨s.table, _, same _, Or.inl rfl⟩
      · exact ⟨s.table, _, execDecodeRtcp_eq (by omega) (by omega), Or.inl rfl⟩
  | rtpReceived ssrc seq ts a =>
    have fin : ∀ r, ∃ (t : Table) (r' : Response),
        finishReceived s r seq ts a = .next ((s.withTable t).respond r') ∧
          (t = s.table ∨ r'.status = Status.ok.code ∨ r'.status = Status.rejected.code) := by
      intro r
      refine ⟨_, _, rfl, Or.inr ?_⟩
      unfold rxResponse
      split
      · exact Or.inl rfl
      · exact Or.inr rfl
    show ∃ t r, execRtpReceived ssrc seq ts a s = _ ∧ _
    unfold execRtpReceived
    split
    · split
      · exact ⟨s.table, _, same _, Or.inl rfl⟩
      · exact fin _
    · exact fin _
  | buildReport ssrc supplied =>
    show ∃ t r, execBuildReport ssrc supplied s = _ ∧ _
    unfold execBuildReport
    split
    · exact ⟨s.table, _, same _, Or.inl rfl⟩
    · exact ⟨_, _, rfl, Or.inr (Or.inl rfl)⟩
  | removeSource ssrc =>
    show ∃ t r, execRemoveSource ssrc s = _ ∧ _
    unfold execRemoveSource
    split
    · exact ⟨s.table, _, same _, Or.inl rfl⟩
    · exact ⟨_, _, rfl, Or.inr (Or.inl rfl)⟩
  | querySource ssrc =>
    show ∃ t r, execQuerySource ssrc s = _ ∧ _
    unfold execQuerySource
    split
    · exact ⟨s.table, _, same _, Or.inl rfl⟩
    · exact ⟨s.table, _, same _, Or.inl rfl⟩
  | illegal cmd => exact ⟨s.table, _, same _, Or.inl rfl⟩
  | rtpData p x cc m pt seq rest => exact rtp _
  | rtcpSr p c l body => exact emit _
  | rtcpRr p c l body => exact emit _
  | rtcpSdes p c l body => exact emit _
  | rtcpBye p c l body => exact emit _
  | rtcpApp p c l body => exact emit _
  | rtcpOther pt p c l body => exact emit _

/-- The first command of RECV_RTP is DECODE_RTP (R99). -/
theorem decodeCommand_recvFirst (buf : List Octet) : decodeCommand (recvFirst buf) = .decodeRtp buf := by
  have h1 : ¬ illegalWord 0x00000001 = true := by decide
  have h2 : opcodeOf 0x00000001 = 1 := by decide
  unfold decodeCommand recvFirst bufferCommand
  rw [if_neg h1, if_pos h2]

/-- What one step answers: always a next state. -/
theorem step_cases (s : State) :
    (s.pending = [] ∧ step s = .next s) ∨
    (∃ c rest, s.pending = .command c :: rest ∧ step s = exec (decodeCommand c) (s.withPending rest)) ∨
    (∃ rest, s.pending = .reset :: rest ∧ step s = .next (s.withPending rest).resetSignal) ∨
    (∃ buf arrival rest t, s.pending = .recvRtp buf arrival :: rest ∧
      exec (.decodeRtp buf) (s.withPending rest) = .next t ∧ step s = .next (t.recvNext arrival)) := by
  unfold step
  split
  · exact Or.inl ⟨‹_›, rfl⟩
  · exact Or.inr (Or.inl ⟨_, _, ‹_›, rfl⟩)
  · exact Or.inr (Or.inr (Or.inl ⟨_, ‹_›, rfl⟩))
  · rename_i buf arrival rest hp
    obtain ⟨t, r, he, -⟩ := exec_answers (.decodeRtp buf) (s.withPending rest)
    exact Or.inr (Or.inr (Or.inr ⟨buf, arrival, rest, _, hp, he, by
      show afterDecode arrival (exec (decodeCommand (recvFirst buf)) (s.withPending rest)) = _
      rw [decodeCommand_recvFirst, he]; rfl⟩))

end Sys2Proof.Machine
end

