-- ==== Sys2Proof/Laws/Memory.lean ====
section
/-! SUPPORT. Octet storage: a read after a write, and that every write keeps the canonical form. -/

namespace Sys2Proof.Machine

@[simp] theorem Memory.read_nil (a : Nat) : Memory.read [] a = 0 := rfl

theorem Memory.read_cons (b : Nat) (v : Octet) (m : Memory) (a : Nat) :
    Memory.read ((b, v) :: m) a = if a = b then v else Memory.read m a := rfl

/-- Nothing is listed below the bound of a canonical memory. -/
theorem Memory.read_below {lo : Nat} {m : Memory} (h : Memory.wfFrom lo m = true) {a : Nat} (ha : a < lo) :
    Memory.read m a = 0 := by
  induction m generalizing lo with
  | nil => rfl
  | cons c m ih =>
    obtain ⟨b, v⟩ := c
    simp only [Memory.wfFrom, Bool.and_eq_true, decide_eq_true_eq] at h
    rw [Memory.read_cons, if_neg (by omega)]
    exact ih h.2 (by omega)

theorem Memory.wfFrom_mono {lo lo' : Nat} {m : Memory} (h : Memory.wfFrom lo m = true) (hl : lo' ≤ lo) :
    Memory.wfFrom lo' m = true := by
  cases m with
  | nil => rfl
  | cons c m =>
    obtain ⟨b, v⟩ := c
    simp only [Memory.wfFrom, Bool.and_eq_true, decide_eq_true_eq] at h ⊢
    exact ⟨⟨by omega, h.1.2⟩, h.2⟩

theorem Memory.wfFrom_cons {a lo : Nat} {v : Octet} {m : Memory} (h : Memory.wfFrom (a + 1) m = true) (hl : lo ≤ a) :
    Memory.wfFrom lo (Memory.cons a v m) = true := by
  unfold Memory.cons
  split
  · exact Memory.wfFrom_mono h (by omega)
  · simp_all [Memory.wfFrom]

/-- A write keeps the canonical form. -/
theorem Memory.wfFrom_write {lo : Nat} {m : Memory} (h : Memory.wfFrom lo m = true) {a : Nat} (ha : lo ≤ a)
    (v : Octet) : Memory.wfFrom lo (Memory.write m a v) = true := by
  induction m generalizing lo with
  | nil => exact Memory.wfFrom_cons rfl ha
  | cons c m ih =>
    obtain ⟨b, w⟩ := c
    have h' := h
    simp only [Memory.wfFrom, Bool.and_eq_true, decide_eq_true_eq] at h
    unfold Memory.write
    split
    · refine Memory.wfFrom_cons ?_ ha
      simp only [Memory.wfFrom, Bool.and_eq_true, decide_eq_true_eq]
      exact ⟨⟨by omega, h.1.2⟩, h.2⟩
    · split
      · exact Memory.wfFrom_cons (by subst_vars; exact h.2) ha
      · simp only [Memory.wfFrom, Bool.and_eq_true, decide_eq_true_eq]
        exact ⟨h.1, ih h.2 (by omega)⟩

/-- A write keeps the canonical form. -/
theorem Memory.wf_write {m : Memory} (h : m.wf = true) (a : Nat) (v : Octet) : (m.write a v).wf = true :=
  Memory.wfFrom_write h (Nat.zero_le a) v

theorem Memory.wf_writeOctets {m : Memory} (h : m.wf = true) (a : Nat) (vs : List Octet) :
    (m.writeOctets a vs).wf = true := by
  induction vs generalizing m a with
  | nil => exact h
  | cons v vs ih => exact ih (Memory.wf_write h a v) (a + 1)

theorem Memory.wf_empty : Memory.empty.wf = true := rfl

theorem Memory.within_cons_iff {n : Nat} {c : Host.Cell} {m : Memory} :
    Memory.within n (c :: m) = true ↔ c.1 < n ∧ Memory.within n m = true := by
  simp only [Memory.within, List.all_cons, Bool.and_eq_true, decide_eq_true_eq]

theorem Memory.within_cons {n a : Nat} {v : Octet} {m : Memory} (h : Memory.within n m = true) (ha : a < n) :
    Memory.within n (Memory.cons a v m) = true := by
  unfold Memory.cons
  split
  · exact h
  · exact Memory.within_cons_iff.mpr ⟨ha, h⟩

theorem Memory.within_write {n : Nat} {m : Memory} (h : Memory.within n m = true) {a : Nat} (ha : a < n) (v : Octet) :
    Memory.within n (m.write a v) = true := by
  induction m with
  | nil => exact Memory.within_cons rfl ha
  | cons c m ih =>
    obtain ⟨b, w⟩ := c
    have h' := Memory.within_cons_iff.mp h
    unfold Memory.write
    split
    · exact Memory.within_cons h ha
    · split
      · exact Memory.within_cons h'.2 ha
      · exact Memory.within_cons_iff.mpr ⟨h'.1, ih h'.2⟩

theorem Memory.within_writeOctets {n : Nat} {m : Memory} (h : Memory.within n m = true) {a : Nat} {vs : List Octet}
    (ha : a + vs.length ≤ n) : Memory.within n (m.writeOctets a vs) = true := by
  induction vs generalizing m a with
  | nil => exact h
  | cons v vs ih =>
    simp only [List.length_cons] at ha
    exact ih (Memory.within_write h (by omega) v) (by omega)

/-- A read after a write. -/
theorem Memory.read_write {m : Memory} (h : m.wf = true) (a : Nat) (v : Octet) (b : Nat) :
    (m.write a v).read b = if b = a then v else m.read b := by
  have key : ∀ (lo : Nat) (m : Memory), Memory.wfFrom lo m = true →
      Memory.read (Memory.write m a v) b = if b = a then v else Memory.read m b := by
    intro lo m
    induction m generalizing lo with
    | nil =>
      intro _
      unfold Memory.write Memory.cons
      split <;> simp_all [Memory.read, Memory.unlisted]
    | cons c m ih =>
      obtain ⟨d, w⟩ := c
      intro hw
      have hw' := hw
      simp only [Memory.wfFrom, Bool.and_eq_true, decide_eq_true_eq] at hw
      unfold Memory.write
      split
      · rename_i hlt
        unfold Memory.cons
        split
        · split
          · subst_vars
            have : Memory.wfFrom (b + 1) ((d, w) :: m) = true := by
              simp only [Memory.wfFrom, Bool.and_eq_true, decide_eq_true_eq]
              exact ⟨⟨by omega, hw.1.2⟩, hw.2⟩
            rw [Memory.read_below this (by omega)]
            rfl
          · rfl
        · rw [Memory.read_cons]
      · split
        · rename_i heq
          subst heq
          unfold Memory.cons
          split
          · split
            · subst_vars
              rw [Memory.read_below hw.2 (by omega)]
              rfl
            · rw [Memory.read_cons, if_neg (by assumption)]
          · rw [Memory.read_cons, Memory.read_cons]
            split <;> rfl
        · rw [Memory.read_cons, Memory.read_cons, ih _ hw.2]
          split
          · rename_i h1
            subst h1
            rw [if_neg (by omega)]
          · rfl
  exact key 0 m h

/-- A read after a list of writes. -/
theorem Memory.read_writeOctets {m : Memory} (h : m.wf = true) (a : Nat) (vs : List Octet) (b : Nat) :
    (m.writeOctets a vs).read b = if a ≤ b ∧ b < a + vs.length then (vs[b - a]?).getD 0 else m.read b := by
  induction vs generalizing m a with
  | nil => simp [Memory.writeOctets]
  | cons v vs ih =>
    rw [Memory.writeOctets, ih (Memory.wf_write h a v), Memory.read_write h]
    by_cases hb : b = a
    · subst hb
      simp
    · by_cases hc : a + 1 ≤ b ∧ b < a + 1 + vs.length
      · obtain ⟨k, rfl⟩ : ∃ k, b = a + 1 + k := ⟨b - (a + 1), by omega⟩
        rw [if_pos hc, if_pos (by simp only [List.length_cons]; omega)]
        have e1 : a + 1 + k - (a + 1) = k := by omega
        have e2 : a + 1 + k - a = k + 1 := by omega
        rw [e1, e2]
        rfl
      · rw [if_neg hc, if_neg hb, if_neg (by simp only [List.length_cons]; omega)]

end Sys2Proof.Machine
end

