-- ==== Sys2Proof/Laws/PerInstr.lean ====
section
/-! SUPPORT. A statement about every instruction as syntax: the first word of its encoding matches its row of
spec/opcode_table.json. -/

namespace Sys2Proof.Laws.TableMatch

open Sys2Proof Sys2Proof.Machine

/-- The word the opcode table speaks of: CMD, or the first word of a wire packet, big-endian. -/
def firstWord : Words → U32
  | .command c => c.cmd
  | .rtp buf => memRead4 buf 0
  | .rtcp buf => memRead4 buf 0

/-- The `mask` of the instruction's row. -/
def rowMask : Instr → U32
  | .decodeRtp _ => 0xFFFFFFFF
  | .decodeRtcp _ => 0xFFFFFFFF
  | .rtpReceived _ _ _ _ => 0xFFFFFFFF
  | .buildReport _ _ => 0xFFFFFEFF
  | .removeSource _ => 0xFFFFFFFF
  | .querySource _ => 0xFFFFFFFF
  | .illegal _ => 0x00000000
  | .rtpData _ _ _ _ _ _ _ => 0xC0000000
  | .rtcpSr _ _ _ _ => 0xC0FF0000
  | .rtcpRr _ _ _ _ => 0xC0FF0000
  | .rtcpSdes _ _ _ _ => 0xC0FF0000
  | .rtcpBye _ _ _ _ => 0xC0FF0000
  | .rtcpApp _ _ _ _ => 0xC0FF0000
  | .rtcpOther _ _ _ _ _ => 0xC0000000

/-- The `match` of the instruction's row. -/
def rowMatch : Instr → U32
  | .decodeRtp _ => 0x00000001
  | .decodeRtcp _ => 0x00000002
  | .rtpReceived _ _ _ _ => 0x00000003
  | .buildReport _ _ => 0x00000004
  | .removeSource _ => 0x00000005
  | .querySource _ => 0x00000006
  | .illegal _ => 0x00000000
  | .rtpData _ _ _ _ _ _ _ => 0x80000000
  | .rtcpSr _ _ _ _ => 0x80C80000
  | .rtcpRr _ _ _ _ => 0x80C90000
  | .rtcpSdes _ _ _ _ => 0x80CA0000
  | .rtcpBye _ _ _ _ => 0x80CB0000
  | .rtcpApp _ _ _ _ => 0x80CC0000
  | .rtcpOther _ _ _ _ _ => 0x80000000

/-- The first word of a well-formed instruction's encoding matches its row. -/
def Statement (i : Instr) : Prop := i.wellFormed = true → firstWord (encode i) &&& rowMask i = rowMatch i

/-- A mask acts octet by octet. -/
theorem and_octets (a b c d a' b' c' d' : Octet) :
    ((a ++ b ++ c ++ d : BitVec (8 + 8 + 8 + 8)) &&& (a' ++ b' ++ c' ++ d')) =
      (a &&& a') ++ (b &&& b') ++ (c &&& c') ++ (d &&& d') := by
  rw [BitVec.and_append, BitVec.and_append, BitVec.and_append]

theorem rtp_version : ∀ (p x : BitVec 1) (cc : BitVec 4), (2#2 ++ p ++ x ++ cc : BitVec 8) &&& 0xC0#8 = 0x80#8 := by
  decide

theorem rtcp_version : ∀ (p : BitVec 1) (count : BitVec 5), (2#2 ++ p ++ count : BitVec 8) &&& 0xC0#8 = 0x80#8 := by
  decide

theorem and_zero_octet (a : Octet) : a &&& 0#8 = 0#8 := BitVec.and_zero

/-- The masked word of an RTP packet. -/
theorem rtp_word (w : RtpWord) (rest : List Octet) :
    memRead4 (rtpOctets w rest) 0 &&& 0xC0000000 = 0x80000000 := by
  have h := and_octets (2#2 ++ w.padding ++ w.extension ++ w.cc : BitVec 8) (w.marker ++ w.pt : BitVec 8)
    (w.seq.extractLsb' 8 8) (w.seq.extractLsb' 0 8) 0xC0#8 0#8 0#8 0#8
  rw [show ((2#2 ++ w.padding ++ w.extension ++ w.cc : BitVec 8) &&& 0xC0#8) = 0x80#8 from rtp_version _ _ _] at h
  simp only [and_zero_octet] at h
  exact h

/-- The masked words of an RTCP packet. -/
theorem rtcp_word (h : RtcpHeader) (body : List Octet) :
    memRead4 (rtcpOctets h body) 0 &&& 0xC0000000 = 0x80000000 := by
  have e := and_octets (2#2 ++ h.padding ++ h.count : BitVec 8) h.pt
    (h.length.extractLsb' 8 8) (h.length.extractLsb' 0 8) 0xC0#8 0#8 0#8 0#8
  rw [show ((2#2 ++ h.padding ++ h.count : BitVec 8) &&& 0xC0#8) = 0x80#8 from rtcp_version _ _] at e
  simp only [and_zero_octet] at e
  exact e

theorem rtcp_word_pt (h : RtcpHeader) (body : List Octet) :
    memRead4 (rtcpOctets h body) 0 &&& 0xC0FF0000 = (0x80#8 ++ h.pt ++ 0#8 ++ 0#8 : BitVec (8 + 8 + 8 + 8)) := by
  have e := and_octets (2#2 ++ h.padding ++ h.count : BitVec 8) h.pt
    (h.length.extractLsb' 8 8) (h.length.extractLsb' 0 8) 0xC0#8 0xFF#8 0#8 0#8
  rw [show ((2#2 ++ h.padding ++ h.count : BitVec 8) &&& 0xC0#8) = 0x80#8 from rtcp_version _ _,
    show h.pt &&& 0xFF#8 = h.pt from BitVec.and_allOnes] at e
  simp only [and_zero_octet] at e
  exact e

/-- The masked word of an RTCP packet whose type has a row of its own. -/
theorem rtcp_named {h : RtcpHeader} {body : List Octet} {v : U32}
    (hv : (0x80#8 ++ h.pt ++ 0#8 ++ 0#8 : BitVec (8 + 8 + 8 + 8)) = v) :
    memRead4 (rtcpOctets h body) 0 &&& 0xC0FF0000 = v := (rtcp_word_pt h body).trans hv

theorem decodeRtp (buf : List Octet) : Statement (.decodeRtp buf) :=
  fun _ => (by decide : (0x00000001#32 &&& 0xFFFFFFFF#32) = 0x00000001#32)
theorem decodeRtcp (buf : List Octet) : Statement (.decodeRtcp buf) :=
  fun _ => (by decide : (0x00000002#32 &&& 0xFFFFFFFF#32) = 0x00000002#32)
theorem rtpReceived (ssrc : U32) (seq : U16) (rtpTs arrival : U32) : Statement (.rtpReceived ssrc seq rtpTs arrival) :=
  fun _ => (by decide : (0x00000003#32 &&& 0xFFFFFFFF#32) = 0x00000003#32)
theorem buildReport (ssrc : U32) (supplied : Option (U32 × U32)) : Statement (.buildReport ssrc supplied) := by
  intro _
  cases supplied with
  | none => exact (by decide : (0x00000004#32 &&& 0xFFFFFEFF#32) = 0x00000004#32)
  | some p => exact (by decide : (0x00000104#32 &&& 0xFFFFFEFF#32) = 0x00000004#32)
theorem removeSource (ssrc : U32) : Statement (.removeSource ssrc) :=
  fun _ => (by decide : (0x00000005#32 &&& 0xFFFFFFFF#32) = 0x00000005#32)
theorem querySource (ssrc : U32) : Statement (.querySource ssrc) :=
  fun _ => (by decide : (0x00000006#32 &&& 0xFFFFFFFF#32) = 0x00000006#32)
theorem illegal (cmd : U32) : Statement (.illegal cmd) := fun _ => BitVec.and_zero
theorem rtpData (padding extension : BitVec 1) (cc : BitVec 4) (marker : BitVec 1) (pt : BitVec 7) (seq : U16)
    (rest : List Octet) : Statement (.rtpData padding extension cc marker pt seq rest) := fun _ => rtp_word _ _
theorem rtcpSr (padding : BitVec 1) (count : BitVec 5) (length : U16) (body : List Octet) :
    Statement (.rtcpSr padding count length body) := fun _ =>
  rtcp_named (by decide : (0x80#8 ++ 0xC8#8 ++ 0#8 ++ 0#8 : BitVec (8 + 8 + 8 + 8)) = 0x80C80000#32)
theorem rtcpRr (padding : BitVec 1) (count : BitVec 5) (length : U16) (body : List Octet) :
    Statement (.rtcpRr padding count length body) := fun _ =>
  rtcp_named (by decide : (0x80#8 ++ 0xC9#8 ++ 0#8 ++ 0#8 : BitVec (8 + 8 + 8 + 8)) = 0x80C90000#32)
theorem rtcpSdes (padding : BitVec 1) (count : BitVec 5) (length : U16) (body : List Octet) :
    Statement (.rtcpSdes padding count length body) := fun _ =>
  rtcp_named (by decide : (0x80#8 ++ 0xCA#8 ++ 0#8 ++ 0#8 : BitVec (8 + 8 + 8 + 8)) = 0x80CA0000#32)
theorem rtcpBye (padding : BitVec 1) (count : BitVec 5) (length : U16) (body : List Octet) :
    Statement (.rtcpBye padding count length body) := fun _ =>
  rtcp_named (by decide : (0x80#8 ++ 0xCB#8 ++ 0#8 ++ 0#8 : BitVec (8 + 8 + 8 + 8)) = 0x80CB0000#32)
theorem rtcpApp (padding : BitVec 1) (count : BitVec 5) (length : U16) (body : List Octet) :
    Statement (.rtcpApp padding count length body) := fun _ =>
  rtcp_named (by decide : (0x80#8 ++ 0xCC#8 ++ 0#8 ++ 0#8 : BitVec (8 + 8 + 8 + 8)) = 0x80CC0000#32)
theorem rtcpOther (pt : Octet) (padding : BitVec 1) (count : BitVec 5) (length : U16) (body : List Octet) :
    Statement (.rtcpOther pt padding count length body) := fun _ => rtcp_word _ _

end Sys2Proof.Laws.TableMatch
end

