-- ==== Sys2Proof/Laws/Report.lean ====
section
/-! SUPPORT. OUT: the block encoder as one write of the 24 octets of the layout, and the invariant of OUT. -/

namespace Sys2Proof.Machine

/-- Two writes side by side are one write. -/
theorem Memory.writeOctets_append (m : Memory) (a : Nat) (x y : List Octet) :
    m.writeOctets a (x ++ y) = (m.writeOctets a x).writeOctets (a + x.length) y := by
  induction x generalizing m a with
  | nil => simp [Memory.writeOctets]
  | cons v x ih =>
    simp only [List.cons_append, Memory.writeOctets, ih, List.length_cons]
    congr 1
    omega

@[simp] theorem layoutBlock_length (b : ReportBlock) : (layoutBlock b).length = 24 := rfl

/-- The block encoder writes the laid-out block (R90, R209). -/
theorem encodeBlock_eq (m : Memory) (b : ReportBlock) : encodeBlock m b = m.writeOctets 0 (layoutBlock b) := by
  unfold encodeBlock layoutBlock
  repeat rw [Memory.writeOctets_append]
  simp only [octetsOf4, octetsOf3, List.length_cons, List.length_nil]

/-- OUT of a report is the laid-out block, and nothing beyond it. -/
theorem encodeBlock_read (b : ReportBlock) (a : Nat) :
    (encodeBlock Memory.empty b).read a = ((layoutBlock b)[a]?).getD 0 := by
  rw [encodeBlock_eq, Memory.read_writeOctets Memory.wf_empty]
  by_cases h : a < 24
  · rw [if_pos ⟨Nat.zero_le a, by simpa using h⟩, Nat.sub_zero]
  · rw [if_neg (by simpa using h), List.getElem?_eq_none (by simpa using h)]
    rfl

@[simp] theorem reportResponse_status (b : ReportBlock) : (reportResponse b).status = Status.ok.code := by
  simp only [reportResponse, Response.ofStatus_status]
@[simp] theorem reportResponse_rb (b : ReportBlock) : (reportResponse b).rb = b := by simp only [reportResponse]
@[simp] theorem reportResponse_out (b : ReportBlock) : (reportResponse b).out = encodeBlock Memory.empty b := by
  simp only [reportResponse]
@[simp] theorem unspecified_out (k : Nat) : (Response.unspecified k).out = freeOut k := by
  simp only [Response.unspecified]

/-- OUT of a report is in the canonical form and has 24 octets. -/
theorem outWf_encodeBlock (b : ReportBlock) : outWf (encodeBlock Memory.empty b) = true := by
  rw [encodeBlock_eq]
  unfold outWf
  rw [Bool.and_eq_true]
  refine ⟨Memory.wf_writeOctets Memory.wf_empty _ _, Memory.within_writeOctets (m := Memory.empty) rfl ?_⟩
  simp [Config.outOctets]

/-- So is OUT after a reset signal. -/
theorem outWf_freeOut (k : Nat) : outWf (freeOut k) = true := by
  unfold outWf freeOut
  rw [Bool.and_eq_true]
  refine ⟨Memory.wf_writeOctets Memory.wf_empty _ _, Memory.within_writeOctets (m := Memory.empty) rfl ?_⟩
  simp

end Sys2Proof.Machine
end

