-- ==== Sys2Proof/Laws/Rtcp.lean ====
section
/-! SUPPORT. One RTCP packet: reads past its header, its padding, and what its row answers; report blocks that read back;
and the compound buffer as its parts. -/

namespace Sys2Proof.Machine

/-! ## Reads past the common header -/

theorem memRead4_rtcpOctets (h : RtcpHeader) (body : List Octet) (o : Nat) :
    memRead4 (rtcpOctets h body) (4 + o) = memRead4 body o := memRead4_append ((rtcpOctets h body).take 4) body o

theorem memRead3_rtcpOctets (h : RtcpHeader) (body : List Octet) (o : Nat) :
    memRead3 (rtcpOctets h body) (4 + o) = memRead3 body o := memRead3_append ((rtcpOctets h body).take 4) body o

theorem memRead1_rtcpOctets (h : RtcpHeader) (body : List Octet) (o : Nat) :
    memRead1 (rtcpOctets h body) (4 + o) = memRead1 body o := memRead1_append ((rtcpOctets h body).take 4) body o

theorem octets_rtcpOctets (h : RtcpHeader) (body : List Octet) (o n : Nat) :
    octets (rtcpOctets h body) (4 + o) n = octets body o n := octets_append ((rtcpOctets h body).take 4) body o n

theorem decodeBlock_rtcpOctets (h : RtcpHeader) (body : List Octet) (o : Nat) :
    decodeBlock (rtcpOctets h body) (4 + o) = decodeBlock body o := by
  unfold decodeBlock
  simp only [Nat.add_assoc, memRead4_rtcpOctets, memRead1_rtcpOctets, memRead3_rtcpOctets]

/-! ## Padding and the row -/

theorem packetOctets_eq {length : U16} {body : List Octet} (hb : body.length = 4 * length.toNat) :
    packetOctets length = 4 + body.length := by
  unfold packetOctets
  omega

/-- The last octet of a packet is the last octet of its body. -/
theorem memRead1_last (h : RtcpHeader) {body : List Octet} {pad : Octet} (hl : body.getLast? = some pad) :
    memRead1 (rtcpOctets h body) (4 + body.length - 1) = pad := by
  have hb0 : body ≠ [] := by
    rintro rfl
    simp at hl
  have hpos : 0 < body.length := List.length_pos_iff.mpr hb0
  rw [show 4 + body.length - 1 = 4 + (body.length - 1) by omega, memRead1_rtcpOctets]
  unfold memRead1 octetAt
  rw [← List.getLast?_eq_getElem?, hl]
  rfl

/-- Good padding is read as its count (R124). -/
theorem paddingOf_ok {h : RtcpHeader} {body : List Octet} {pad : Octet} (hb : body.length = 4 * h.length.toNat)
    (hp : PaddedBy h.padding body pad) :
    paddingOf (rtcpOctets h body) (packetOctets h.length) h.padding = .ok pad ∧ pad.toNat ≤ body.length := by
  rw [packetOctets_eq hb]
  unfold paddingOf
  rcases hp with ⟨h0, rfl⟩ | ⟨h1, hl, hne, hle⟩
  · rw [h0]
    exact ⟨rfl, by simp⟩
  · refine ⟨?_, hle⟩
    rw [if_neg (by rw [h1]; decide)]
    simp only [memRead1_last h hl]
    rw [if_neg]
    rintro (hh | hh)
    · exact hne hh
    · omega

/-- What a packet with good padding is answered, by its body decoder (R122). -/
theorem emit_decodePacket {h : RtcpHeader} {body : List Octet} {pad : Octet} (hb : body.length = 4 * h.length.toNat)
    (hp : PaddedBy h.padding body pad) (decodeBody : List Octet → Nat → Except Status RtcpBody) (s : State) :
    s.emit (decodePacket h body decodeBody) =
      match decodeBody (rtcpOctets h body) (4 + (body.length - pad.toNat)) with
      | .ok b => .next (s.withPacket (packetRecord h.padding h.count h.pt h.length pad b))
      | .error st => .next (s.respond { Response.ofStatus st with pkts := s.resp.pkts }) := by
  obtain ⟨h1, h2⟩ := paddingOf_ok hb hp
  have hn := packetOctets_eq hb
  unfold decodePacket
  simp only
  rw [if_neg (by rw [hn]; simp), h1]
  simp only
  rw [show packetOctets h.length - pad.toNat = 4 + (body.length - pad.toNat) by omega]
  cases decodeBody (rtcpOctets h body) (4 + (body.length - pad.toNat)) <;> rfl

/-! ## Report blocks -/

/-- A laid-out report block reads back (R90, R91, R128). -/
theorem decodeBlock_layoutBlock {b : ReportBlock} (h : b.representable = true) (pre post : List Octet) :
    decodeBlock (pre ++ (layoutBlock b ++ post)) pre.length = b := by
  simp only [ReportBlock.representable, Bool.and_eq_true, decide_eq_true_eq] at h
  have a0 := memRead4_append pre (layoutBlock b ++ post) 0
  rw [Nat.add_zero] at a0
  unfold decodeBlock
  rw [a0, memRead1_append, memRead3_append, memRead4_append, memRead4_append, memRead4_append, memRead4_append]
  have c1 : memRead4 (layoutBlock b ++ post) 0 = b.ssrc := memRead4_octetsOf4 b.ssrc _
  have c2 : memRead1 (layoutBlock b ++ post) 4 = b.fraction := rfl
  have c3 : memRead3 (layoutBlock b ++ post) 5 = BitVec.ofInt 24 b.cumLost :=
    memRead3_octetsOf3 (BitVec.ofInt 24 b.cumLost) []
  have c4 : memRead4 (layoutBlock b ++ post) 8 = b.extMax := memRead4_octetsOf4 b.extMax []
  have c5 : memRead4 (layoutBlock b ++ post) 12 = b.jitter := memRead4_octetsOf4 b.jitter []
  have c6 : memRead4 (layoutBlock b ++ post) 16 = b.lsr := memRead4_octetsOf4 b.lsr []
  have c7 : memRead4 (layoutBlock b ++ post) 20 = b.dlsr := memRead4_octetsOf4 b.dlsr []
  have hs : sext (BitVec.ofInt 24 b.cumLost) = b.cumLost := by
    unfold sext
    rw [BitVec.toInt_ofInt_eq_self (by decide)] <;> norm_num <;> omega
  rw [c1, c2, c3, c4, c5, c6, c7, hs]

theorem flatMap_layoutBlock_length (l : List ReportBlock) : (l.flatMap layoutBlock).length = 24 * l.length := by
  induction l with
  | nil => rfl
  | cons a l ih =>
    have h : (layoutBlock a).length = 24 := rfl
    simp only [List.flatMap_cons, List.length_append, List.length_cons, ih, h]
    omega

/-- A list of laid-out report blocks reads back. -/
theorem decodeBlocks_layoutBlock {l : List ReportBlock} (h : ∀ b ∈ l, b.representable = true) (pre post : List Octet) :
    (List.range l.length).map (fun i => decodeBlock (pre ++ (l.flatMap layoutBlock ++ post)) (pre.length + 24 * i)) =
      l := by
  induction l generalizing pre with
  | nil => rfl
  | cons a l ih =>
    rw [List.length_cons, List.range_succ_eq_map, List.map_cons, List.map_map]
    congr 1
    · simp only [List.flatMap_cons, List.append_assoc]
      exact decodeBlock_layoutBlock (h a (by simp)) pre _
    · have h' := ih (fun b hb => h b (by simp [hb])) (pre ++ layoutBlock a)
      have hl : (layoutBlock a).length = 24 := rfl
      conv_rhs => rw [← h']
      apply List.map_congr_left
      intro i _
      simp only [List.flatMap_cons, List.append_assoc, Function.comp, List.length_append, hl]
      congr 1
      omega

/-! ## The compound buffer -/

/-- A buffer whose first packet is not framed answers its framing error (R122, R123). -/
theorem compound_frame_error {buf : List Octet} {st : Status} (hne : buf ≠ []) (hf : frameRtcp buf = .error st) :
    compound buf.length buf = (st, []) := by
  rw [compound_cons hne, hf]

/-- A packet that is refused ends the decoding, whatever follows it (R122, R123). -/
theorem compound_refused {a b : List Octet} {h : RtcpHeader} {body : List Octet} {st : Status}
    (hf : frameRtcp a = .ok (h, body, [])) (hd : decodeOne h body = .error st) :
    compound (a ++ b).length (a ++ b) = (st, []) := by
  have hl := frameRtcp_rest_lt hf
  have hne : a ++ b ≠ [] := by
    intro he
    simp only [List.append_eq_nil_iff] at he
    simp [he.1] at hl
  rw [compound_cons hne, frameRtcp_append hf]
  simp only [hd]

/-- A buffer that decodes without error does so in front of any other octets (R85, R123). -/
theorem compound_append {a b : List Octet} (ha : (compound a.length a).1 = .ok) :
    compound (a ++ b).length (a ++ b) =
      ((compound b.length b).1, (compound a.length a).2 ++ (compound b.length b).2) := by
  have key : ∀ n, ∀ a : List Octet, a.length ≤ n → (compound a.length a).1 = .ok →
      compound (a ++ b).length (a ++ b) =
        ((compound b.length b).1, (compound a.length a).2 ++ (compound b.length b).2) := by
    intro n
    induction n with
    | zero =>
      intro a hl _
      have : a = [] := List.length_eq_zero_iff.mp (by omega)
      subst this
      simp [compound]
    | succ n ih =>
      intro a hl ha
      by_cases hne : a = []
      · subst hne
        simp [compound]
      · rw [compound_cons hne] at ha ⊢
        cases hf : frameRtcp a with
        | error st =>
          exfalso
          rw [hf] at ha
          simp only at ha
          subst ha
          unfold frameRtcp at hf
          split at hf
          · cases hf
          · split at hf
            · cases hf
            · simp only at hf
              split at hf <;> cases hf
        | ok r =>
          obtain ⟨h, body, rest⟩ := r
          have hl2 := frameRtcp_rest_lt hf
          obtain ⟨-, hbl, he⟩ := frameRtcp_ok hf
          have hf2 : frameRtcp (a ++ b) = .ok (h, body, rest ++ b) := by
            rw [he, List.append_assoc]
            exact frameRtcp_rtcpOctets h hbl _
          rw [hf] at ha
          rw [compound_cons (by simp [hne]), hf2]
          simp only at ha ⊢
          cases hd : decodeOne h body with
          | error st =>
            rw [hd] at ha
            simp only at ha
            rw [decodeOne_error hd] at ha
            cases ha
          | ok p =>
            rw [hd] at ha
            simp only at ha ⊢
            rw [ih rest (by omega) ha]
            simp
  exact key a.length a le_rfl ha

end Sys2Proof.Machine
end

