-- ==== Sys2Proof/Laws/Rtp.lean ====
section
/-! SUPPORT. DECODE_RTP as one parse of the whole buffer, and what a laid-out packet reads as. -/

namespace Sys2Proof.Machine

/-- DECODE_RTP on a buffer that passes the size and version checks (R102). -/
theorem execDecodeRtp_parse {buf : List Octet} {s : State} (h1 : buf.length ≤ s.params.maxBufOctets)
    (h2 : 12 ≤ buf.length) (h3 : versionOf buf = 2) :
    execDecodeRtp buf s = s.finishRtp (parseRtp (rtpWordOf buf) buf) := by
  unfold execDecodeRtp frameRtp
  rw [if_neg (by omega), if_neg (by omega), if_neg (by simp [h3])]
  simp only [execRtpData]
  rw [rtpOctets_rtpWordOf (by omega) h3]

/-- X of word 0 (R70). -/
theorem extension_iff (buf : List Octet) : (rtpWordOf buf).extension = 1 ↔ hasExtension buf := by
  unfold hasExtension rtpWordOf memRead1
  rw [← BitVec.toNat_inj, BitVec.extractLsb'_toNat, Nat.shiftRight_eq_div_pow]
  simp

/-- CC of word 0 (R70). -/
theorem cc_toNat (buf : List Octet) : (rtpWordOf buf).cc.toNat = ccOf buf := by
  unfold ccOf rtpWordOf memRead1
  rw [BitVec.extractLsb'_toNat]
  simp

/-- The fixed header and the CSRC list of a laid-out packet read back, and reads past them are reads of the rest. -/
theorem rtpOctets_reads (w : RtpWord) (timestamp ssrc : U32) {csrc : List U32} (tail : List Octet)
    (hc : csrc.length = w.cc.toNat) {buf : List Octet}
    (hb : buf = rtpOctets w (octetsOf4 timestamp ++ octetsOf4 ssrc ++ csrc.flatMap octetsOf4 ++ tail)) :
    memRead4 buf 4 = timestamp ∧ memRead4 buf 8 = ssrc ∧ csrcList buf w.cc.toNat = csrc ∧
      buf.length = 12 + 4 * w.cc.toNat + tail.length ∧ buf.drop (12 + 4 * w.cc.toNat) = tail ∧
      (∀ k, memRead2 buf (12 + 4 * w.cc.toNat + k) = memRead2 tail k) ∧
      (∀ k n, octets buf (12 + 4 * w.cc.toNat + k) n = octets tail k n) := by
  let pre := rtpOctets w (octetsOf4 timestamp ++ octetsOf4 ssrc)
  have hl : pre.length = 12 := rfl
  have e2 : buf = pre ++ (csrc.flatMap octetsOf4 ++ tail) := by
    rw [hb]
    simp [pre, rtpOctets]
  have hl3 : (pre ++ csrc.flatMap octetsOf4).length = 12 + 4 * w.cc.toNat := by
    rw [List.length_append, hl, flatMap_octetsOf4_length, hc]
  have e3 : buf = (pre ++ csrc.flatMap octetsOf4) ++ tail := by rw [e2, List.append_assoc]
  refine ⟨?_, ?_, ?_, ?_, ?_, ?_, ?_⟩
  · rw [e2]
    exact memRead4_octetsOf4 timestamp []
  · rw [e2]
    exact memRead4_octetsOf4 ssrc []
  · unfold csrcList
    have h := memRead4s_octetsOf4 pre csrc tail
    rw [hl, ← e2] at h
    rw [← hc]
    exact h
  · rw [e3, List.length_append, hl3]
  · rw [e3, ← hl3, List.drop_left]
  · intro k
    rw [e3, ← hl3, memRead2_append]
  · intro k n
    rw [e3, ← hl3, octets_append]

end Sys2Proof.Machine
end

