-- ==== Sys2Proof/Laws/Sdes.lean ====
section
/-! SUPPORT. SDES: the item and chunk loops read exactly the contents that R80, R81 and R138 lay out. -/

namespace Sys2Proof.Machine

/-- Every item is one that R81 lays out: not END, its text as long as its length says. -/
def OkItems (l : List SdesItem) : Prop := ∀ i ∈ l, i.type ≠ 0 ∧ i.text.length = i.length.toNat

/-- The first octet left before the stop. -/
theorem read_head {pkt o : List Octet} {stop p : Nat} {x : Octet} (h : (pkt.take stop).drop p = x :: o) :
    memRead1 pkt p = x ∧ p < stop ∧ p < pkt.length ∧ (pkt.take stop).drop (p+1) = o := by
  have hl := congrArg List.length h
  simp at hl
  have hp : p < (pkt.take stop).length := by simp; omega
  have h2 := drop_octetAt hp
  rw [h] at h2
  simp only [List.cons.injEq] at h2
  refine ⟨?_, by omega, by omega, h2.2.symm⟩
  rw [h2.1]
  unfold memRead1 octetAt
  rw [List.getElem?_take]
  rw [if_pos (by omega)]

/-- The octets in front of those left before the stop. -/
theorem read_front {pkt a b : List Octet} {stop p : Nat} (h : (pkt.take stop).drop p = a ++ b) :
   octets pkt p a.length = a ∧ (pkt.take stop).drop (p + a.length) = b ∧ (a ≠ [] → p + a.length ≤ stop) := by
  have hl := congrArg List.length h
  simp at hl
  refine ⟨?_, ?_, ?_⟩
  · unfold octets
    rw [List.drop_take] at h
    have := congrArg (List.take a.length) h
    rw [List.take_take, List.take_left] at this
    have hm : min a.length (stop - p) = a.length := by omega
    rw [hm] at this
    exact this
  · rw [← List.drop_drop, h, List.drop_left]
  · intro h
    have := List.length_pos_iff.mpr h
    omega

/-- The item loop reads the items that lie there (R135 to R137), up to the stop or up to the END item and its fill. -/
theorem decodeItems_complete (pkt : List Octet) (stop : Nat) (hs : stop ≤ pkt.length) (tail : List Octet) (q : Nat) :
   ∀ (items : List SdesItem) (acc : List SdesItem) (p fuel : Nat), OkItems items → items.length < fuel → p ≤ stop →
   (pkt.take stop).drop p = items.flatMap layoutItem ++ tail →
   ((tail = [] ∧ q = stop) ∨ (∃ fill rest, tail = 0 :: (fill ++ rest) ∧ fill.length < 4 ∧
      q = p + (items.flatMap layoutItem).length + 1 + fill.length ∧ q % 4 = 0)) →
   decodeItems pkt stop fuel p acc = .ok (acc ++ items, q) := by
  intro items
  induction items with
  | nil =>
    intro acc p fuel _ hf hp ho ht
    obtain ⟨fuel, rfl⟩ : ∃ k, fuel = k + 1 := ⟨fuel - 1, by simp at hf; omega⟩
    unfold decodeItems
    rcases ht with ⟨rfl, rfl⟩ | ⟨fill, rest, rfl, hfl, hq, hq4⟩
    · have := congrArg List.length ho
      simp at this
      rw [if_pos (by omega)]
      simp; omega
    · simp only [List.flatMap_nil, List.nil_append] at ho
      obtain ⟨h1, h2, h3, h4⟩ := read_head ho
      have hl := congrArg List.length h4
      simp at hl
      rw [if_neg (by omega), if_pos h1]
      unfold endItem
      have hr : roundup4 (p + 1) = q := by
        have := roundup4_spec (p+1)
        simp at hq
        omega
      simp only [hr]
      rw [if_neg (by simp at hq; omega)]
      simp
  | cons it items ih =>
    intro acc p fuel hok hf hp ho ht
    obtain ⟨fuel, rfl⟩ : ∃ k, fuel = k + 1 := ⟨fuel - 1, by simp at hf; omega⟩
    have hit := hok it (by simp)
    simp only [List.flatMap_cons, layoutItem, List.cons_append, List.append_assoc] at ho
    obtain ⟨h1, h2, h3, h4⟩ := read_head ho
    obtain ⟨g1, g2, g3, g4⟩ := read_head h4
    obtain ⟨k1, k2, k3⟩ := read_front g4
    have hle : p + 2 + it.text.length ≤ stop := by
      by_cases c : it.text = []
      · rw [c]; simp; omega
      · have := k3 c; omega
    unfold decodeItems
    rw [if_neg (by omega), h1, if_neg hit.1]
    unfold decodeItem
    rw [if_neg (by omega)]
    simp only [g1, h1, ← hit.2]
    rw [if_neg (by omega)]
    simp only
    rw [show p + 2 = p + 1 + 1 from rfl, k1]
    have := ih (acc ++ [{ type := it.type, length := it.length, text := it.text }]) (p + 1 + 1 + it.text.length) fuel
      (fun i hi => hok i (by simp [hi])) (by simp at hf; omega) (by omega) k2 ?_
    · rw [this]; simp
    · rcases ht with ht | ⟨fill, rest, a, b, c, d⟩
      · exact Or.inl ht
      · refine Or.inr ⟨fill, rest, a, b, ?_, d⟩
        rw [c]; simp [layoutItem]; omega

/-- What the item loop answers lies there. -/
theorem decodeItems_sound (pkt : List Octet) (stop : Nat) (hs : stop ≤ pkt.length) :
   ∀ (fuel p q : Nat) (acc items' : List SdesItem), p ≤ stop → decodeItems pkt stop fuel p acc = .ok (items', q) →
   ∃ items tail, items' = acc ++ items ∧ OkItems items ∧
    (pkt.take stop).drop p = items.flatMap layoutItem ++ tail ∧ q ≤ stop ∧
    ((tail = [] ∧ q = stop) ∨ (∃ fill, tail = 0 :: (fill ++ (pkt.take stop).drop q) ∧ fill.length < 4 ∧
      q = p + (items.flatMap layoutItem).length + 1 + fill.length ∧ q % 4 = 0)) := by
  intro fuel
  induction fuel with
  | zero => intro p q acc items' _ h; cases h
  | succ fuel ih =>
    intro p q acc items' hp h
    unfold decodeItems at h
    split at h
    · rename_i he
      cases h
      refine ⟨[], [], by simp, by simp [OkItems], ?_, hp, Or.inl ⟨rfl, he⟩⟩
      simp [he]
    · rename_i hne
      have hps : p < (pkt.take stop).length := by simp; omega
      have hd := drop_octetAt hps
      have hoct : octetAt (pkt.take stop) p = memRead1 pkt p := by
        unfold memRead1 octetAt; rw [List.getElem?_take, if_pos (by omega)]
      rw [hoct] at hd
      split at h
      · rename_i h0
        unfold endItem at h
        simp only at h
        split at h
        · cases h
        · rename_i q' he
          cases h
          split at he
          · cases he
          · rename_i hq
            cases he
            have hr := roundup4_spec (p + 1)
            refine ⟨[], 0 :: (pkt.take stop).drop (p+1), by simp, by simp [OkItems], by rw [hd, h0]; rfl, by omega,
              Or.inr ⟨octets (pkt.take stop) (p+1) (roundup4 (p+1) - (p+1)), ?_, ?_, ?_, hr.2.2⟩⟩
            · congr 1
              unfold octets
              have := List.take_append_drop (roundup4 (p+1) - (p+1)) ((pkt.take stop).drop (p+1))
              rw [List.drop_drop, show p + 1 + (roundup4 (p+1) - (p+1)) = roundup4 (p+1) by omega] at this
              exact this.symm
            · unfold octets; simp; omega
            · unfold octets; simp; omega
      · rename_i h0
        unfold decodeItem at h
        split at h
        · cases h
        · rename_i it q' he
          split at he
          · cases he
          · rename_i c1
            simp only at he
            split at he
            · cases he
            · rename_i c2
              cases he
              obtain ⟨items, tail, e1, e2, e3, e4, e5⟩ := ih _ _ _ _ (by omega) h
              have hps1 : p + 1 < (pkt.take stop).length := by simp; omega
              have hd1 := drop_octetAt hps1
              have hoct1 : octetAt (pkt.take stop) (p+1) = memRead1 pkt (p+1) := by
                unfold memRead1 octetAt; rw [List.getElem?_take, if_pos (by omega)]
              rw [hoct1] at hd1
              have hd2 : (pkt.take stop).drop (p + 1 + 1) = octets pkt (p+2) (memRead1 pkt (p+1)).toNat ++
                  (pkt.take stop).drop (p + 2 + (memRead1 pkt (p+1)).toNat) := by
                have := List.take_append_drop (memRead1 pkt (p+1)).toNat ((pkt.take stop).drop (p+2))
                rw [List.drop_drop] at this
                rw [show p + 1 + 1 = p + 2 from rfl, ← this]
                congr 1
                unfold octets
                rw [List.drop_take, List.take_take]
                congr 1; omega
              have htl : (octets pkt (p + 2) (memRead1 pkt (p+1)).toNat).length = (memRead1 pkt (p+1)).toNat := by
                unfold octets; simp; omega
              refine ⟨⟨memRead1 pkt p, memRead1 pkt (p + 1), octets pkt (p + 2) (memRead1 pkt (p+1)).toNat⟩ :: items,
                tail, by rw [e1]; simp, ?_, ?_, e4, ?_⟩
              · intro i hi
                rcases List.mem_cons.mp hi with rfl | hi
                · exact ⟨h0, htl⟩
                · exact e2 i hi
              · rw [hd, hd1, hd2, e3]; simp [layoutItem]
              · rcases e5 with e5 | ⟨fill, a, b, c, d⟩
                · exact Or.inl e5
                · refine Or.inr ⟨fill, a, b, ?_, d⟩
                  rw [c]; simp [layoutItem, htl]; omega

/-- An item has at least two octets. -/
theorem flatMap_layoutItem_length (items : List SdesItem) : 2 * items.length ≤ (items.flatMap layoutItem).length := by
  induction items with
  | nil => simp
  | cons a l ih => simp [layoutItem]; simp at ih; omega

/-- The chunk loop reads the chunks that lie there (R134). -/
theorem decodeChunks_complete (pkt : List Octet) (stop : Nat) (hs : stop ≤ pkt.length) :
  ∀ (chunks : List SdesChunk) (o : List Octet), SdesContent chunks o →
   ∀ p, p ≤ stop → p % 4 = 0 → (pkt.take stop).drop p = o →
   decodeChunks pkt stop chunks.length p = .ok (chunks, stop) := by
  intro chunks o hc
  induction hc with
  | none =>
    intro p hp _ ho
    have := congrArg List.length ho
    simp at this
    simp only [List.length_nil, decodeChunks]
    simp; omega
  | openChunk c hi =>
    intro p hp h4 ho
    have hlen := congrArg List.length ho
    simp at hlen
    obtain ⟨a1, a2, a3⟩ := read_front ho
    simp only [octetsOf4_length] at a1 a2 a3
    have hss : memRead4 pkt p = c.ssrc := by
      have e : pkt.drop p = octetsOf4 c.ssrc ++ pkt.drop (p+4) := by
        have := List.take_append_drop 4 (pkt.drop p)
        rw [List.drop_drop] at this
        rw [← this]; congr 1
      have := memRead4_append (pkt.take p) (pkt.drop p) 0
      rw [List.take_append_drop, List.length_take, Nat.min_eq_left (by omega), Nat.add_zero] at this
      rw [this, e]; exact memRead4_octetsOf4 _ _
    have hli := flatMap_layoutItem_length c.items
    rw [List.length_flatMap] at hli
    have := decodeItems_complete pkt stop hs [] stop c.items [] (p+4) (stop - (p+4) + 1) hi (by omega) (by omega)
      (by rw [a2]; simp) (Or.inl ⟨rfl, rfl⟩)
    simp only [List.length_singleton]
    unfold decodeChunks decodeChunk
    rw [if_neg (by omega), this]
    simp only [decodeChunks, hss]
    simp
  | ended c fill cs o hi hf ho ih =>
    intro p hp h4 hoo
    have hlen := congrArg List.length hoo
    simp at hlen
    obtain ⟨a1, a2, a3⟩ := read_front hoo
    simp only [octetsOf4_length] at a1 a2 a3
    have hss : memRead4 pkt p = c.ssrc := by
      have e : pkt.drop p = octetsOf4 c.ssrc ++ pkt.drop (p+4) := by
        have := List.take_append_drop 4 (pkt.drop p)
        rw [List.drop_drop] at this
        rw [← this]; congr 1
      have := memRead4_append (pkt.take p) (pkt.drop p) 0
      rw [List.take_append_drop, List.length_take, Nat.min_eq_left (by omega), Nat.add_zero] at this
      rw [this, e]; exact memRead4_octetsOf4 _ _
    have hli := flatMap_layoutItem_length c.items
    have hli2 := hli
    rw [List.length_flatMap] at hli2
    have := decodeItems_complete pkt stop hs (0 :: (fill ++ o))
      (p + 4 + (c.items.flatMap layoutItem).length + 1 + fill.length) c.items [] (p+4) (stop - (p+4) + 1) hi
      (by omega) (by omega) a2
      (Or.inr ⟨fill, o, rfl, hf.1, rfl, by omega⟩)
    simp only [List.length_cons]
    unfold decodeChunks decodeChunk
    rw [if_neg (by omega), this]
    simp only [hss, List.nil_append]
    obtain ⟨b1, b2, b3⟩ := read_front a2
    have b2' := read_head b2
    obtain ⟨d1, d2, d3⟩ := read_front b2'.2.2.2
    have hx : p + 4 + (c.items.flatMap layoutItem).length + 1 + fill.length ≤ stop := by
      rw [List.length_flatMap]; omega
    rw [ih (p + 4 + (c.items.flatMap layoutItem).length + 1 + fill.length) hx (by omega) d2]

/-- What the chunk loop answers lies there, and reaches the stop. -/
theorem decodeChunks_sound (pkt : List Octet) (stop : Nat) (hs : stop ≤ pkt.length) :
  ∀ (n p : Nat) (chunks : List SdesChunk), p ≤ stop → p % 4 = 0 → decodeChunks pkt stop n p = .ok (chunks, stop) →
   chunks.length = n ∧ SdesContent chunks ((pkt.take stop).drop p) := by
  intro n
  induction n with
  | zero =>
    intro p chunks hp _ h
    simp only [decodeChunks] at h
    simp at h
    obtain ⟨rfl, rfl⟩ := h
    refine ⟨rfl, ?_⟩
    rw [List.drop_of_length_le (by simp)]
    exact SdesContent.none
  | succ n ih =>
    intro p chunks hp h4 h
    unfold decodeChunks at h
    split at h
    · cases h
    · rename_i ch q hc
      split at h
      · cases h
      · rename_i cs q' hcs
        cases h
        unfold decodeChunk at hc
        split at hc
        · cases hc
        · rename_i c1
          split at hc
          · cases hc
          · rename_i items q2 hi
            cases hc
            obtain ⟨it, tail, e1, e2, e3, e4, e5⟩ := decodeItems_sound pkt stop hs _ _ _ _ _ (by omega) hi
            have d4 := drop_memRead4 (l := pkt.take stop) (o := p) (by simp; omega)
            have hm : memRead4 (pkt.take stop) p = memRead4 pkt p := by
              conv_rhs => rw [← List.take_append_drop stop pkt]
              rw [memRead4_append_left _ (by simp; omega)]
            rw [hm, e3] at d4
            simp only [List.nil_append] at e1
            subst e1
            rcases e5 with ⟨rfl, rfl⟩ | ⟨fill, rfl, b, c, d⟩
            · -- open: remaining chunks from stop
              cases n with
              | zero =>
                simp only [decodeChunks] at hcs
                simp at hcs
                subst hcs
                refine ⟨rfl, ?_⟩
                rw [d4, List.append_nil]
                exact SdesContent.openChunk { ssrc := memRead4 pkt p, items := items } e2
              | succ n =>
                exfalso
                unfold decodeChunks decodeChunk at hcs
                rw [if_pos (by omega)] at hcs
                cases hcs
            · obtain ⟨h1, h2⟩ := ih q cs e4 d hcs
              refine ⟨by simp [h1], ?_⟩
              rw [d4]
              exact SdesContent.ended { ssrc := memRead4 pkt p, items := items } fill cs _ e2 ⟨b, by simp only; omega⟩ h2

end Sys2Proof.Machine
end

