-- ==== Sys2Proof/Laws/Table.lean ====
section
/-! SUPPORT. The source table as a map: lookup after put and after free, and that both keep the canonical form. -/

namespace Sys2Proof.Machine

@[simp] theorem Table.lookup_nil (s : U32) : Table.lookup [] s = none := rfl

theorem Table.lookup_cons (e : Entry) (t : Table) (s : U32) :
    Table.lookup (e :: t) s = if e.ssrc = s then some e else Table.lookup t s := rfl

/-- An entry found is one of the table's, and has the SSRC looked up. -/
theorem Table.lookup_some {t : Table} {s : U32} {e : Entry} (h : t.lookup s = some e) : e ∈ t ∧ e.ssrc = s := by
  induction t with
  | nil => cases h
  | cons d t ih =>
    rw [Table.lookup_cons] at h
    split at h
    · cases h
      exact ⟨List.mem_cons_self, ‹_›⟩
    · exact ⟨List.mem_cons_of_mem _ (ih h).1, (ih h).2⟩

/-- The entry put is found. -/
theorem Table.lookup_put_self (t : Table) (e : Entry) : (t.put e).lookup e.ssrc = some e := by
  induction t with
  | nil => simp [Table.put, Table.lookup_cons]
  | cons d t ih =>
    unfold Table.put
    split
    · simp [Table.lookup_cons]
    · split
      · simp [Table.lookup_cons]
      · rename_i h
        rw [Table.lookup_cons, if_neg (fun h' => h h'.symm), ih]

/-- Every other SSRC keeps its entry. -/
theorem Table.lookup_put_other (t : Table) (e : Entry) {s : U32} (h : s ≠ e.ssrc) :
    (t.put e).lookup s = t.lookup s := by
  induction t with
  | nil => simp [Table.put, Table.lookup_cons, Ne.symm h]
  | cons d t ih =>
    unfold Table.put
    split
    · rw [Table.lookup_cons, if_neg (Ne.symm h)]
    · split
      · rename_i h1
        rw [Table.lookup_cons, if_neg (Ne.symm h), Table.lookup_cons, if_neg (by rw [← h1]; exact Ne.symm h)]
      · rw [Table.lookup_cons, Table.lookup_cons, ih]

/-- Every other SSRC keeps its entry when one is freed. -/
theorem Table.lookup_free_other (t : Table) {r s : U32} (h : s ≠ r) : (t.free r).lookup s = t.lookup s := by
  induction t with
  | nil => rfl
  | cons d t ih =>
    unfold Table.free
    split
    · rename_i h1
      rw [Table.lookup_cons, if_neg (by rw [h1]; exact Ne.symm h)]
    · rw [Table.lookup_cons, Table.lookup_cons, ih]

theorem Table.sortedFrom_mono {lo lo' : Nat} {t : Table} (h : Table.sortedFrom lo t = true) (hl : lo' ≤ lo) :
    Table.sortedFrom lo' t = true := by
  cases t with
  | nil => rfl
  | cons e t =>
    simp only [Table.sortedFrom, Bool.and_eq_true, decide_eq_true_eq] at h ⊢
    exact ⟨by omega, h.2⟩

/-- No SSRC below the bound of a sorted table has an entry. -/
theorem Table.lookup_below {lo : Nat} {t : Table} (h : Table.sortedFrom lo t = true) {s : U32} (hs : s.toNat < lo) :
    t.lookup s = none := by
  induction t generalizing lo with
  | nil => rfl
  | cons e t ih =>
    simp only [Table.sortedFrom, Bool.and_eq_true, decide_eq_true_eq] at h
    rw [Table.lookup_cons, if_neg (by rintro rfl; omega)]
    exact ih h.2 (by omega)

/-- The SSRC freed has no entry any more, in a table with one entry per SSRC. -/
theorem Table.lookup_free_self {t : Table} (h : t.sorted = true) (s : U32) : (t.free s).lookup s = none := by
  have key : ∀ (lo : Nat) (t : Table), Table.sortedFrom lo t = true → (Table.free t s).lookup s = none := by
    intro lo t
    induction t generalizing lo with
    | nil => intro _; rfl
    | cons e t ih =>
      intro h
      simp only [Table.sortedFrom, Bool.and_eq_true, decide_eq_true_eq] at h
      unfold Table.free
      split
      · rename_i h1
        subst h1
        exact Table.lookup_below h.2 (by omega)
      · rw [Table.lookup_cons, if_neg (by assumption)]
        exact ih _ h.2
  exact key 0 t h

theorem Table.sortedFrom_put {lo : Nat} {t : Table} (h : Table.sortedFrom lo t = true) {e : Entry}
    (he : lo ≤ e.ssrc.toNat) : Table.sortedFrom lo (t.put e) = true := by
  induction t generalizing lo with
  | nil => simp [Table.put, Table.sortedFrom, he]
  | cons d t ih =>
    simp only [Table.sortedFrom, Bool.and_eq_true, decide_eq_true_eq] at h
    unfold Table.put
    split
    · simp only [Table.sortedFrom, Bool.and_eq_true, decide_eq_true_eq]
      exact ⟨he, by omega, h.2⟩
    · split
      · rename_i h1
        simp only [Table.sortedFrom, Bool.and_eq_true, decide_eq_true_eq]
        exact ⟨he, by rw [h1]; exact h.2⟩
      · rename_i h0 h1
        have hne : e.ssrc.toNat ≠ d.ssrc.toNat := fun hh => h1 (BitVec.eq_of_toNat_eq hh)
        simp only [Table.sortedFrom, Bool.and_eq_true, decide_eq_true_eq]
        exact ⟨h.1, ih h.2 (by omega)⟩

/-- Put keeps the canonical form. -/
theorem Table.sorted_put {t : Table} (h : t.sorted = true) (e : Entry) : (t.put e).sorted = true :=
  Table.sortedFrom_put h (Nat.zero_le _)

/-- Free keeps the canonical form. -/
theorem Table.sorted_free {t : Table} (h : t.sorted = true) (s : U32) : (t.free s).sorted = true := by
  have key : ∀ (lo : Nat) (t : Table), Table.sortedFrom lo t = true → Table.sortedFrom lo (Table.free t s) = true := by
    intro lo t
    induction t generalizing lo with
    | nil => intro _; rfl
    | cons e t ih =>
      intro h
      simp only [Table.sortedFrom, Bool.and_eq_true, decide_eq_true_eq] at h
      unfold Table.free
      split
      · exact Table.sortedFrom_mono h.2 (by omega)
      · simp only [Table.sortedFrom, Bool.and_eq_true, decide_eq_true_eq]
        exact ⟨h.1, ih _ h.2⟩
  exact key 0 t h

/-- Replacing the entry an SSRC has allocates nothing. -/
theorem Table.count_put_of_some {t : Table} (h : t.sorted = true) {e d : Entry} (hl : t.lookup e.ssrc = some d) :
    (t.put e).count = t.count := by
  have key : ∀ (lo : Nat) (t : Table), Table.sortedFrom lo t = true → Table.lookup t e.ssrc = some d →
      (Table.put t e).length = t.length := by
    intro lo t
    induction t generalizing lo with
    | nil => intro _ h; cases h
    | cons c t ih =>
      intro h hl
      simp only [Table.sortedFrom, Bool.and_eq_true, decide_eq_true_eq] at h
      rw [Table.lookup_cons] at hl
      unfold Table.put
      split
      · rename_i hlt
        rw [if_neg (by intro h'; rw [h'] at hlt; omega), Table.lookup_below h.2 (by omega)] at hl
        cases hl
      · split
        · rfl
        · rename_i h1
          rw [if_neg (fun h' => h1 h'.symm)] at hl
          simp [ih _ h.2 hl]
  exact key 0 t h hl

/-- Putting an entry allocates at most one. -/
theorem Table.count_put_le (t : Table) (e : Entry) : (t.put e).count ≤ t.count + 1 := by
  unfold Table.count
  induction t with
  | nil => simp [Table.put]
  | cons d t ih =>
    unfold Table.put
    split
    · simp
    · split
      · simp
      · simp only [List.length_cons]
        omega

/-- Freeing an entry the table has frees one. -/
theorem Table.count_free {t : Table} {s : U32} {e : Entry} (h : t.lookup s = some e) :
    (t.free s).count + 1 = t.count := by
  unfold Table.count
  induction t with
  | nil => cases h
  | cons d t ih =>
    rw [Table.lookup_cons] at h
    unfold Table.free
    split
    · simp
    · rw [if_neg (by assumption)] at h
      simp [ih h]

theorem Table.mem_put {t : Table} {e d : Entry} (h : d ∈ t.put e) : d = e ∨ d ∈ t := by
  induction t with
  | nil => simp_all [Table.put]
  | cons c t ih =>
    unfold Table.put at h
    split at h
    · simp_all
    · split at h
      · simp_all
        tauto
      · rcases List.mem_cons.mp h with h1 | h1
        · simp [h1]
        · rcases ih h1 with h2 | h2 <;> simp [h2]

theorem Table.mem_free {t : Table} {s : U32} {d : Entry} (h : d ∈ t.free s) : d ∈ t := by
  induction t with
  | nil => exact h
  | cons c t ih =>
    unfold Table.free at h
    split at h
    · exact List.mem_cons_of_mem _ h
    · rcases List.mem_cons.mp h with h1 | h1
      · simp [h1]
      · exact List.mem_cons_of_mem _ (ih h1)

/-- The three parts of a well-formed table. -/
theorem Table.wf_iff {n : Nat} {t : Table} :
    t.wf n = true ↔ t.sorted = true ∧ t.count ≤ n ∧ ∀ e ∈ t, e.wf = true := by
  simp [Table.wf, and_assoc]

/-- Replacing an entry by a well-formed one of the same SSRC keeps a well-formed table. -/
theorem Table.wf_put_of_some {n : Nat} {t : Table} (h : t.wf n = true) {e d : Entry} (he : e.wf = true)
    (hl : t.lookup e.ssrc = some d) : (t.put e).wf n = true := by
  rw [Table.wf_iff] at h ⊢
  refine ⟨Table.sorted_put h.1 e, ?_, ?_⟩
  · rw [Table.count_put_of_some h.1 hl]; exact h.2.1
  · intro x hx
    rcases Table.mem_put hx with rfl | hx
    · exact he
    · exact h.2.2 x hx

/-- Allocating a well-formed entry while one is free keeps a well-formed table. -/
theorem Table.wf_put_of_room {n : Nat} {t : Table} (h : t.wf n = true) {e : Entry} (he : e.wf = true)
    (hc : t.count < n) : (t.put e).wf n = true := by
  rw [Table.wf_iff] at h ⊢
  refine ⟨Table.sorted_put h.1 e, ?_, ?_⟩
  · have := Table.count_put_le t e; omega
  · intro x hx
    rcases Table.mem_put hx with rfl | hx
    · exact he
    · exact h.2.2 x hx

/-- Freeing keeps a well-formed table. -/
theorem Table.wf_free {n : Nat} {t : Table} (h : t.wf n = true) (s : U32) : (t.free s).wf n = true := by
  rw [Table.wf_iff] at h ⊢
  refine ⟨Table.sorted_free h.1 s, ?_, fun x hx => h.2.2 x (Table.mem_free hx)⟩
  cases hl : t.lookup s with
  | some e => have := Table.count_free hl; omega
  | none =>
    have : ∀ t : Table, t.lookup s = none → Table.free t s = t := by
      intro t
      induction t with
      | nil => intro _; rfl
      | cons c t ih =>
        intro hl
        rw [Table.lookup_cons] at hl
        split at hl
        · cases hl
        · unfold Table.free
          rw [if_neg (by assumption), ih hl]
    rw [this t hl]
    exact h.2.1

end Sys2Proof.Machine
end

