-- ==== Sys2Proof/Laws/Sources.lean ====
section
/-! SUPPORT. What RTP_RECEIVED and BUILD_REPORT store, said once, and a run of one more step. -/

namespace Sys2Proof.Machine

/-- The entry RTP_RECEIVED stores after the validator (R161). -/
def received (r : Entry × RxClass) (rtpTs arrival : U32) : Entry :=
  if r.2.accepts then jitterStep r.1 rtpTs arrival else r.1

/-- The end of RTP_RECEIVED stores one entry and changes nothing else but the response. -/
theorem finishReceived_stored (s : State) {r : Entry × RxClass} {ssrc : U32} (h : r.1.ssrc = ssrc) (seq : U16)
    (rtpTs arrival : U32) : ∃ t, finishReceived s r seq rtpTs arrival = .next t ∧
      s.Stored t ssrc (some (received r rtpTs arrival)) (rxResponse r.2 (received r rtpTs arrival) seq) := by
  have hk : (received r rtpTs arrival).ssrc = ssrc := (stored_ssrc r rtpTs arrival).trans h
  refine ⟨_, rfl, ?_, ?_, ⟨rfl, rfl, rfl⟩, rfl⟩
  · have hl := Table.lookup_put_self s.table (received r rtpTs arrival)
    rw [hk] at hl
    exact hl
  · intro k hne
    exact Table.lookup_put_other s.table (received r rtpTs arrival) (by rw [hk]; exact hne)

/-- RTP_RECEIVED on an SSRC that has an entry (R161). -/
theorem execRtpReceived_stored {s : State} {ssrc : U32} {e : Entry} (h : s.table.lookup ssrc = some e) (seq : U16)
    (rtpTs arrival : U32) : ∃ t, exec (.rtpReceived ssrc seq rtpTs arrival) s = .next t ∧
      s.Stored t ssrc (some (received (validate e seq) rtpTs arrival))
        (rxResponse (validate e seq).2 (received (validate e seq) rtpTs arrival) seq) := by
  have hx : exec (.rtpReceived ssrc seq rtpTs arrival) s = finishReceived s (validate e seq) seq rtpTs arrival := by
    show execRtpReceived ssrc seq rtpTs arrival s = _
    unfold execRtpReceived
    rw [h]
  rw [hx]
  exact finishReceived_stored s (by rw [validate_ssrc, (Table.lookup_some h).2]) seq rtpTs arrival

/-- RTP_RECEIVED on an SSRC that has none, while an entry is free (R161, R163). -/
theorem execRtpReceived_created {s : State} {ssrc : U32} (h : s.table.lookup ssrc = none)
    (hc : s.table.count < s.params.maxSources) (seq : U16) (rtpTs arrival : U32) :
    ∃ t, exec (.rtpReceived ssrc seq rtpTs arrival) s = .next t ∧
      s.Stored t ssrc (some (received (initEntry ssrc seq, .newSource) rtpTs arrival))
        (rxResponse .newSource (received (initEntry ssrc seq, .newSource) rtpTs arrival) seq) := by
  have hx : exec (.rtpReceived ssrc seq rtpTs arrival) s =
      finishReceived s (initEntry ssrc seq, .newSource) seq rtpTs arrival := by
    show execRtpReceived ssrc seq rtpTs arrival s = _
    unfold execRtpReceived
    rw [h]
    simp only
    rw [if_neg (by omega)]
  rw [hx]
  exact finishReceived_stored s rfl seq rtpTs arrival

/-- The jitter step of a created entry (R26, R191). -/
theorem jitterStep_initEntry (ssrc : U32) (seq : U16) (rtpTs arrival : U32) :
    jitterStep (initEntry ssrc seq) rtpTs arrival = createdEntry ssrc seq (arrival - rtpTs) := rfl

/-- The distance of the validator is the signed distance taken modulo 65536 (R166). -/
theorem udelta_eq (e : Entry) (seq : U16) : (udelta e seq : Int) = seqDistance e seq := by
  unfold udelta seqDistance
  have h1 := seq.isLt
  have h2 := e.maxSeq.isLt
  rw [BitVec.toNat_sub]
  omega

/-- BUILD_REPORT on an SSRC that has an entry (R201, R208, R210). -/
theorem execBuildReport_stored {s : State} {ssrc : U32} {e : Entry} (h : s.table.lookup ssrc = some e)
    (supplied : Option (U32 × U32)) : ∃ t, exec (.buildReport ssrc supplied) s = .next t ∧
      s.Stored t ssrc (some e.snapshot) (reportResponse (reportOf e supplied)) := by
  have hk := (Table.lookup_some h).2
  have hx : exec (.buildReport ssrc supplied) s =
      .next ((s.withTable (s.table.put e.snapshot)).respond (reportResponse (reportOf e supplied))) := by
    show execBuildReport ssrc supplied s = _
    unfold execBuildReport
    rw [h]
    rfl
  refine ⟨_, hx, ?_⟩
  unfold State.Stored
  simp only [State.respond_table, State.withTable_table, State.respond_resp]
  refine ⟨?_, ?_, ⟨rfl, rfl, rfl⟩, trivial⟩
  · have hl := Table.lookup_put_self s.table e.snapshot
    rw [snapshot_ssrc, hk] at hl
    exact hl
  · intro k hne
    exact Table.lookup_put_other s.table e.snapshot (by rw [snapshot_ssrc, hk]; exact hne)

/-- A run whose first step answers a next state. -/
theorem run_succ (M : Host.Core) {s t : M.State} (h : M.step s = .next t) (k : Nat) : M.run (k + 1) s = M.run k t := by
  simp [Host.Core.run, h]

end Sys2Proof.Machine
end

