-- ==== Sys2Proof/Tests/Slice0.lean ====
section
/-! SUPPORT. Tests on fixed values, from spec/95_test_vectors.md and the encodings of spec/30_encoding.md, and for every
obligation with hypotheses a witness that they can be met together. -/

namespace Sys2Proof.Tests

open Sys2Proof Sys2Proof.Machine

/-! ## Helpers -/

/-- The state of a next outcome. -/
def nextOf : Outcome → Option State
  | .next t => some t
  | .fault _ => none
  | .refused _ => none

/-- A field of what an instruction answers. -/
def field {α : Type} (i : Instr) (s : State) (f : State → α) : Option α := (nextOf (exec i s)).map f

/-- `Valid(m)` of 95_test_vectors.md, for SSRC 1. -/
def valid (m : U16) : Entry :=
  { ssrc := 1, maxSeq := m, cycles := 0, baseSeq := 0, badSeq := 65537, probation := 0, received := 1,
    expectedPrior := 0, receivedPrior := 0, transitPrev := 0, transitValid := 1, jitter := 0 }

/-- The reset state with a table. -/
def withT (t : Table) : State := State.reset.withTable t

/-- A block of one source and buffers of at most 12 octets: the least parameters R11 allows. -/
def small : State := State.resetWith ⟨1, 12⟩

/-- The fields of a response that RTP_RECEIVED defines. -/
def rx (s : State) : BitVec 4 × BitVec 3 × U32 := (s.resp.status, s.resp.cls, s.resp.res0)

/-- The RTP packet of TR1. -/
def tr1 : List Octet := [0x80, 0x60, 0x00, 0x64, 0x00, 0x00, 0x03, 0xE8, 0x12, 0x34, 0x56, 0x78]

/-- The receiver report of TC1. -/
def tc1 : List Octet := [0x80, 0xC9, 0x00, 0x01, 0xDE, 0xAD, 0xBE, 0xEF]

/-- The report block of TC2. -/
def block8 : List Octet :=
  [0, 0, 0, 8, 0x33, 0, 0, 0x14, 0, 0, 0, 0x96, 0, 0, 0, 0, 0, 0, 0, 0, 0, 0, 0, 0]

/-! ## Well-formedness refuses each ill-formed term -/

/-- 0x00000006 is a legal word (R93), so no ILLEGAL. -/
theorem test_wf_illegal : (Instr.illegal 6).wellFormed = false ∧ (Instr.illegal 7).wellFormed = true := by decide

/-- An RTP packet has at least 12 octets (R70). -/
theorem test_wf_rtpData : (Instr.rtpData 0 0 0 0 0 0 (List.replicate 7 0)).wellFormed = false ∧
    (Instr.rtpData 0 0 0 0 0 0 (List.replicate 8 0)).wellFormed = true := by decide

/-- An RTCP packet has `4·(length+1)` octets (R75). -/
theorem test_wf_rtcpSr : (Instr.rtcpSr 0 0 1 [0, 0, 0]).wellFormed = false := by decide
theorem test_wf_rtcpRr : (Instr.rtcpRr 0 0 0 [0, 0, 0, 0]).wellFormed = false := by decide
theorem test_wf_rtcpSdes : (Instr.rtcpSdes 0 0 2 [0, 0, 0, 0]).wellFormed = false := by decide
theorem test_wf_rtcpBye : (Instr.rtcpBye 0 0 1 []).wellFormed = false := by decide
theorem test_wf_rtcpApp : (Instr.rtcpApp 0 0 1 [0, 0, 0, 0, 0]).wellFormed = false := by decide
theorem test_wf_rtcpOther : (Instr.rtcpOther 205 0 0 1 []).wellFormed = false := by decide

/-- Packet types 200 to 204 have rows of their own (R76). -/
theorem test_wf_rtcpOther_type : (Instr.rtcpOther 204 0 0 0 []).wellFormed = false ∧
    (Instr.rtcpOther 205 0 0 0 []).wellFormed = true ∧ (Instr.rtcpOther 199 0 0 0 []).wellFormed = true := by decide

/-! ## Decoding of words written out from R92, R93, R70 and R74 -/

theorem test_decode_decodeRtp :
    decodeTableWord 32 0b00000000000000000000000000000001 = some (.decodeRtp []) := by decide
theorem test_decode_decodeRtcp :
    decodeTableWord 32 0b00000000000000000000000000000010 = some (.decodeRtcp []) := by decide
theorem test_decode_rtpReceived :
    decodeTableWord 32 0b00000000000000000000000000000011 = some (.rtpReceived 0 0 0 0) := by decide
theorem test_decode_buildReport :
    decodeTableWord 32 0b00000000000000000000000000000100 = some (.buildReport 0 none) := by decide
/-- LSRV is bit 8. -/
theorem test_decode_buildReport_lsrv :
    decodeTableWord 32 0b00000000000000000000000100000100 = some (.buildReport 0 (some (0, 0))) := by decide
theorem test_decode_removeSource :
    decodeTableWord 32 0b00000000000000000000000000000101 = some (.removeSource 0) := by decide
theorem test_decode_querySource :
    decodeTableWord 32 0b00000000000000000000000000000110 = some (.querySource 0) := by decide
/-- Bit 9 is reserved (TB13). -/
theorem test_decode_illegal :
    decodeTableWord 32 0b00000000000000000000001100000100 = some (.illegal 0x00000304) := by decide
/-- TV20: ARG1[31:16] is ignored. -/
theorem test_decode_argument :
    decodeCommand { cmd := 3, arg0 := 1, arg1 := 0x00010065, arg2 := 7, arg3 := 8, buf := [] } =
      .rtpReceived 1 101 7 8 := by decide
/-- V = 2, P = 1, X = 0, CC = 1; M = 1, PT = 0x0A; sequence number 0x0102. -/
theorem test_decode_rtpData :
    decodeWords (.rtp [0b10100001, 0b10001010, 0x01, 0x02, 1, 2, 3, 4, 5, 6, 7, 8]) =
      some (.rtpData 1 0 1 1 0x0A 0x0102 [1, 2, 3, 4, 5, 6, 7, 8]) := by decide
/-- V = 2, P = 0, count 1; PT = 200; length 1. -/
theorem test_decode_rtcpSr :
    decodeWords (.rtcp [0b10000001, 0b11001000, 0, 1, 1, 2, 3, 4]) = some (.rtcpSr 0 1 1 [1, 2, 3, 4]) := by decide
/-- V = 2, P = 1, count 31; PT = 201; length 0. -/
theorem test_decode_rtcpRr : decodeWords (.rtcp [0b10111111, 0b11001001, 0, 0]) = some (.rtcpRr 1 31 0 []) := by decide
theorem test_decode_rtcpSdes :
    decodeWords (.rtcp [0b10000010, 0b11001010, 0, 1, 5, 6, 7, 8]) = some (.rtcpSdes 0 2 1 [5, 6, 7, 8]) := by decide
theorem test_decode_rtcpBye : decodeWords (.rtcp [0b10000000, 0b11001011, 0, 0]) = some (.rtcpBye 0 0 0 []) := by decide
theorem test_decode_rtcpApp :
    decodeWords (.rtcp [0b10000011, 0b11001100, 0, 1, 9, 9, 9, 9]) = some (.rtcpApp 0 3 1 [9, 9, 9, 9]) := by decide
theorem test_decode_rtcpOther :
    decodeWords (.rtcp [0b10000000, 0b11001101, 0, 0]) = some (.rtcpOther 205 0 0 0 []) := by decide
/-- The five named types of the opcode table, and the word both unnamed rows match. -/
theorem test_decode_table_wire :
    decodeTableWord 32 0x80C80000 = some (.rtcpSr 0 0 0 []) ∧ decodeTableWord 32 0x80C90000 = some (.rtcpRr 0 0 0 []) ∧
    decodeTableWord 32 0x80CA0000 = some (.rtcpSdes 0 0 0 []) ∧ decodeTableWord 32 0x80CB0000 = some (.rtcpBye 0 0 0 []) ∧
    decodeTableWord 32 0x80CC0000 = some (.rtcpApp 0 0 0 []) ∧ decodeTableWord 32 0x80CD0000 =
      some (.rtcpOther 205 0 0 0 []) ∧
    decodeTableWord 32 0x80000000 = some (.rtpData 0 0 0 0 0 0 (List.replicate 8 0)) := by decide
/-- Wrong version, too few octets, octets beyond the packet: no wire instruction. -/
theorem test_decode_refused :
    decodeWords (.rtp [0x40, 0, 0, 0, 0, 0, 0, 0, 0, 0, 0, 0]) = none ∧ decodeWords (.rtcp [0x80, 0xC9, 0]) = none ∧
    decodeWords (.rtcp [0x80, 0xCB, 0, 0, 0]) = none := by decide

/-! ## One instruction on a small state -/

/-- TR2: CC = 2, marker, two payload octets. -/
theorem test_decodeRtp : field (.decodeRtp [0x82, 0xE1, 0xFF, 0xFF, 0x80, 0, 0, 1, 0, 0, 0, 0x42, 0xAA, 0xAA, 0xAA, 0xAA,
    0xBB, 0xBB, 0xBB, 0xBB, 1, 2]) State.reset (fun t => (t.resp.status, t.resp.rtp.marker, t.resp.rtp.csrc,
      t.resp.rtp.payloadOffset)) = some (0, 1, [0xAAAAAAAA, 0xBBBBBBBB], 20) := by decide
/-- TR13: the version check comes before the CSRC check. -/
theorem test_decodeRtp_order : field (.decodeRtp (0x0F :: List.replicate 11 0)) State.reset (fun t => t.resp.status) =
    some 3 := by decide
/-- TR4: an extension without data. -/
theorem test_rtpData : field (.rtpData 0 1 0 0 96 1 [0, 0, 0, 2, 0, 0, 0, 3, 0xBE, 0xDE, 0, 0]) State.reset
    (fun t => (t.resp.status, t.resp.rtp.ext, t.resp.rtp.payloadOffset, t.resp.rtp.payload)) =
    some (0, some { profile := 0xBEDE, length := 0, data := [] }, 16, []) := by decide
/-- TC22: the second packet has version 3; PKTS holds the first. -/
theorem test_decodeRtcp : field (.decodeRtcp (tc1 ++ [0xC0, 0xC9, 0, 1, 0xDE, 0xAD, 0xBE, 0xEF])) State.reset
    (fun t => (t.resp.status, t.resp.pkts.map RtcpPacket.body)) = some (3, [.rr 0xDEADBEEF []]) := by decide
/-- TC21: a trailing fragment. -/
theorem test_decodeRtcp_fragment : field (.decodeRtcp (tc1 ++ [0x80, 0])) State.reset
    (fun t => (t.resp.status, t.resp.pkts.length)) = some (4, 1) := by decide
/-- TC4: a negative cumulative count is returned as read. -/
theorem test_rtcpSr : field (.rtcpSr 0 1 12 [0, 0, 0, 2, 0xE0, 0, 0, 0, 0x80, 0, 0, 0, 0, 0, 0x10, 0, 0, 0, 0, 5, 0, 0, 3,
    0x20, 0, 0, 0, 9, 0x80, 0xFF, 0xFF, 0xFF, 0, 1, 0, 5, 0, 0, 0, 0x10, 0x11, 0x22, 0x33, 0x44, 0, 0, 0x80, 0])
    State.reset (fun t => (t.resp.status, t.resp.pkts.map RtcpPacket.body)) =
    some (0, [.sr 2 0xE0000000 0x80000000 4096 5 800 [⟨9, 128, -1, 65541, 16, 0x11223344, 0x8000⟩]]) := by decide
/-- TC16: four octets of padding. -/
theorem test_rtcpRr : field (.rtcpRr 1 0 2 [0, 0, 0, 1, 0, 0, 0, 4]) State.reset
    (fun t => (t.resp.status, t.resp.pkts.map fun p => (p.padLen, p.body))) = some (0, [(4, .rr 1 [])]) := by decide
/-- TC17: more padding than octets after the header. -/
theorem test_rtcpRr_padding : field (.rtcpRr 1 0 2 [0, 0, 0, 1, 0, 0, 0, 9]) State.reset
    (fun t => (t.resp.status, t.resp.pkts)) = some (4, []) := by decide
/-- TC29: END and padding, then a chunk that ends at the content boundary. -/
theorem test_rtcpSdes : field (.rtcpSdes 0 2 3 [0, 0, 0, 1, 0, 0, 0, 0, 0, 0, 0, 2]) State.reset
    (fun t => (t.resp.status, t.resp.pkts.map RtcpPacket.body)) = some (0, [.sdes [⟨1, []⟩, ⟨2, []⟩]]) := by decide
/-- TC6: one item. -/
theorem test_rtcpSdes_item : field (.rtcpSdes 0 1 3 [0, 0, 0, 1, 1, 2, 0x61, 0x62, 0, 0, 0, 0]) State.reset
    (fun t => (t.resp.status, t.resp.pkts.map RtcpPacket.body)) =
    some (0, [.sdes [⟨1, [⟨1, 2, [0x61, 0x62]⟩]⟩]]) := by decide
/-- TC10: a reason that fills its word. -/
theorem test_rtcpBye : field (.rtcpBye 0 1 2 [0, 0, 0, 1, 3, 0x62, 0x79, 0x65]) State.reset
    (fun t => (t.resp.status, t.resp.pkts.map RtcpPacket.body)) = some (0, [.bye [1] (some [0x62, 0x79, 0x65])]) := by
  decide
/-- TC12: a reason longer than the content. -/
theorem test_rtcpBye_reason : field (.rtcpBye 0 1 2 [0, 0, 0, 1, 5, 0x62, 0x79, 0x65]) State.reset
    (fun t => t.resp.status) = some 4 := by decide
/-- TC14. -/
theorem test_rtcpApp : field (.rtcpApp 0 3 2 [0x4E, 0x41, 0x4D, 0x45, 1, 2, 3, 4]) State.reset
    (fun t => (t.resp.status, t.resp.pkts.map RtcpPacket.body)) =
    some (0, [.app 3 [0x4E, 0x41, 0x4D, 0x45, 1, 2, 3, 4]]) := by decide
/-- TC15. -/
theorem test_rtcpOther : field (.rtcpOther 205 0 0 1 [0xAA, 0xBB, 0xCC, 0xDD]) State.reset
    (fun t => (t.resp.status, t.resp.pkts.map fun p => (p.pt, p.body))) =
    some (0, [(205, .other [0xAA, 0xBB, 0xCC, 0xDD])]) := by decide
/-- TV9: the sequence number wraps. -/
theorem test_rtpReceived_wrap : field (.rtpReceived 1 200 0 0) (withT [{ valid 65000 with cycles := 196608 }])
    (fun t => (rx t, (t.table.lookup 1).map fun e => (e.cycles, e.maxSeq))) =
    some ((0, 3, 262344), some (262144, 200)) := by decide
/-- TJ6: the largest transit difference. -/
theorem test_rtpReceived_jitter : field (.rtpReceived 1 101 0 0x80000000) (withT [valid 100])
    (fun t => (t.table.lookup 1).map fun e => (e.jitter, e.transitPrev)) = some (some (134217728, 0x80000000)) := by
  decide
/-- The entry of TB11. -/
def tb11 : Entry :=
  { valid 10 with
    ssrc := 0xCAFEBABE, cycles := 65536, baseSeq := 65000, received := 500, jitter := 0x1234
    expectedPrior := 400, receivedPrior := 390 }

/-- TB11: every field of the report. -/
theorem test_buildReport : field (.buildReport 0xCAFEBABE (some (0xA1B2C3D4, 0x00012000))) (withT [tb11]) (fun t => (t.resp.status, t.resp.out.octets 0 24)) =
    some (0, [0xCA, 0xFE, 0xBA, 0xBE, 0x40, 0, 0, 0x2F, 0, 1, 0, 0x0A, 0, 0, 0x12, 0x34, 0xA1, 0xB2, 0xC3, 0xD4, 0, 1,
      0x20, 0]) := by decide
/-- TB7: a negative expected count; the snapshot stores it. -/
theorem test_buildReport_negative : field (.buildReport 1 none)
    (withT [{ valid 50 with baseSeq := 100, probation := 1 }])
    (fun t => (t.resp.rb.fraction, t.resp.rb.cumLost, t.resp.rb.extMax,
      (t.table.lookup 1).map fun e => (e.expectedPrior.toInt, e.receivedPrior))) = some (0, 0, 50, some (-49, 1)) := by
  decide
/-- TS1 and TS3. -/
theorem test_removeSource : field (.removeSource 1) (withT [valid 10]) (fun t => (t.resp.status, t.table)) =
    some (0, []) := by decide
theorem test_removeSource_absent : field (.removeSource 7) (withT [valid 10]) (fun t => (t.resp.status, t.table)) =
    some (7, [valid 10]) := by decide
/-- TS5. -/
theorem test_querySource : field (.querySource 1) (withT [valid 101]) (fun t => (t.resp.status, t.resp.q)) =
    some (0, valid 101) := by decide
/-- TS11: the buffer of an illegal command is not read. -/
theorem test_illegal : (nextOf (step (State.reset.withPending
    [.command { cmd := 0x101, arg0 := 0, arg1 := 0, arg2 := 0, arg3 := 0, buf := tr1 }]))).map
    (fun t => (t.resp.status, t.resp.rtp)) = some (5, RtpPacket.zero) := by decide
/-- RECV_RTP on TR1 issues RTP_RECEIVED of the record's fields (R99); what that does not read is entry 22's choice. -/
theorem test_recvRtp : (nextOf (step (State.reset.withPending [.recvRtp tr1 1010]))).map (fun t => t.pending) =
    some [.command { cmd := 3, arg0 := 0x12345678, arg1 := 100, arg2 := 1000, arg3 := 1010, buf := [] }] := by decide

/-! ## Witnesses: reset and the step -/

theorem witness_ResetSignalFreesEverySource :
    ((withT [valid 1]).withPending [.reset]).pending = .reset :: [] := by decide

/-- The least parameters. -/
theorem witness_ResetStateMeetsInvariant : (⟨1, 12⟩ : Params).wf = true := by decide

theorem witness_StepKeepsInvariant :
    ((withT [valid 100]).withPending [.command (argCommand 3 1 101 0 0)]).inv = true ∧
    (∃ t, step ((withT [valid 100]).withPending [.command (argCommand 3 1 101 0 0)]) = .next t) ∧
    State.reset.inv = true ∧ (∃ t, step State.reset = .next t) := by
  refine ⟨by decide, ⟨_, rfl⟩, by decide, ⟨_, rfl⟩⟩

theorem witness_CommandStepRunsDecodedInstruction :
    (Instr.querySource 7).wellFormed = true ∧ encode (.querySource 7) = .command (argCommand 6 7 0 0 0) ∧
    (State.reset.withPending [.command (argCommand 6 7 0 0 0)]).pending =
      .command (argCommand 6 7 0 0 0) :: [] := by decide

theorem witness_DecodeCommandRunsWireRow :
    ((Instr.rtpData 0 0 0 0 96 100 (tr1.drop 4)).wellFormed = true ∧ tr1.length ≤ small.params.maxBufOctets ∧
      encode (.rtpData 0 0 0 0 96 100 (tr1.drop 4)) = .rtp tr1) ∧
    ((Instr.rtcpRr 0 0 1 (tc1.drop 4)).wellFormed = true ∧ tc1.length ≤ small.params.maxBufOctets ∧
      encode (.rtcpRr 0 0 1 (tc1.drop 4)) = .rtcp tc1) := by decide

/-- The second part has the least size, and lies once inside and once outside the error-free buffers. -/
theorem witness_CompoundBufferDecodesInParts_append : ∀ b ∈ [[0x80, 0xCB, 0, 0], ([0x40, 0xCB, 0, 0] : List Octet)],
    tc1.length + b.length ≤ small.params.maxBufOctets ∧ 4 ≤ b.length ∧
    ∃ t u, exec (.decodeRtcp tc1) small = .next t ∧ t.resp.status = Status.ok.code ∧
      exec (.decodeRtcp b) small = .next u := by
  intro b hb
  simp only [List.mem_cons, List.not_mem_nil, or_false] at hb
  rcases hb with rfl | rfl
  · exact ⟨by decide, by decide, _, _, rfl, rfl, rfl⟩
  · exact ⟨by decide, by decide, _, _, rfl, rfl, rfl⟩

/-- A report of one block too few (TC24), with nothing and with one octet after it. -/
theorem witness_CompoundBufferDecodesInParts : ∀ b ∈ [[], ([0x80] : List Octet)],
    (Instr.rtcpRr 0 1 1 (tc1.drop 4)).wellFormed = true ∧
    encode (.rtcpRr 0 1 1 (tc1.drop 4)) = .rtcp (0x81 :: tc1.drop 1) ∧
    (0x81 :: tc1.drop 1).length + b.length ≤ small.params.maxBufOctets ∧
    ∃ t, exec (.rtcpRr 0 1 1 (tc1.drop 4)) (small.respond (Response.ofStatus .ok)) = .next t ∧
      t.resp.status ≠ Status.ok.code := by
  intro b hb
  simp only [List.mem_cons, List.not_mem_nil, or_false] at hb
  rcases hb with rfl | rfl
  · exact ⟨by decide, by decide, by decide, _, rfl, by decide⟩
  · exact ⟨by decide, by decide, by decide, _, rfl, by decide⟩

theorem witness_TrailingFragmentIsMismatch : ∀ b ∈ [[0x80], ([0x80, 0xC9, 0] : List Octet)],
    tc1.length + b.length ≤ small.params.maxBufOctets ∧ 1 ≤ b.length ∧ b.length ≤ 3 ∧
    ∃ t, exec (.decodeRtcp tc1) small = .next t ∧ t.resp.status = Status.ok.code := by
  intro b hb
  simp only [List.mem_cons, List.not_mem_nil, or_false] at hb
  rcases hb with rfl | rfl
  · exact ⟨by decide, by decide, by decide, _, rfl, rfl⟩
  · exact ⟨by decide, by decide, by decide, _, rfl, rfl⟩

theorem witness_IdleBlockHoldsItsState : State.reset.pending = [] := rfl

/-- RECV_RTP on a packet that decodes, and on one that does not. -/
theorem witness_RecvRtpIssuesTwoCommands : ∀ buf ∈ [tr1, tr1.drop 1],
    (small.withPending [.recvRtp buf 5]).pending = .recvRtp buf 5 :: [] ∧
    (∃ t, exec (.decodeRtp buf) (small.withPending []) = .next t ∧
      (t.resp.status = Status.ok.code ↔ buf = tr1)) := by
  intro buf hb
  simp only [List.mem_cons, List.not_mem_nil, or_false] at hb
  rcases hb with rfl | rfl
  · exact ⟨rfl, _, rfl, by decide⟩
  · exact ⟨rfl, _, rfl, by decide⟩

theorem witness_DecodeEncodeRoundTrip : (Instr.rtpData 1 1 15 1 127 65535 (List.replicate 8 0)).wellFormed = true ∧
    (Instr.illegal 0).wellFormed = true ∧ (Instr.rtcpBye 1 31 1 [0, 0, 0, 4]).wellFormed = true := by decide

/-- One word for each reason of R94, at its boundary. -/
theorem witness_IllegalWordsAreRefused : ∀ w ∈ [0x00000000, 0x00000007, 0x00000200, (0x00000103 : U32)],
    (small.withPending [.command (argCommand w 0 0 0 0)]).pending = .command (argCommand w 0 0 0 0) :: [] ∧
    (w.toNat % 256 = 0 ∨ 7 ≤ w.toNat % 256 ∨ w.toNat / 512 ≠ 0 ∨ (w.toNat / 256 % 2 = 1 ∧ w.toNat % 256 ≠ 4)) := by
  intro w hw
  simp only [List.mem_cons, List.not_mem_nil, or_false] at hw
  rcases hw with rfl | rfl | rfl | rfl
  · exact ⟨rfl, Or.inl rfl⟩
  · exact ⟨rfl, Or.inr (Or.inl (by decide))⟩
  · exact ⟨rfl, Or.inr (Or.inr (Or.inl (by decide)))⟩
  · exact ⟨rfl, Or.inr (Or.inr (Or.inr (by decide)))⟩

/-! ## Witnesses: RTP_RECEIVED -/

theorem witness_NewSourceIsAccepted : small.table.lookup 5 = none ∧ small.table.count < small.params.maxSources := by
  decide

/-- TV16. -/
theorem witness_FullTableRefusesNewSource : (small.withTable [valid 10]).table.lookup 2 = none ∧
    (small.withTable [valid 10]).params.maxSources ≤ (small.withTable [valid 10]).table.count := by decide

theorem witness_ProbationCountsDownOnMatch :
    (withT [{ valid 100 with probation := 1 }]).table.lookup 1 = some { valid 100 with probation := 1 } ∧
    (1 : BitVec 8) ≠ 0 ∧ (101 : U16).toNat = (valid 100).maxSeq.toNat + 1 := by decide

/-- TV14 and TV15: 0 after 65535, and the same number again. -/
theorem witness_ProbationMismatchRearms : ∀ m ∈ [(65535 : U16), 0],
    (withT [{ valid m with probation := 1 }]).table.lookup 1 = some { valid m with probation := 1 } ∧
    (1 : BitVec 8) ≠ 0 ∧ (0 : U16).toNat ≠ (valid m).maxSeq.toNat + 1 := by
  intro m hm
  simp only [List.mem_cons, List.not_mem_nil, or_false] at hm
  rcases hm with rfl | rfl <;> exact ⟨rfl, by decide, by simp [valid]⟩

/-- Distances 1 and 2999, and a wrap (TV1, TV2, TV8). -/
theorem witness_InOrderPacketIsAccepted : ∀ p ∈ [((100 : U16), (101 : U16)), (100, 3099), (65535, 0)],
    (withT [valid p.1]).table.lookup 1 = some (valid p.1) ∧ (valid p.1).probation = 0 ∧
    1 ≤ seqDistance (valid p.1) p.2 ∧ seqDistance (valid p.1) p.2 < 3000 := by
  intro p hp
  simp only [List.mem_cons, List.not_mem_nil, or_false] at hp
  rcases hp with rfl | rfl | rfl <;> exact ⟨rfl, rfl, by simp [seqDistance, valid], by simp [seqDistance, valid]⟩

/-- Distances 3000 and 65436 (TV3, TV4). -/
theorem witness_LargeJumpIsRejected : ∀ q ∈ [(3100 : U16), 0],
    (withT [valid 100]).table.lookup 1 = some (valid 100) ∧ (valid 100).probation = 0 ∧
    3000 ≤ seqDistance (valid 100) q ∧ seqDistance (valid 100) q ≤ 65436 ∧ q.toNat ≠ (valid 100).badSeq.toNat := by
  intro q hq
  simp only [List.mem_cons, List.not_mem_nil, or_false] at hq
  rcases hq with rfl | rfl <;>
    exact ⟨rfl, rfl, by simp [seqDistance, valid], by simp [seqDistance, valid], by simp [valid]⟩

/-- The entry after the jump of W6. -/
def jumped : Entry := { valid 100 with badSeq := 4001 }

theorem witness_AnnouncedJumpRestartsSource :
    (withT [jumped]).table.lookup 1 = some jumped ∧ jumped.probation = 0 ∧ 3000 ≤ seqDistance jumped 4001 ∧
    seqDistance jumped 4001 ≤ 65436 ∧ (4001 : U16).toNat = jumped.badSeq.toNat :=
  ⟨rfl, rfl, by simp [seqDistance, jumped, valid], by simp [seqDistance, jumped, valid], rfl⟩

/-- Distances 0 and 65437 (TV7, TV5). -/
theorem witness_DuplicateIsRejectedButCounted : ∀ q ∈ [(100 : U16), 1],
    (withT [valid 100]).table.lookup 1 = some (valid 100) ∧ (valid 100).probation = 0 ∧
    (seqDistance (valid 100) q = 0 ∨ 65436 < seqDistance (valid 100) q) := by
  intro q hq
  simp only [List.mem_cons, List.not_mem_nil, or_false] at hq
  rcases hq with rfl | rfl <;> exact ⟨rfl, rfl, by simp [seqDistance, valid]⟩

/-- The table of R166 at its boundaries: 0, 2999, 3000, 32767, -32768, -100, -99 and -1. -/
theorem witness_ValidSourceClassBySignedDistance :
    (withT [valid 100]).table.lookup 1 = some (valid 100) ∧ (valid 100).probation = 0 ∧
    ([100, 3099, 3100, 32867, 32868, 0, 1, (99 : U16)].map fun q => (q - (valid 100).maxSeq).toInt) =
      [0, 2999, 3000, 32767, -32768, -100, -99, -1] := by decide

theorem witness_JitterStepIsExact : (valid 0).transitValid = 1 ∧ ({ valid 0 with transitValid := 0 } : Entry).transitValid ≠ 1 := by
  decide

/-- The largest difference, above the estimate, and a difference of 0 below it. -/
theorem witness_JitterEstimateIsBounded :
    ((valid 0).transitValid = 1 ∧ (2 ^ 31 : Int) = |(0x80000000 - 0 - (valid 0).transitPrev : U32).toInt| ∧
      ((valid 0).jitter.toNat : Int) ≤ 2 ^ 31) ∧
    (({ valid 0 with jitter := 40 } : Entry).transitValid = 1 ∧
      (0 : Int) = |(0 - 0 - ({ valid 0 with jitter := 40 } : Entry).transitPrev : U32).toInt| ∧
      (0 : Int) < (({ valid 0 with jitter := 40 } : Entry).jitter.toNat : Int)) := by
  simp [valid]

/-- Estimates on both sides of the floor and on it (R193). -/
theorem witness_JitterDecaysToFifteen : ∀ p ∈ [((0 : U32), (20 : U32)), (15, 15)], ∀ j ∈ [p.1, p.2],
    ({ valid 0 with jitter := j, transitPrev := 5 } : Entry).transitValid = 1 ∧
    (5 - 0 : U32) = ({ valid 0 with jitter := j, transitPrev := 5 } : Entry).transitPrev ∧
    (p.1.toNat ≤ 15 ∧ 15 ≤ p.2.toNat) := by
  intro p hp j hj
  simp only [List.mem_cons, List.not_mem_nil, or_false] at hp
  rcases hp with rfl | rfl <;> exact ⟨rfl, rfl, by decide, by decide⟩

/-- One number for each class the statement speaks of. -/
theorem witness_ExtendedMaximumInOrderDuplicateAndJump :
    (withT [valid 100]).table.lookup 1 = some (valid 100) ∧ (valid 100).probation = 0 ∧
    (∃ t, exec (.rtpReceived 1 101 0 0) (withT [valid 100]) = .next t ∧ t.resp.cls = RxClass.inOrder.code) ∧
    (∃ t, exec (.rtpReceived 1 99 0 0) (withT [valid 100]) = .next t ∧ t.resp.cls = RxClass.duplicate.code) ∧
    (∃ t, exec (.rtpReceived 1 3100 0 0) (withT [valid 100]) = .next t ∧ t.resp.cls = RxClass.jump.code) :=
  ⟨by decide, by decide, ⟨_, rfl, rfl⟩, ⟨_, rfl, rfl⟩, ⟨_, rfl, rfl⟩⟩

theorem witness_OnlyTheNamedSourceChanges :
    (∃ t, exec (.rtpReceived 1 101 0 0) (withT [valid 100]) = .next t) ∧
    (∃ t, exec (.buildReport 1 none) (withT [valid 100]) = .next t) ∧
    (∃ t, exec (.removeSource 1) (withT [valid 100]) = .next t) ∧
    (∃ t, exec (.querySource 1) (withT [valid 100]) = .next t) := ⟨⟨_, rfl⟩, ⟨_, rfl⟩, ⟨_, rfl⟩, ⟨_, rfl⟩⟩

theorem witness_OnlyRestartReturnsToProbation :
    ((withT [jumped]).withPending [.command (argCommand 3 1 4001 0 0)]).inv = true ∧
    (withT [jumped]).table.lookup 1 = some jumped ∧ jumped.probation = 0 ∧
    ∃ t, step ((withT [jumped]).withPending [.command (argCommand 3 1 4001 0 0)]) = .next t ∧
      ∃ e', t.table.lookup 1 = some e' ∧ e'.probation ≠ 0 :=
  ⟨by decide, by decide, by decide, _, rfl, createdEntry 1 4001 0, rfl, by decide⟩

/-! ## Witnesses: the reports and the sources -/

/-- The entry of W8. -/
def w8 : Entry := { valid 150 with ssrc := 8, baseSeq := 1, received := 130, expectedPrior := 100, receivedPrior := 90 }

theorem witness_ReportIsBuiltFromCounters : (withT [w8]).table.lookup 8 = some w8 := by decide

theorem witness_UnknownSourceIsRefused : (withT [w8]).table.lookup 99 = none := by decide

/-- An empty interval, nothing lost, and the rounding at and below one half (R211(d)); W8 for the last clause. -/
theorem witness_FractionLostIsRounded :
    ((0 : Int) ≤ 0 ∨ (5 : Int) ≤ 0) ∧ ((5 : Int) ≤ 0 ∨ (0 : Int) ≤ 0) ∧
    ((0 : Int) < 512 ∧ (0 : Int) < 1 ∧ fractionOf 512 1 = 1) ∧
    ((0 : Int) < 513 ∧ (0 : Int) < 1 ∧ fractionOf 513 1 = 0) ∧ fractionOf 100 100 = 255 ∧
    (withT [w8]).table.lookup 8 = some w8 ∧ ∃ t, exec (.buildReport 8 none) (withT [w8]) = .next t :=
  ⟨by decide, by decide, by decide, by decide, by decide, by decide, _, rfl⟩

/-- TB6's entry, whose count saturates. -/
def tb6 : Entry := { valid 0 with ssrc := 6, cycles := 0x01000000, received := 5 }

theorem witness_CumulativeLostSaturates : (withT [tb6]).table.lookup 6 = some tb6 ∧
    0x7FFFFF < expectedOf tb6 - tb6.received.toNat ∧ ∃ t, exec (.buildReport 6 none) (withT [tb6]) = .next t :=
  ⟨by decide, by decide, _, rfl⟩

theorem witness_OutHoldsTheReportBlock : (withT [w8]).table.lookup 8 = some w8 ∧
    ∃ t, exec (.buildReport 8 (some (1, 2))) (withT [w8]) = .next t := ⟨by decide, _, rfl⟩

theorem witness_ReportBlockDecodesBack : (withT [tb6]).table.lookup 6 = some tb6 ∧
    ∃ t, exec (.buildReport 6 (some (1, 2))) (withT [tb6]) = .next t := ⟨by decide, _, rfl⟩

theorem witness_SecondReportHasEmptyInterval : (withT [w8]).table.lookup 8 = some w8 ∧
    ∃ t, exec (.buildReport 8 none) (withT [w8]) = .next t ∧ ∃ u, exec (.buildReport 8 (some (1, 2))) t = .next u :=
  ⟨by decide, _, rfl, _, rfl⟩

/-- A source that is there, and one that is not. -/
theorem witness_RemovedSourceIsGone : (withT [valid 10]).inv = true ∧
    (withT [valid 10]).table.lookup 1 = some (valid 10) ∧ (withT [valid 10]).table.lookup 2 = none := by decide

theorem witness_RemovedSourceStartsAnew : (small.withTable [valid 10]).inv = true ∧
    (small.withTable [valid 10]).table.lookup 1 = some (valid 10) ∧
    ∃ t, exec (.removeSource 1) (small.withTable [valid 10]) = .next t := ⟨by decide, by decide, _, rfl⟩

theorem witness_QueryCopiesTheEntry : (withT [w8]).table.lookup 8 = some w8 ∧ (withT [w8]).table.lookup 9 = none := by
  decide

/-! ## Witnesses: DECODE_RTP -/

/-- Each error at its boundary: 13 of 12 octets; 11 octets; version 1 (TR7); one octet of the CSRC list missing; no
extension header; extension data missing. -/
theorem witness_RtpErrorsComeInOrder :
    small.params.maxBufOctets < (tr1 ++ [0]).length ∧
    ((tr1.drop 1).length ≤ small.params.maxBufOctets ∧ (tr1.drop 1).length < 12) ∧
    (12 ≤ (0x40 :: tr1.drop 1).length ∧ (octetAt (0x40 :: tr1.drop 1) 0).toNat / 64 ≠ 2) ∧
    (∀ buf ∈ [0x81 :: List.replicate 14 0, 0x90 :: List.replicate 14 0,
        (0x90 :: List.replicate 14 0 ++ [1, 0, 0, 0] : List Octet)],
      buf.length ≤ State.reset.params.maxBufOctets ∧ 12 ≤ buf.length ∧ (octetAt buf 0).toNat / 64 = 2) ∧
    (0x81 :: List.replicate 14 0 : List Octet).length < 12 + 4 * ccOf (0x81 :: List.replicate 14 0) ∧
    (0x90 :: List.replicate 14 0 : List Octet).length < 12 + 4 * ccOf (0x90 :: List.replicate 14 0) + 4 ∧
    (0x90 :: List.replicate 14 0 ++ [1, 0, 0, 0] : List Octet).length <
      12 + 4 + 4 * extLenOf (0x90 :: List.replicate 14 0 ++ [1, 0, 0, 0]) 12 ∧
    (octetAt (0x90 :: List.replicate 14 0) 0).toNat / 16 % 2 = 1 := by decide

/-- A packet without an extension (TR1) and one whose extension just fits (TR4). -/
theorem witness_RtpPacketIsDecoded :
    (tr1.length ≤ small.params.maxBufOctets ∧ 12 ≤ tr1.length ∧ (octetAt tr1 0).toNat / 64 = 2 ∧
      12 + 4 * ccOf tr1 ≤ tr1.length ∧ ¬hasExtension tr1) ∧
    (∀ buf ∈ [([0x90, 0x60, 0, 1, 0, 0, 0, 2, 0, 0, 0, 3, 0xBE, 0xDE, 0, 0] : List Octet)],
      buf.length ≤ State.reset.params.maxBufOctets ∧ 12 ≤ buf.length ∧ (octetAt buf 0).toNat / 64 = 2 ∧
      12 + 4 * ccOf buf ≤ buf.length ∧ hasExtension buf ∧
      12 + 4 * ccOf buf + 4 + 4 * extLenOf buf (12 + 4 * ccOf buf) ≤ buf.length) := by
  unfold hasExtension
  decide

/-- No CSRC, one CSRC, one octet too few for either, an extension that fits, and the two that do not. -/
theorem witness_RtpDataRowDecodes :
    ((List.replicate 7 0 : List Octet).length < 8 + 4 * (0 : BitVec 4).toNat ∧
      (List.replicate 11 0 : List Octet).length < 8 + 4 * (1 : BitVec 4).toNat) ∧
    (([] : List U32).length = (0 : BitVec 4).toNat ∧ ([7] : List U32).length = (1 : BitVec 4).toNat) ∧
    (0 : BitVec 1) = 0 ∧ (1 : BitVec 1) = 1 ∧
    ([0x12, 0x34, 0, 1, 1, 2, 3, 4, 9] : List Octet) =
      octetsOf2 0x1234 ++ octetsOf2 1 ++ [1, 2, 3, 4] ++ [9] ∧
    ([1, 2, 3, 4] : List Octet).length = 4 * (1 : U16).toNat ∧ ([0, 0, 0] : List Octet).length < 4 ∧
    ([0, 0, 0, 1, 1, 2, 3] : List Octet).length <
      4 + 4 * ((octetAt [0, 0, 0, 1, 1, 2, 3] 2).toNat * 256 + (octetAt [0, 0, 0, 1, 1, 2, 3] 3).toNat) := by decide

/-- The record of TR3, and one with 15 CSRCs. -/
def rtpRecords : List RtpPacket :=
  [⟨2, 0, 1, 0, 0, 10, 1, 2, 3, [], some ⟨0x1234, 1, [1, 2, 3, 4]⟩, 20, [0xFF]⟩,
   ⟨2, 0, 0, 15, 0, 0, 0, 0, 0, List.replicate 15 7, none, 72, []⟩]

theorem witness_RtpRecordRoundTrip : ∀ p ∈ rtpRecords,
    p.representable = true ∧ (layoutRtp p).length ≤ State.reset.params.maxBufOctets := by decide

theorem witness_DecodedRtpRecordLaysOutAsBuffer :
    ∃ t, exec (.decodeRtp tr1) small = .next t ∧ t.resp.status = Status.ok.code := ⟨_, rfl, rfl⟩

/-! ## Witnesses: DECODE_RTCP -/

/-- 13 of 12 octets; 3 and 0 octets. -/
theorem witness_RtcpBufferSizeIsChecked : small.params.maxBufOctets < (List.replicate 13 0 : List Octet).length ∧
    (∀ buf ∈ [[], ([0x80, 0xC9, 0] : List Octet)], buf.length ≤ small.params.maxBufOctets ∧ buf.length < 4) := by decide

/-- Versions 1 and 3 (TC22), and a length one word too large, in buffers of the least and the greatest size. -/
theorem witness_RtcpFramingErrorsComeInOrder :
    (∀ buf ∈ [([0x40, 0xC9, 0, 0] : List Octet), 0xC0 :: List.replicate 11 0],
      4 ≤ buf.length ∧ buf.length ≤ small.params.maxBufOctets ∧ (octetAt buf 0).toNat / 64 ≠ 2) ∧
    (∀ buf ∈ [([0x80, 0xC9, 0, 1] : List Octet), [0x80, 0xC9, 0, 3, 0, 0, 0, 0, 0, 0, 0, 0]],
      4 ≤ buf.length ∧ buf.length ≤ small.params.maxBufOctets ∧ (octetAt buf 0).toNat / 64 = 2 ∧
      buf.length < 4 * ((octetAt buf 2).toNat * 256 + (octetAt buf 3).toNat + 1)) := by decide

/-- Padding of none, and of four octets. -/
theorem padded_none (body : List Octet) : PaddedBy 0 body 0 := Or.inl ⟨rfl, rfl⟩
theorem padded_four : PaddedBy 1 [0, 0, 0, 1, 0, 0, 0, 4] 4 := Or.inr ⟨rfl, by decide, by decide, by decide⟩

/-- A sender report of the size its count gives (TC3), and one that is four octets short. -/
theorem witness_SenderReportRowDecodes :
    (PaddedBy 0 (List.replicate 24 0) 0 ∧ (List.replicate 24 0 : List Octet).length = 4 * (6 : U16).toNat ∧
      (List.replicate 24 0 : List Octet).length - (0 : Octet).toNat = 24 + 24 * (0 : BitVec 5).toNat) ∧
    (PaddedBy 0 (List.replicate 20 0) 0 ∧ (List.replicate 20 0 : List Octet).length = 4 * (5 : U16).toNat ∧
      (List.replicate 20 0 : List Octet).length - (0 : Octet).toNat ≠ 24 + 24 * (0 : BitVec 5).toNat) :=
  ⟨⟨padded_none _, by decide, by decide⟩, padded_none _, by decide, by decide⟩

/-- A padded receiver report (TC16), and one whose count is too large (TC24). -/
theorem witness_ReceiverReportRowDecodes :
    (PaddedBy 1 [0, 0, 0, 1, 0, 0, 0, 4] 4 ∧
      ([0, 0, 0, 1, 0, 0, 0, 4] : List Octet).length = 4 * (2 : U16).toNat ∧
      ([0, 0, 0, 1, 0, 0, 0, 4] : List Octet).length - (4 : Octet).toNat = 4 + 24 * (0 : BitVec 5).toNat) ∧
    (PaddedBy 0 [0, 0, 0, 1] 0 ∧ ([0, 0, 0, 1] : List Octet).length = 4 * (1 : U16).toNat ∧
      ([0, 0, 0, 1] : List Octet).length - (0 : Octet).toNat ≠ 4 + 24 * (1 : BitVec 5).toNat) :=
  ⟨⟨padded_four, by decide, by decide⟩, padded_none _, by decide, by decide⟩

/-- A chunk with END and fill before a chunk at the content boundary (TC29). -/
theorem sdes_two : SdesContent [⟨1, []⟩, ⟨2, []⟩] [0, 0, 0, 1, 0, 0, 0, 0, 0, 0, 0, 2] :=
  SdesContent.ended ⟨1, []⟩ [0, 0, 0] [⟨2, []⟩] [0, 0, 0, 2] (by simp) (by decide)
    (SdesContent.openChunk ⟨2, []⟩ (by simp))

/-- No chunk fits no octets (TC32). -/
theorem sdes_none_fits : ¬∃ chunks : List SdesChunk, SdesContent chunks (contentOf [] 0) ∧
    chunks.length = (1 : BitVec 5).toNat := by
  rintro ⟨chunks, h, hl⟩
  have key : ∀ (cs : List SdesChunk) (o : List Octet), SdesContent cs o → o = [] → cs = [] := by
    intro cs o h he
    cases h with
    | none => rfl
    | openChunk c _ => simp [octetsOf4] at he
    | ended c fill cs o _ _ _ => simp [octetsOf4] at he
  have := key chunks _ h rfl
  subst this
  simp at hl

theorem witness_SdesRowDecodesItsChunks :
    (PaddedBy 0 [0, 0, 0, 1, 0, 0, 0, 0, 0, 0, 0, 2] 0 ∧
      ([0, 0, 0, 1, 0, 0, 0, 0, 0, 0, 0, 2] : List Octet).length = 4 * (3 : U16).toNat ∧
      SdesContent [⟨1, []⟩, ⟨2, []⟩] (contentOf [0, 0, 0, 1, 0, 0, 0, 0, 0, 0, 0, 2] 0) ∧
      ([⟨1, []⟩, ⟨2, []⟩] : List SdesChunk).length = (2 : BitVec 5).toNat) ∧
    (PaddedBy 0 [] 0 ∧ ([] : List Octet).length = 4 * (0 : U16).toNat ∧
      ¬∃ chunks : List SdesChunk, SdesContent chunks (contentOf [] 0) ∧ chunks.length = (1 : BitVec 5).toNat) :=
  ⟨⟨padded_none _, by decide, sdes_two, by decide⟩, padded_none _, by decide, sdes_none_fits⟩

/-- No reason (TC9), a reason (TC10), content too short for the SSRCs, and a reason of the wrong size (TC12). -/
theorem witness_ByeRowDecodes :
    (PaddedBy 0 [0, 0, 0, 1] 0 ∧ ([0, 0, 0, 1] : List Octet).length = 4 * (1 : U16).toNat ∧
      ([0, 0, 0, 1] : List Octet).length - (0 : Octet).toNat = 4 * (1 : BitVec 5).toNat ∧
      ([0, 0, 0, 1] : List Octet).length - (0 : Octet).toNat < 4 * (2 : BitVec 5).toNat) ∧
    (∀ l ∈ [(3 : Octet), 5], PaddedBy 0 [0, 0, 0, 1, l, 0x62, 0x79, 0x65] 0 ∧
      ([0, 0, 0, 1, l, 0x62, 0x79, 0x65] : List Octet).length = 4 * (2 : U16).toNat ∧
      4 * (1 : BitVec 5).toNat < ([0, 0, 0, 1, l, 0x62, 0x79, 0x65] : List Octet).length - (0 : Octet).toNat ∧
      (8 - 4 = roundup4 (1 + (octetAt [0, 0, 0, 1, l, 0x62, 0x79, 0x65] 4).toNat) ↔ l = 3)) := by
  refine ⟨⟨padded_none _, by decide, by decide, by decide⟩, ?_⟩
  intro l hl
  simp only [List.mem_cons, List.not_mem_nil, or_false] at hl
  rcases hl with rfl | rfl <;> exact ⟨padded_none _, rfl, by decide, by decide⟩

theorem witness_AppRowDecodes : PaddedBy 1 [0, 0, 0, 1, 0, 0, 0, 4] 4 ∧
    ([0, 0, 0, 1, 0, 0, 0, 4] : List Octet).length = 4 * (2 : U16).toNat := ⟨padded_four, by decide⟩

theorem witness_OtherRowDecodes : PaddedBy 0 [] 0 ∧ ([] : List Octet).length = 4 * (0 : U16).toNat ∧
    PaddedBy 1 [0, 0, 0, 1, 0, 0, 0, 4] 4 ∧ ([0, 0, 0, 1, 0, 0, 0, 4] : List Octet).length = 4 * (2 : U16).toNat :=
  ⟨padded_none _, by decide, padded_four, by decide⟩

/-- No octet after the header; a last octet of 0 (TC18); and of one more than the octets after the header (TC17). -/
theorem witness_BadPaddingIsMismatch : ∀ p ∈ [((0 : U16), []), (2, [0, 0, 0, 1, 0, 0, 0, 0]),
      ((2 : U16), ([0, 0, 0, 1, 0, 0, 0, 9] : List Octet))],
    p.2.length = 4 * p.1.toNat ∧ (⟨1, 0, 201, p.1⟩ : RtcpHeader).padding = 1 ∧
    (∀ pad, p.2.getLast? = some pad → pad = 0 ∨ p.2.length < pad.toNat) := by
  intro p hp
  simp only [List.mem_cons, List.not_mem_nil, or_false] at hp
  rcases hp with rfl | rfl | rfl
  · exact ⟨rfl, rfl, fun pad h => by cases h⟩
  · exact ⟨rfl, rfl, fun pad h => by cases h; decide⟩
  · exact ⟨rfl, rfl, fun pad h => by cases h; decide⟩

/-- A compound of one record of each type, the first padded. -/
def rtcpRecords : List RtcpPacket :=
  [packetRecord 1 0 201 2 4 (.rr 1 []), packetRecord 0 0 200 6 0 (.sr 2 0xE0000000 0x80000000 4096 5 800 []),
   packetRecord 0 1 202 3 0 (.sdes [⟨1, [⟨1, 2, [0x61, 0x62]⟩]⟩]),
   packetRecord 0 1 203 2 0 (.bye [1] (some [0x62, 0x79, 0x65])), packetRecord 0 3 204 0 0 (.app 3 []),
   packetRecord 0 0 205 1 0 (.other [0xAA, 0xBB, 0xCC, 0xDD])]

theorem witness_RtcpRecordsRoundTrip : rtcpRecords ≠ [] ∧ (∀ p ∈ rtcpRecords, p.representable = true) ∧
    (layoutCompound rtcpRecords).length ≤ State.reset.params.maxBufOctets := by decide

/-! ## Witnesses: all commands -/

theorem witness_ErrorsLeaveTheTable :
    ((withT [valid 1]).withPending [.command (argCommand 6 9 0 0 0)]).pending =
      .command (argCommand 6 9 0 0 0) :: [] ∧
    ∃ t, step ((withT [valid 1]).withPending [.command (argCommand 6 9 0 0 0)]) = .next t ∧
      2 ≤ t.resp.status.toNat := ⟨rfl, _, rfl, by decide⟩

/-- A command other than RTP_RECEIVED, and an RTP_RECEIVED that is not accepted. -/
theorem witness_OutcomeCodesAreTheListedOnes :
    ((∀ ssrc seq rtpTs arrival, decodeCommand (argCommand 6 1 0 0 0) ≠ .rtpReceived ssrc seq rtpTs arrival) ∧
      ∃ t, step ((withT [valid 1]).withPending [.command (argCommand 6 1 0 0 0)]) = .next t) ∧
    ∃ t, step ((withT [valid 1]).withPending [.command (argCommand 3 1 1 0 0)]) = .next t ∧
      t.resp.status ≠ Status.ok.code := by
  have h : decodeCommand (argCommand 6 1 0 0 0) = .querySource 1 := by decide
  refine ⟨⟨fun _ _ _ _ hh => ?_, _, rfl⟩, _, rfl, by decide⟩
  rw [h] at hh
  cases hh

end Sys2Proof.Tests
end

section
/-! SUPPORT. The invariant of the source table and of OUT (R21, R24, R50, R175(a)): it holds at reset, and every command,
and so every step, keeps it. -/

namespace Sys2Proof.Machine

/-! ## The parts of the invariant -/

theorem State.inv_iff (s : State) : s.inv = true ↔
    s.params.wf = true ∧ s.table.wf s.params.maxSources = true ∧ outWf s.resp.out = true := by
  simp only [State.inv, Bool.and_eq_true, and_assoc]

theorem Table.wf_nil (n : Nat) : Table.wf n [] = true :=
  Table.wf_iff.mpr ⟨rfl, Nat.zero_le n, by simp⟩

/-- An entry found in a well-formed table meets R24. -/
theorem Table.wf_of_lookup {n : Nat} {t : Table} (h : t.wf n = true) {ssrc : U32} {e : Entry}
    (hl : t.lookup ssrc = some e) : e.wf = true := by
  obtain ⟨-, -, hentries⟩ := Table.wf_iff.mp h
  exact hentries e (Table.lookup_some hl).1

theorem outWf_nil : outWf [] = true := rfl

theorem outWf_rxResponse (cls : RxClass) (e : Entry) (seq : U16) : outWf (rxResponse cls e seq).out = true := by
  unfold rxResponse
  split <;> exact outWf_nil

theorem outWf_reportResponse (b : ReportBlock) : outWf (reportResponse b).out = true := by
  rw [reportResponse_out]
  exact outWf_encodeBlock b

/-! ## What the updates of a state keep -/

theorem State.inv_withPending (s : State) (p : List HostEvent) : (s.withPending p).inv = s.inv := rfl

/-- A new response keeps the invariant when its OUT is well-formed. -/
theorem State.inv_respond {s : State} (h : s.inv = true) {r : Response} (ho : outWf r.out = true) :
    (s.respond r).inv = true := by
  obtain ⟨hparams, htable, -⟩ := (State.inv_iff s).mp h
  exact (State.inv_iff _).mpr ⟨hparams, htable, ho⟩

/-- So does a new table that is well-formed. -/
theorem State.inv_withTable {s : State} (h : s.inv = true) {t : Table} (ht : t.wf s.params.maxSources = true) :
    (s.withTable t).inv = true := by
  obtain ⟨hparams, -, hout⟩ := (State.inv_iff s).mp h
  exact (State.inv_iff _).mpr ⟨hparams, ht, hout⟩

theorem State.inv_resetWith {p : Params} (h : p.wf = true) : (State.resetWith p).inv = true :=
  (State.inv_iff _).mpr ⟨h, Table.wf_nil _, outWf_nil⟩

/-- The reset signal frees every entry and makes OUT a canonical memory of free values. -/
theorem State.inv_resetSignal {s : State} (h : s.inv = true) : s.resetSignal.inv = true := by
  obtain ⟨hparams, -, -⟩ := (State.inv_iff s).mp h
  refine (State.inv_iff _).mpr ⟨hparams, Table.wf_nil _, ?_⟩
  rw [State.resetSignal_resp, unspecified_out]
  exact outWf_freeOut s.fresh

theorem State.inv_recvNext {s : State} (h : s.inv = true) (arrival : U32) : (s.recvNext arrival).inv = true := by
  obtain ⟨p, hp⟩ := State.recvNext_eq s arrival
  rw [hp, State.inv_withPending, h]

/-! ## Each command keeps the invariant

Every command but BUILD_REPORT leaves OUT empty; only RTP_RECEIVED, BUILD_REPORT and REMOVE_SOURCE write the table. -/

section
variable {s t : State} (h : s.inv = true)
include h

theorem raise_inv {st : Status} (hx : s.raise st = .next t) : t.inv = true := by
  cases hx
  exact State.inv_respond h outWf_nil

theorem emit_inv {r : Except Status RtcpPacket} (hx : s.emit r = .next t) : t.inv = true := by
  cases r <;> cases hx <;> exact State.inv_respond h outWf_nil

theorem finishRtp_inv {r : Except Status RtpPacket} (hx : s.finishRtp r = .next t) : t.inv = true := by
  cases r <;> cases hx <;> exact State.inv_respond h outWf_nil

theorem execDecodeRtp_inv {buf : List Octet} (hx : execDecodeRtp buf s = .next t) : t.inv = true := by
  unfold execDecodeRtp at hx
  split at hx
  · exact raise_inv h hx
  · split at hx
    · exact raise_inv h hx
    · exact finishRtp_inv h hx

theorem execDecodeRtcp_inv {buf : List Octet} (hx : execDecodeRtcp buf s = .next t) : t.inv = true := by
  by_cases hlong : s.params.maxBufOctets < buf.length
  · rw [execDecodeRtcp, if_pos hlong] at hx
    exact raise_inv h hx
  by_cases hshort : buf.length < 4
  · rw [execDecodeRtcp, if_neg hlong, if_pos hshort] at hx
    exact raise_inv h hx
  · rw [execDecodeRtcp_eq (by omega) (by omega)] at hx
    cases hx
    exact State.inv_respond h outWf_nil

/-- RTP_RECEIVED: a new entry is created only while one is free, and a stored entry keeps its key and R24. -/
theorem execRtpReceived_inv {ssrc : U32} {seq : U16} {rtpTs arrival : U32}
    (hx : execRtpReceived ssrc seq rtpTs arrival s = .next t) : t.inv = true := by
  obtain ⟨-, htable, -⟩ := (State.inv_iff s).mp h
  unfold execRtpReceived at hx
  split at hx
  case h_1 hnone =>
    split at hx
    case isTrue => exact raise_inv h hx
    case isFalse hroom =>
      cases hx
      have hput := Table.wf_put_of_room htable (wf_initEntry ssrc seq rtpTs arrival) (by omega)
      exact State.inv_respond (State.inv_withTable h hput) (outWf_rxResponse _ _ _)
  case h_2 e hsome =>
    cases hx
    have hkey : e.ssrc = ssrc := (Table.lookup_some hsome).2
    have hwf : e.wf = true := Table.wf_of_lookup htable hsome
    have hput := Table.wf_put_of_some htable (wf_stored hwf seq rtpTs arrival) (d := e)
      (by rw [stored_ssrc, validate_ssrc, hkey, hsome])
    exact State.inv_respond (State.inv_withTable h hput) (outWf_rxResponse _ _ _)

/-- BUILD_REPORT: the entry stored is the snapshot of the one found, and OUT is the encoded block. -/
theorem execBuildReport_inv {ssrc : U32} {supplied : Option (U32 × U32)}
    (hx : execBuildReport ssrc supplied s = .next t) : t.inv = true := by
  obtain ⟨-, htable, -⟩ := (State.inv_iff s).mp h
  unfold execBuildReport at hx
  split at hx
  case h_1 => exact raise_inv h hx
  case h_2 e hsome =>
    cases hx
    have hkey : e.ssrc = ssrc := (Table.lookup_some hsome).2
    have hwf : e.wf = true := Table.wf_of_lookup htable hsome
    have hput := Table.wf_put_of_some htable (wf_snapshot hwf) (d := e) (by rw [snapshot_ssrc, hkey, hsome])
    exact State.inv_respond (State.inv_withTable h hput) (outWf_reportResponse _)

theorem execRemoveSource_inv {ssrc : U32} (hx : execRemoveSource ssrc s = .next t) : t.inv = true := by
  obtain ⟨-, htable, -⟩ := (State.inv_iff s).mp h
  unfold execRemoveSource at hx
  split at hx
  · exact raise_inv h hx
  · cases hx
    exact State.inv_respond (State.inv_withTable h (Table.wf_free htable ssrc)) outWf_nil

theorem execQuerySource_inv {ssrc : U32} (hx : execQuerySource ssrc s = .next t) : t.inv = true := by
  unfold execQuerySource at hx
  split at hx
  · exact raise_inv h hx
  · cases hx
    exact State.inv_respond h outWf_nil

/-- Every instruction keeps the invariant. -/
theorem exec_inv {i : Instr} (hx : exec i s = .next t) : t.inv = true := by
  cases i with
  | decodeRtp => exact execDecodeRtp_inv h hx
  | decodeRtcp => exact execDecodeRtcp_inv h hx
  | rtpReceived => exact execRtpReceived_inv h hx
  | buildReport => exact execBuildReport_inv h hx
  | removeSource => exact execRemoveSource_inv h hx
  | querySource => exact execQuerySource_inv h hx
  | illegal => exact raise_inv h hx
  | rtpData => exact finishRtp_inv h hx
  | rtcpSr => exact emit_inv h hx
  | rtcpRr => exact emit_inv h hx
  | rtcpSdes => exact emit_inv h hx
  | rtcpBye => exact emit_inv h hx
  | rtcpApp => exact emit_inv h hx
  | rtcpOther => exact emit_inv h hx

/-- Every step keeps the invariant, whichever input the host has waiting. -/
theorem step_inv (hx : step s = .next t) : t.inv = true := by
  rcases step_cases s with ⟨-, hs⟩ | ⟨c, rest, -, hs⟩ | ⟨rest, -, hs⟩ | ⟨buf, arrival, rest, u, -, hu, hs⟩
  all_goals rw [hs] at hx
  · cases hx
    exact h
  · exact exec_inv (s := s.withPending rest) h hx
  · cases hx
    exact State.inv_resetSignal (s := s.withPending rest) h
  · cases hx
    exact State.inv_recvNext (exec_inv (s := s.withPending rest) h hu) arrival

end

end Sys2Proof.Machine

open Sys2Proof Sys2Proof.Machine

/-- Settles O3: each kind of host input keeps the invariant (`step_inv`), and of the instructions only RTP_RECEIVED,
BUILD_REPORT and REMOVE_SOURCE touch what it speaks of. -/
theorem stepKeepsInvariant : Obligations.StepKeepsInvariant :=
  fun _ _ h hx => step_inv h hx

/-- Settles O2: an empty table and an empty OUT meet the invariant whatever the parameters, and nothing is found in an
empty table. -/
theorem resetStateMeetsInvariant : Obligations.ResetStateMeetsInvariant :=
  ⟨fun _ h => ⟨State.inv_resetWith h, Table.lookup_nil⟩, rfl,
    State.inv_resetWith (p := Config.resetParams) (by decide)⟩

end

section
/-! SUPPORT. The command words of the opcode map (R93) with their operands (R95), each decoded once; then decoding undoes
encoding for commands (R92 to R95, R98). -/

namespace Sys2Proof

open Machine

/-! ## What each command word decodes to -/

section
variable {c : Command}

theorem decodeCommand_of_illegal (h : illegalWord c.cmd = true) : decodeCommand c = .illegal c.cmd := if_pos h

theorem decodeCommand_of_decodeRtp (h : c.cmd = 0x00000001) : decodeCommand c = .decodeRtp c.buf := by
  rw [decodeCommand, h]; rfl

theorem decodeCommand_of_decodeRtcp (h : c.cmd = 0x00000002) : decodeCommand c = .decodeRtcp c.buf := by
  rw [decodeCommand, h]; rfl

theorem decodeCommand_of_rtpReceived (h : c.cmd = 0x00000003) :
    decodeCommand c = .rtpReceived c.arg0 (c.arg1.extractLsb' 0 16) c.arg2 c.arg3 := by
  rw [decodeCommand, h]; rfl

/-- Without LSRV, `lsr` and `dlsr` are not supplied (R207). -/
theorem decodeCommand_of_buildReport (h : c.cmd = 0x00000004) : decodeCommand c = .buildReport c.arg0 none := by
  rw [decodeCommand, suppliedOf, h]; rfl

theorem decodeCommand_of_buildReport_lsrv (h : c.cmd = 0x00000104) :
    decodeCommand c = .buildReport c.arg0 (some (c.arg1, c.arg2)) := by
  rw [decodeCommand, suppliedOf, h]; rfl

theorem decodeCommand_of_removeSource (h : c.cmd = 0x00000005) : decodeCommand c = .removeSource c.arg0 := by
  rw [decodeCommand, h]; rfl

theorem decodeCommand_of_querySource (h : c.cmd = 0x00000006) : decodeCommand c = .querySource c.arg0 := by
  rw [decodeCommand, h]; rfl

end

/-! ## The round trip of commands -/

/-- ARG1 of RTP_RECEIVED carries the sequence number in its low half (R95). -/
theorem extractLsb'_setWidth_seq (seq : U16) : (seq.setWidth 32).extractLsb' 0 16 = seq := by
  apply BitVec.eq_of_toNat_eq
  rw [BitVec.extractLsb'_toNat, BitVec.toNat_setWidth, Nat.shiftRight_zero]
  omega

/-- A well-formed instruction that is encoded as a command is what that command decodes to; the wire rows are not encoded
as commands. -/
theorem decodeCommand_of_encode {i : Instr} {c : Command} (hwf : i.wellFormed = true) (he : encode i = .command c) :
    decodeCommand c = i := by
  cases i with
  | decodeRtp buf => cases he; exact decodeCommand_of_decodeRtp rfl
  | decodeRtcp buf => cases he; exact decodeCommand_of_decodeRtcp rfl
  | rtpReceived ssrc seq rtpTs arrival =>
    cases he
    rw [decodeCommand_of_rtpReceived rfl, argCommand, extractLsb'_setWidth_seq]
  | buildReport ssrc supplied =>
    cases supplied with
    | none => cases he; exact decodeCommand_of_buildReport rfl
    | some p => cases he; exact decodeCommand_of_buildReport_lsrv rfl
  | removeSource ssrc => cases he; exact decodeCommand_of_removeSource rfl
  | querySource ssrc => cases he; exact decodeCommand_of_querySource rfl
  | illegal cmd => cases he; exact decodeCommand_of_illegal hwf
  | rtpData | rtcpSr | rtcpRr | rtcpSdes | rtcpBye | rtcpApp | rtcpOther => cases he

/-! ## The step on a waiting command -/

/-- The step takes the command off the host's inputs and runs its instruction (R57). -/
theorem step_of_command {s : State} {c : Command} {rest : List HostEvent} (h : s.pending = .command c :: rest) :
    step s = exec (decodeCommand c) (s.withPending rest) := by
  rw [step, h]

end Sys2Proof

open Sys2Proof Sys2Proof.Machine

/-- Settles O5: the first clause is the step's own case for a command (`step_of_command`); the second follows since the
encoding of a well-formed command instruction decodes back to it (`decodeCommand_of_encode`). -/
theorem commandStepRunsDecodedInstruction : Obligations.CommandStepRunsDecodedInstruction :=
  ⟨fun _ _ _ hp => step_of_command hp,
    fun _ _ _ _ hwf he hp => by rw [step_of_command hp, decodeCommand_of_encode hwf he]⟩

end

section
/-! SUPPORT. Encoding and decoding of every instruction: the wire words of an RTP and of an RTCP row (R70, R74), the
command words that R93 leaves legal, and the illegal ones (R94). -/

namespace Sys2Proof

open Machine

/-! ## The instructions that are encoded as wire octets -/

theorem bodyFits_iff {length : U16} {body : List Octet} :
    bodyFits length body = true ↔ body.length = 4 * length.toNat := decide_eq_true_iff

/-- A packet type without a row of its own is dispatched to RTCP_OTHER (R125, R132). -/
theorem RtcpHeader.instr_of_unnamed {h : RtcpHeader} (hpt : namedPacketType h.pt = false) (body : List Octet) :
    h.instr body = .rtcpOther h.pt h.padding h.count h.length body := by
  have hne : ∀ n : Octet, namedPacketType n = true → h.pt ≠ n := by
    rintro n hn rfl
    exact absurd hn (by simp [hpt])
  rw [instr, if_neg (hne 200 (by decide)), if_neg (hne 201 (by decide)), if_neg (hne 202 (by decide)),
    if_neg (hne 203 (by decide)), if_neg (hne 204 (by decide))]

/-- Only RTP_DATA is encoded as an RTP packet: word 0, and at least the eight octets R102 asks for after it. -/
theorem encode_rtp {i : Instr} {buf : List Octet} (hwf : i.wellFormed = true) (he : encode i = .rtp buf) :
    ∃ (w : RtpWord) (rest : List Octet), 8 ≤ rest.length ∧ buf = rtpOctets w rest ∧ i = w.instr rest := by
  cases i with
  | rtpData padding extension cc marker pt seq rest =>
    cases he
    exact ⟨_, rest, of_decide_eq_true hwf, rfl, rfl⟩
  | buildReport ssrc supplied => cases supplied <;> cases he
  | decodeRtp | decodeRtcp | rtpReceived | removeSource | querySource | illegal => cases he
  | rtcpSr | rtcpRr | rtcpSdes | rtcpBye | rtcpApp | rtcpOther => cases he

/-- An instruction that is encoded as an RTCP packet is the one its header and body name, and the body has the length
that the header gives (R74 to R76). -/
theorem encode_rtcp {i : Instr} {buf : List Octet} (hwf : i.wellFormed = true) (he : encode i = .rtcp buf) :
    ∃ (h : RtcpHeader) (body : List Octet), body.length = 4 * h.length.toNat ∧ buf = rtcpOctets h body ∧
      i = h.instr body := by
  cases i with
  | rtcpSr padding count length body | rtcpRr padding count length body | rtcpSdes padding count length body
  | rtcpBye padding count length body | rtcpApp padding count length body =>
    cases he
    refine ⟨_, body, ?_, rfl, rfl⟩
    exact bodyFits_iff.mp hwf
  | rtcpOther pt padding count length body =>
    cases he
    simp only [Instr.wellFormed, Bool.and_eq_true, Bool.not_eq_true'] at hwf
    obtain ⟨hfits, hpt⟩ := hwf
    have hinstr := RtcpHeader.instr_of_unnamed (h := { padding, count, pt, length }) hpt body
    exact ⟨_, body, bodyFits_iff.mp hfits, rfl, hinstr.symm⟩
  | buildReport ssrc supplied => cases supplied <;> cases he
  | decodeRtp | decodeRtcp | rtpReceived | removeSource | querySource | illegal | rtpData => cases he

theorem decodeWords_rtpOctets (w : RtpWord) {rest : List Octet} (h : 8 ≤ rest.length) :
    decodeWords (.rtp (rtpOctets w rest)) = some (w.instr rest) := by
  rw [decodeWords, frameRtp_rtpOctets w h]

theorem decodeWords_rtcpOctets (h : RtcpHeader) {body : List Octet} (hb : body.length = 4 * h.length.toNat) :
    decodeWords (.rtcp (rtcpOctets h body)) = some (h.instr body) := by
  have hf := frameRtcp_rtcpOctets h hb []
  rw [List.append_nil] at hf
  rw [decodeWords, hf]

/-- Decoding undoes encoding, in each of the three forms words take: a command, an RTP and an RTCP packet. -/
theorem decodeWords_encode {i : Instr} (hwf : i.wellFormed = true) : decodeWords (encode i) = some i := by
  cases he : encode i with
  | command c => exact congrArg some (decodeCommand_of_encode hwf he)
  | rtp buf =>
    obtain ⟨w, rest, hrest, rfl, rfl⟩ := encode_rtp hwf he
    exact decodeWords_rtpOctets w hrest
  | rtcp buf =>
    obtain ⟨h, body, hb, rfl, rfl⟩ := encode_rtcp hwf he
    exact decodeWords_rtcpOctets h hb

/-! ## Legal and illegal command words -/

/-- The words that R94 does not make illegal are the seven of the opcode map (R93). -/
theorem legalWord_cases {w : U32} (h : ¬illegalWord w = true) :
    w = 0x00000001 ∨ w = 0x00000002 ∨ w = 0x00000003 ∨ w = 0x00000004 ∨ w = 0x00000104 ∨ w = 0x00000005 ∨
      w = 0x00000006 := by
  rw [illegalWord_iff] at h
  simp only [← BitVec.toNat_inj, BitVec.ofNat_eq_ofNat, BitVec.toNat_ofNat]
  omega

/-- ARG1[31:16] of RTP_RECEIVED is ignored (R95). -/
theorem extractLsb'_low16 (v : U32) : v.extractLsb' 0 16 = BitVec.ofNat 16 (v.toNat % 65536) := by
  apply BitVec.eq_of_toNat_eq
  rw [BitVec.extractLsb'_toNat, BitVec.toNat_ofNat, Nat.shiftRight_zero]
  omega

/-- Whatever the word, ILLEGAL answers its STATUS and changes nothing else (R94, R223). -/
theorem exec_illegal (cmd : U32) (s : State) :
    exec (.illegal cmd) s = .next (s.respond (Response.ofStatus .illegalCommand)) := State.raise_eq s .illegalCommand

end Sys2Proof

open Sys2Proof Sys2Proof.Machine

/-- Settles O12: words are a command, an RTP packet or an RTCP packet, and in each form decoding undoes encoding
(`decodeWords_encode`). -/
theorem decodeEncodeRoundTrip : Obligations.DecodeEncodeRoundTrip := fun _ hwf => decodeWords_encode hwf

/-- Settles O13: each of the seven words of the map decodes to its row, and any other is illegal (`legalWord_cases`). -/
theorem commandWordsFollowOpcodeMap : Obligations.CommandWordsFollowOpcodeMap := by
  intro c
  split_ifs with h1 h2 h3 h4 h104 h5 h6
  · exact decodeCommand_of_decodeRtp h1
  · exact decodeCommand_of_decodeRtcp h2
  · rw [decodeCommand_of_rtpReceived h3, extractLsb'_low16]
  · exact decodeCommand_of_buildReport h4
  · exact decodeCommand_of_buildReport_lsrv h104
  · exact decodeCommand_of_removeSource h5
  · exact decodeCommand_of_querySource h6
  · refine decodeCommand_of_illegal (by_contra fun hlegal => ?_)
    rcases legalWord_cases hlegal with h | h | h | h | h | h | h <;> contradiction

/-- Settles O14: the three reasons of R94 are what CommandCheck tests (`illegalWord_iff`), so the step runs ILLEGAL. -/
theorem illegalWordsAreRefused : Obligations.IllegalWordsAreRefused := by
  refine ⟨exec_illegal, fun s c rest hp hbad => ?_⟩
  rw [step_of_command hp, decodeCommand_of_illegal ((illegalWord_iff c.cmd).mpr hbad), exec_illegal]

/-- Settles O15: five fixed words, by evaluation of the decoder. -/
theorem specWordsDecode : Obligations.SpecWordsDecode :=
  ⟨by decide, by decide, by decide, by decide, by decide⟩

end

section
/-! SUPPORT. RECV_RTP (R99): the command it issues second, and the step on it by the answer of the first. -/

namespace Sys2Proof.Machine

/-- The second command carries the record's fields and the arrival time (R95, R99). -/
theorem decodeCommand_receivedCommand (p : RtpPacket) (arrival : U32) :
    decodeCommand (receivedCommand p arrival) = .rtpReceived p.ssrc p.seq p.timestamp arrival := by
  rw [decodeCommand_of_rtpReceived rfl, receivedCommand, argCommand, extractLsb'_setWidth_seq]

theorem State.recvNext_of_ok {t : State} (h : t.resp.status = Status.ok.code) (arrival : U32) :
    t.recvNext arrival = t.withPending (.command (receivedCommand t.resp.rtp arrival) :: t.pending) := if_pos h

theorem State.recvNext_of_not_ok {t : State} (h : t.resp.status ≠ Status.ok.code) (arrival : U32) :
    t.recvNext arrival = t := if_neg h

/-- The step on RECV_RTP runs DECODE_RTP, and the host decides on its answer. -/
theorem step_of_recvRtp {s t : State} {buf : List Octet} {arrival : U32} {rest : List HostEvent}
    (hp : s.pending = .recvRtp buf arrival :: rest) (hx : exec (.decodeRtp buf) (s.withPending rest) = .next t) :
    step s = .next (t.recvNext arrival) := by
  rw [step, hp]
  simp only [decodeCommand_recvFirst, hx, afterDecode]

/-- An instruction leaves the host's waiting inputs in place. -/
theorem exec_pending {i : Instr} {s t : State} (hx : exec i s = .next t) : t.pending = s.pending := by
  obtain ⟨table, r, hanswer, -⟩ := exec_answers i s
  rw [hanswer] at hx
  cases hx
  rfl

end Sys2Proof.Machine

open Sys2Proof Sys2Proof.Machine

/-- Settles O10: DECODE_RTP answers some state `t`, and the host's decision on it is `recvNext`, by cases on STATUS. -/
theorem recvRtpIssuesTwoCommands : Obligations.RecvRtpIssuesTwoCommands := by
  intro s buf arrival rest hp
  obtain ⟨table, r, hx, -⟩ := exec_answers (.decodeRtp buf) (s.withPending rest)
  refine ⟨_, hx, fun hok => ⟨_, decodeCommand_receivedCommand _ arrival, ?_⟩, fun hbad => ?_⟩
  · rw [step_of_recvRtp hp hx, State.recvNext_of_ok hok, exec_pending hx, State.withPending_pending]
  · rw [step_of_recvRtp hp hx, State.recvNext_of_not_ok hbad]

end

section
/-! SUPPORT. DECODE_RTCP by its framing (R122, R123), the row of a packet type by its decoded packet, and bad padding
(R124). -/

namespace Sys2Proof.Machine

/-! ## The command -/

theorem exec_decodeRtcp {buf : List Octet} {s : State} (hmax : buf.length ≤ s.params.maxBufOctets)
    (hmin : 4 ≤ buf.length) : exec (.decodeRtcp buf) s =
      .next (s.respond (rtcpResponse (compound buf.length buf).1 (compound buf.length buf).2)) :=
  execDecodeRtcp_eq hmax hmin

theorem exec_decodeRtcp_of_short {buf : List Octet} {s : State} (hmax : buf.length ≤ s.params.maxBufOctets)
    (hshort : buf.length < 4) :
    exec (.decodeRtcp buf) s = .next (s.respond (Response.ofStatus .tooShort)) := by
  show execDecodeRtcp buf s = _
  rw [execDecodeRtcp, if_neg (by omega), if_pos hshort, State.raise_eq]

/-- DECODE_RTCP answers OK only when the buffer has a header and decodes without error, and PKTS holds its packets. -/
theorem exec_decodeRtcp_ok {buf : List Octet} {s t : State} (hmax : buf.length ≤ s.params.maxBufOctets)
    (hx : exec (.decodeRtcp buf) s = .next t) (hok : t.resp.status = Status.ok.code) :
    4 ≤ buf.length ∧ (compound buf.length buf).1 = .ok ∧ t.resp.pkts = (compound buf.length buf).2 := by
  by_cases hshort : buf.length < 4
  · rw [exec_decodeRtcp_of_short hmax hshort] at hx
    cases hx
    have hst : Status.tooShort = .ok := Status.code_injective hok
    cases hst
  · rw [exec_decodeRtcp hmax (by omega)] at hx
    cases hx
    exact ⟨by omega, Status.code_injective hok, rfl⟩

/-! ## Framing errors (R122) -/

theorem frameRtcp_of_version {buf : List Octet} (hmin : 4 ≤ buf.length) (hv : versionOf buf ≠ 2) :
    frameRtcp buf = .error .badVersion := by
  rw [frameRtcp, if_neg (by omega), if_pos hv]

theorem frameRtcp_of_length {buf : List Octet} (hmin : 4 ≤ buf.length) (hv : versionOf buf = 2)
    (hn : buf.length < packetOctets (rtcpHeaderOf buf).length) : frameRtcp buf = .error .lengthMismatch := by
  rw [frameRtcp, if_neg (by omega), if_neg (not_not.mpr hv)]
  exact if_pos hn

/-- When the first packet is not framed, DECODE_RTCP answers its framing error with PKTS empty (R123). -/
theorem exec_decodeRtcp_of_frame_error {buf : List Octet} {s : State} {st : Status}
    (hmax : buf.length ≤ s.params.maxBufOctets) (hmin : 4 ≤ buf.length) (hf : frameRtcp buf = .error st) :
    exec (.decodeRtcp buf) s = .next (s.respond (Response.ofStatus st)) := by
  have hne : buf ≠ [] := List.ne_nil_of_length_pos (by omega)
  rw [exec_decodeRtcp hmax hmin, compound_frame_error hne hf]
  rfl

/-! ## The row of a header -/

theorem exec_instr_eq_emit (h : RtcpHeader) (body : List Octet) (s : State) :
    exec (h.instr body) s = s.emit (decodeOne h body) := by
  rw [← runRtcp_eq_exec, runRtcp_eq_emit]

/-- A row answers a STATUS other than OK only when its packet does not decode, and then PKTS stays as it was (D35). -/
theorem exec_instr_refused {h : RtcpHeader} {body : List Octet} {s t : State} (hx : exec (h.instr body) s = .next t)
    (hbad : t.resp.status ≠ Status.ok.code) :
    ∃ st, decodeOne h body = .error st ∧ t = s.respond (rtcpResponse st s.resp.pkts) := by
  rw [exec_instr_eq_emit] at hx
  cases hd : decodeOne h body with
  | ok p =>
    rw [hd] at hx
    cases hx
    exact absurd rfl hbad
  | error st =>
    rw [hd] at hx
    cases hx
    exact ⟨st, rfl, rfl⟩

/-- DECODE_RTCP on a packet that does not decode answers its error, whatever follows the packet (R123). -/
theorem exec_decodeRtcp_of_refused {h : RtcpHeader} {body : List Octet} {st : Status} {s : State}
    (hb : body.length = 4 * h.length.toNat) (hd : decodeOne h body = .error st) (b : List Octet)
    (hmax : (rtcpOctets h body ++ b).length ≤ s.params.maxBufOctets) :
    exec (.decodeRtcp (rtcpOctets h body ++ b)) s = .next (s.respond (Response.ofStatus st)) := by
  have hf := frameRtcp_rtcpOctets h hb []
  rw [List.append_nil] at hf
  rw [exec_decodeRtcp hmax (by simp; omega), compound_refused hf hd]
  rfl

/-! ## Bad padding (R124) -/

/-- The padding check fails on a last octet of 0 or of more than the body. On an empty body the octet it reads is the
header's own, and the check fails whatever that holds, since no octet is left for padding. -/
theorem paddingOf_error {h : RtcpHeader} {body : List Octet} (hb : body.length = 4 * h.length.toNat)
    (hp : h.padding = 1) (hbad : ∀ pad, body.getLast? = some pad → pad = 0 ∨ body.length < pad.toNat) :
    paddingOf (rtcpOctets h body) (packetOctets h.length) h.padding = .error .lengthMismatch := by
  have hlast : memRead1 (rtcpOctets h body) (4 + body.length - 1) = 0 ∨
      body.length < (memRead1 (rtcpOctets h body) (4 + body.length - 1)).toNat := by
    cases hl : body.getLast? with
    | some pad =>
      rw [memRead1_last h hl]
      exact hbad pad hl
    | none =>
      rw [List.getLast?_eq_none_iff.mp hl]
      exact (Nat.eq_zero_or_pos _).imp_left BitVec.eq_of_toNat_eq
  rw [packetOctets_eq hb, paddingOf, if_neg (by rw [hp]; decide)]
  exact if_pos (by rwa [Nat.add_sub_cancel_left])

theorem decodeOne_of_paddingOf_error {h : RtcpHeader} {body : List Octet} {st : Status}
    (hb : body.length = 4 * h.length.toNat)
    (hp : paddingOf (rtcpOctets h body) (packetOctets h.length) h.padding = .error st) :
    decodeOne h body = .error st := by
  have hn : ¬(rtcpOctets h body).length < packetOctets h.length := by
    rw [packetOctets_eq hb, rtcpOctets_length]
    exact lt_irrefl _
  simp only [decodeOne, decodePacket, if_neg hn, hp]

end Sys2Proof.Machine

open Sys2Proof Sys2Proof.Machine

/-- Settles O7: both clauses are facts about the compound buffer, `compound_append` for octets after an error-free
buffer and `exec_decodeRtcp_of_refused` for a packet whose row answers an error. -/
theorem compoundBufferDecodesInParts : Obligations.CompoundBufferDecodesInParts := by
  constructor
  · intro a b s t u hmax hb hxa hok hxb
    obtain ⟨ha, hclean, hpkts⟩ := exec_decodeRtcp_ok (by omega) hxa hok
    rw [exec_decodeRtcp (by omega) hb] at hxb
    cases hxb
    rw [exec_decodeRtcp (by simpa using hmax) (by simp; omega), compound_append hclean, hpkts]
    rfl
  · intro i a b s t hwf he hmax hx hbad
    obtain ⟨h, body, hbody, rfl, rfl⟩ := encode_rtcp hwf he
    obtain ⟨st, hd, rfl⟩ := exec_instr_refused hx hbad
    have hrefused := exec_decodeRtcp_of_refused (s := s) hbody hd
    have halone := hrefused [] (by rw [List.append_nil]; omega)
    rw [List.append_nil] at halone
    exact ⟨halone, hrefused b (by rwa [List.length_append])⟩

/-- Settles O48: each clause is the check of `frameRtcp` that fails, read as arithmetic on the header's octets. -/
theorem rtcpFramingErrorsComeInOrder : Obligations.RtcpFramingErrorsComeInOrder := by
  intro s buf hmin hmax
  constructor
  · intro hv
    exact exec_decodeRtcp_of_frame_error hmax hmin
      (frameRtcp_of_version hmin (mt (versionOf_iff buf).mp hv))
  · intro hv hn
    have hlen : (rtcpHeaderOf buf).length.toNat = (octetAt buf 2).toNat * 256 + (octetAt buf 3).toNat :=
      memRead2_toNat buf 2
    exact exec_decodeRtcp_of_frame_error hmax hmin
      (frameRtcp_of_length hmin ((versionOf_iff buf).mpr hv) (by rwa [packetOctets, hlen]))

/-- Settles O55: the padding check comes before the body of any type (`decodeOne_of_paddingOf_error`), and it fails
(`paddingOf_error`). -/
theorem badPaddingIsMismatch : Obligations.BadPaddingIsMismatch := by
  intro s h body hb hp hbad
  rw [exec_instr_eq_emit, decodeOne_of_paddingOf_error hb (paddingOf_error hb hp hbad)]
  rfl

end

section
/-! SUPPORT. OUT after a report: its 24 octets are the laid-out block, whose fields are in the range of R121 (R91). -/

namespace Sys2Proof.Machine

/-- A list is the octets at its offsets. -/
theorem map_octetAt_range (l : List Octet) : (List.range l.length).map (octetAt l) = l := by
  apply List.ext_getElem
  · simp
  · intro i _ hi
    simp [octetAt, hi]

theorem encodeBlock_octets (b : ReportBlock) : (encodeBlock Memory.empty b).octets 0 24 = layoutBlock b := by
  have hread : ∀ i, (encodeBlock Memory.empty b).read (0 + i) = octetAt (layoutBlock b) i := fun i => by
    rw [Nat.zero_add, encodeBlock_read, octetAt]
  rw [Memory.octets, funext hread, ← layoutBlock_length b, map_octetAt_range]

/-- `cum_lost` of a report lies between 0 and 0x7FFFFF (R203). -/
theorem reportOf_representable (e : Entry) (supplied : Option (U32 × U32)) :
    (reportOf e supplied).representable = true := by
  have hlow : -(2 ^ 23) ≤ cumLostOf e := by
    unfold cumLostOf lostOf
    omega
  have hhigh : cumLostOf e < 2 ^ 23 := by
    unfold cumLostOf
    omega
  exact Bool.and_eq_true_iff.mpr ⟨decide_eq_true hlow, decide_eq_true hhigh⟩

end Sys2Proof.Machine

open Sys2Proof Sys2Proof.Machine

/-- Settles O36: OUT is the layout of RB (`encodeBlock_octets`), and the layout of a representable block reads back. -/
theorem reportBlockDecodesBack : Obligations.ReportBlockDecodesBack := by
  intro s t ssrc supplied e hl hx
  obtain ⟨u, hu, -, -, -, hresp⟩ := execBuildReport_stored hl supplied
  obtain rfl : u = t := by simpa [hu] using hx
  rw [hresp, reportResponse_out, reportResponse_rb, encodeBlock_octets]
  simpa using decodeBlock_layoutBlock (reportOf_representable e supplied) [] []

end

section
/-! SUPPORT. DECODE_RTP by its checks (R102): what a buffer parses to as one test of where its payload starts, and that
parsing undoes the layout of a record and the layout undoes parsing (R101, R105, R108). -/

namespace Sys2Proof.Machine

/-! ## Where the payload starts -/

/-- The header extension that starts at octet `h` (R72, R104). -/
def extensionAt (buf : List Octet) (h : Nat) : RtpExtension :=
  { profile := memRead2 buf h, length := memRead2 buf (h + 2),
    data := octets buf (h + 4) (4 * (memRead2 buf (h + 2)).toNat) }

/-- The extension of a packet with word 0 `w`: there is one exactly when X is 1 (R72). -/
def extensionOf (w : RtpWord) (buf : List Octet) : Option RtpExtension :=
  if w.extension = 1 then some (extensionAt buf (12 + 4 * w.cc.toNat)) else none

/-- The first octet after the fixed header, the CSRC list and the extension (R73, R105). -/
def payloadStart (w : RtpWord) (buf : List Octet) : Nat :=
  12 + 4 * w.cc.toNat +
    if w.extension = 1 then 4 + 4 * (extensionAt buf (12 + 4 * w.cc.toNat)).length.toNat else 0

section
variable {w : RtpWord} {buf : List Octet}

theorem extensionOf_of_extension (h : w.extension = 1) :
    extensionOf w buf = some (extensionAt buf (12 + 4 * w.cc.toNat)) := if_pos h

theorem extensionOf_of_plain (h : ¬w.extension = 1) : extensionOf w buf = none := if_neg h

theorem payloadStart_of_extension (h : w.extension = 1) : payloadStart w buf =
    12 + 4 * w.cc.toNat + (4 + 4 * (extensionAt buf (12 + 4 * w.cc.toNat)).length.toNat) := by
  rw [payloadStart, if_pos h]

theorem payloadStart_of_plain (h : ¬w.extension = 1) : payloadStart w buf = 12 + 4 * w.cc.toNat := by
  rw [payloadStart, if_neg h, Nat.add_zero]

theorem le_payloadStart : 12 + 4 * w.cc.toNat ≤ payloadStart w buf := Nat.le_add_right _ _

end

/-- The record that parsing reads from a packet with word 0 `w` (R101). -/
def parsedRecord (w : RtpWord) (buf : List Octet) : RtpPacket :=
  rtpRecord w buf (extensionOf w buf) (payloadStart w buf)

/-- The payload is every octet from its start on (R105). -/
theorem parsedRecord_payload (w : RtpWord) (buf : List Octet) :
    (parsedRecord w buf).payload = buf.drop (payloadStart w buf) := by
  show (buf.drop (payloadStart w buf)).take (buf.length - payloadStart w buf) = _
  rw [← List.length_drop, List.take_length]

/-- The checks of R102 after the version are one: the header, up to the payload, lies inside the buffer. -/
theorem parseRtp_eq (w : RtpWord) (buf : List Octet) :
    parseRtp w buf = if buf.length < payloadStart w buf then .error .tooShort else .ok (parsedRecord w buf) := by
  rw [parsedRecord]
  by_cases hx : w.extension = 1
  · rw [payloadStart_of_extension hx, extensionOf_of_extension hx]
    simp only [parseRtp, extensionAt, if_pos hx, ← Nat.add_assoc]
    by_cases hfit : buf.length < 12 + 4 * w.cc.toNat + 4 + 4 * (memRead2 buf (12 + 4 * w.cc.toNat + 2)).toNat
    · rw [if_pos hfit, ite_self, ite_self]
    · rw [if_neg hfit, if_neg (by omega), if_neg (by omega)]
  · rw [payloadStart_of_plain hx, extensionOf_of_plain hx]
    simp only [parseRtp, if_neg hx]

theorem parseRtp_of_short {w : RtpWord} {buf : List Octet} (h : buf.length < payloadStart w buf) :
    parseRtp w buf = .error .tooShort := by rw [parseRtp_eq, if_pos h]

theorem parseRtp_of_fits {w : RtpWord} {buf : List Octet} (h : payloadStart w buf ≤ buf.length) :
    parseRtp w buf = .ok (parsedRecord w buf) := by
  rw [parseRtp_eq, if_neg (by omega)]

/-! ## The command -/

/-- What DECODE_RTP answers on a buffer, by the checks in the order of R102, where at most `maxOctets` octets are
taken (R107). -/
def decodeRtpBuffer (maxOctets : Nat) (buf : List Octet) : Except Status RtpPacket :=
  if maxOctets < buf.length then .error .illegalCommand
  else if buf.length < 12 then .error .tooShort
  else if versionOf buf ≠ 2 then .error .badVersion
  else parseRtp (rtpWordOf buf) buf

/-- DECODE_RTP answers what the buffer holds, and of the state it reads MAX_BUF_OCTETS only (R106). -/
theorem exec_decodeRtp (buf : List Octet) (s : State) :
    exec (.decodeRtp buf) s = s.finishRtp (decodeRtpBuffer s.params.maxBufOctets buf) := by
  show execDecodeRtp buf s = _
  by_cases hmax : s.params.maxBufOctets < buf.length
  · rw [execDecodeRtp, decodeRtpBuffer, if_pos hmax, if_pos hmax]; rfl
  by_cases hmin : buf.length < 12
  · rw [execDecodeRtp, decodeRtpBuffer, frameRtp, if_neg hmax, if_neg hmax, if_pos hmin, if_pos hmin]; rfl
  by_cases hv : versionOf buf = 2
  · rw [execDecodeRtp_parse (by omega) (by omega) hv, decodeRtpBuffer, if_neg hmax, if_neg hmin,
      if_neg (not_not.mpr hv)]
  · rw [execDecodeRtp, decodeRtpBuffer, frameRtp, if_neg hmax, if_neg hmax, if_neg hmin, if_neg hmin, if_pos hv,
      if_pos hv]
    rfl

section
variable {n : Nat} {buf : List Octet}

theorem decodeRtpBuffer_of_long (h : n < buf.length) : decodeRtpBuffer n buf = .error .illegalCommand := if_pos h

theorem decodeRtpBuffer_of_short (hmax : buf.length ≤ n) (h : buf.length < 12) :
    decodeRtpBuffer n buf = .error .tooShort := by
  rw [decodeRtpBuffer, if_neg (by omega), if_pos h]

theorem decodeRtpBuffer_of_version (hmax : buf.length ≤ n) (hmin : 12 ≤ buf.length) (h : versionOf buf ≠ 2) :
    decodeRtpBuffer n buf = .error .badVersion := by
  rw [decodeRtpBuffer, if_neg (by omega), if_neg (by omega), if_pos h]

theorem decodeRtpBuffer_parse (hmax : buf.length ≤ n) (hmin : 12 ≤ buf.length) (hv : versionOf buf = 2) :
    decodeRtpBuffer n buf = parseRtp (rtpWordOf buf) buf := by
  rw [decodeRtpBuffer, if_neg (by omega), if_neg (by omega), if_neg (not_not.mpr hv)]

/-- Every buffer is answered an error, or passes every check of R102 and is answered its record. -/
theorem decodeRtpBuffer_cases (n : Nat) (buf : List Octet) :
    (∃ st, st ≠ .ok ∧ decodeRtpBuffer n buf = .error st) ∨
    (12 ≤ buf.length ∧ versionOf buf = 2 ∧ payloadStart (rtpWordOf buf) buf ≤ buf.length ∧
      decodeRtpBuffer n buf = .ok (parsedRecord (rtpWordOf buf) buf)) := by
  by_cases hmax : n < buf.length
  · exact .inl ⟨_, by decide, decodeRtpBuffer_of_long hmax⟩
  by_cases hmin : buf.length < 12
  · exact .inl ⟨_, by decide, decodeRtpBuffer_of_short (by omega) hmin⟩
  by_cases hv : versionOf buf = 2
  · have hparse : decodeRtpBuffer n buf = _ := decodeRtpBuffer_parse (by omega) (by omega) hv
    by_cases hfit : buf.length < payloadStart (rtpWordOf buf) buf
    · exact .inl ⟨_, by decide, hparse.trans (parseRtp_of_short hfit)⟩
    · exact .inr ⟨by omega, hv, by omega, hparse.trans (parseRtp_of_fits (by omega))⟩
  · exact .inl ⟨_, by decide, decodeRtpBuffer_of_version (by omega) (by omega) hv⟩

end

/-- The end of DECODE_RTP writes STATUS and RTP, and RTP stays zero with an error (R97, R106). -/
theorem finishRtp_answers (r : Except Status RtpPacket) : ∃ (st : Status) (p : RtpPacket),
    (st = .ok ∨ p = RtpPacket.zero) ∧
      ∀ s : State, s.finishRtp r = .next (s.respond { Response.ofStatus st with rtp := p }) := by
  cases r with
  | ok p => exact ⟨.ok, p, .inl rfl, fun _ => rfl⟩
  | error st => exact ⟨st, RtpPacket.zero, .inr rfl, fun _ => rfl⟩

/-! ## Parsing undoes the layout (R108) -/

/-- Word 0 of a record, less the version (R70). -/
def RtpPacket.word (p : RtpPacket) : RtpWord :=
  { padding := p.padding, extension := p.extension, cc := p.cc, marker := p.marker, pt := p.pt, seq := p.seq }

theorem layoutRtp_eq (p : RtpPacket) : layoutRtp p = rtpOctets p.word (octetsOf4 p.timestamp ++ octetsOf4 p.ssrc ++
    p.csrc.flatMap octetsOf4 ++ (layoutExtension p.ext ++ p.payload)) := by
  simp only [List.append_assoc]
  rfl

theorem le_layoutRtp_length (p : RtpPacket) : 12 ≤ (layoutRtp p).length := by
  rw [layoutRtp_eq, rtpOctets_length]
  simp only [List.length_append, octetsOf4_length]
  omega

theorem headerOctets_of_none {p : RtpPacket} (h : p.ext = none) : headerOctets p = 12 + 4 * p.cc.toNat := by
  rw [headerOctets, h, Nat.add_zero]

theorem headerOctets_of_some {p : RtpPacket} {x : RtpExtension} (h : p.ext = some x) :
    headerOctets p = 12 + 4 * p.cc.toNat + (4 + 4 * x.length.toNat) := by
  rw [headerOctets, h]

/-- What R108 asks of a record: its parts agree with CC, X and the extension's length. -/
theorem RtpPacket.representable_iff (p : RtpPacket) : p.representable = true ↔
    p.version = 2 ∧ p.csrc.length = p.cc.toNat ∧ p.payloadOffset = headerOctets p ∧
      ((p.ext = none ∧ p.extension = 0) ∨
        ∃ x, p.ext = some x ∧ p.extension = 1 ∧ x.data.length = 4 * x.length.toNat) := by
  cases he : p.ext <;> simp [RtpPacket.representable, he, and_assoc]

/-- A laid-out extension reads back, with whatever follows its data. -/
theorem extensionAt_layoutExtension {x : RtpExtension} (hd : x.data.length = 4 * x.length.toNat)
    (payload : List Octet) : extensionAt (layoutExtension (some x) ++ payload) 0 = x := by
  have hlen : memRead2 (layoutExtension (some x) ++ payload) 2 = x.length := by
    rw [layoutExtension, List.append_assoc, List.append_assoc]
    exact (memRead2_append (octetsOf2 x.profile) _ 0).trans (memRead2_octetsOf2 _ _)
  have hprofile : memRead2 (layoutExtension (some x) ++ payload) 0 = x.profile := by
    rw [layoutExtension, List.append_assoc, List.append_assoc]
    exact memRead2_octetsOf2 _ _
  have hdata : octets (layoutExtension (some x) ++ payload) 4 (4 * x.length.toNat) = x.data := by
    rw [layoutExtension, List.append_assoc]
    refine (octets_append (octetsOf2 x.profile ++ octetsOf2 x.length) _ 0 _).trans ?_
    rw [octets, List.drop_zero, ← hd, List.take_left]
  rw [extensionAt, Nat.zero_add, Nat.zero_add, hlen, hprofile, hdata]

/-- The octets of a record in front of its payload (R70 to R73). -/
def layoutHeader (p : RtpPacket) : List Octet :=
  rtpOctets p.word (octetsOf4 p.timestamp ++ octetsOf4 p.ssrc ++ p.csrc.flatMap octetsOf4 ++ layoutExtension p.ext)

theorem layoutRtp_eq_header (p : RtpPacket) : layoutRtp p = layoutHeader p ++ p.payload := by
  simp [layoutRtp_eq, layoutHeader, rtpOctets]

/-- The header of a representable record ends at its payload offset (R73). -/
theorem layoutHeader_length {p : RtpPacket} (h : p.representable = true) :
    (layoutHeader p).length = p.payloadOffset := by
  obtain ⟨-, hcsrc, hoff, hext⟩ := p.representable_iff.mp h
  have hl : (layoutHeader p).length = 12 + 4 * p.cc.toNat + (layoutExtension p.ext).length := by
    simp only [layoutHeader, rtpOctets_length, List.length_append, octetsOf4_length, flatMap_octetsOf4_length, hcsrc]
    omega
  rcases hext with ⟨hnone, -⟩ | ⟨x, hsome, -, hdata⟩
  · rw [hl, hoff, headerOctets_of_none hnone, hnone]
    rfl
  · rw [hl, hoff, headerOctets_of_some hsome, hsome]
    simp only [layoutExtension, List.length_append, octetsOf2_length, hdata]

/-- The layout of a representable record holds its extension and its payload where parsing looks for them. -/
theorem extensionOf_layoutRtp {p : RtpPacket} (h : p.representable = true) :
    extensionOf p.word (layoutRtp p) = p.ext ∧ payloadStart p.word (layoutRtp p) = p.payloadOffset := by
  obtain ⟨-, hcsrc, hoff, hext⟩ := p.representable_iff.mp h
  obtain ⟨-, -, -, -, -, hread2, hoctets⟩ :=
    rtpOctets_reads p.word p.timestamp p.ssrc (layoutExtension p.ext ++ p.payload) hcsrc (layoutRtp_eq p)
  rcases hext with ⟨hnone, hx⟩ | ⟨x, hsome, hx, hdata⟩
  · have hplain : ¬p.word.extension = 1 := by
      show ¬p.extension = 1
      rw [hx]
      decide
    rw [extensionOf_of_plain hplain, payloadStart_of_plain hplain, hoff, headerOctets_of_none hnone, hnone]
    exact ⟨rfl, rfl⟩
  · have hword : p.word.extension = 1 := hx
    have hat : extensionAt (layoutRtp p) (12 + 4 * p.word.cc.toNat) = x := by
      rw [← extensionAt_layoutExtension hdata p.payload, ← hsome]
      simp only [extensionAt, Nat.zero_add, ← hread2, ← hoctets, Nat.add_zero]
    rw [extensionOf_of_extension hword, payloadStart_of_extension hword, hat, hoff, headerOctets_of_some hsome, hsome]
    exact ⟨rfl, rfl⟩

/-- Parsing the layout of a representable record gives the record. -/
theorem parseRtp_layoutRtp {p : RtpPacket} (h : p.representable = true) :
    parseRtp p.word (layoutRtp p) = .ok p := by
  obtain ⟨hversion, hcsrc, -, -⟩ := p.representable_iff.mp h
  obtain ⟨hext, hstart⟩ := extensionOf_layoutRtp h
  obtain ⟨hts, hssrc, hlist, -⟩ :=
    rtpOctets_reads p.word p.timestamp p.ssrc (layoutExtension p.ext ++ p.payload) hcsrc (layoutRtp_eq p)
  have hpayload : (parsedRecord p.word (layoutRtp p)).payload = p.payload := by
    rw [parsedRecord_payload, hstart, layoutRtp_eq_header, ← layoutHeader_length h, List.drop_left]
  have hfits : payloadStart p.word (layoutRtp p) ≤ (layoutRtp p).length := by
    rw [hstart, layoutRtp_eq_header, List.length_append, layoutHeader_length h]
    exact Nat.le_add_right _ _
  have hrecord : parsedRecord p.word (layoutRtp p) =
      { p with version := 2, timestamp := memRead4 (layoutRtp p) 4, ssrc := memRead4 (layoutRtp p) 8,
               csrc := csrcList (layoutRtp p) p.word.cc.toNat, ext := extensionOf p.word (layoutRtp p),
               payloadOffset := payloadStart p.word (layoutRtp p),
               payload := (parsedRecord p.word (layoutRtp p)).payload } := rfl
  rw [parseRtp_of_fits hfits, hrecord, hts, hssrc, hlist, hext, hstart, hpayload, ← hversion]

/-! ## The layout undoes parsing (R101, R105) -/

/-- The octets of an extension that lies inside the buffer are its header, its data, and what follows. -/
theorem drop_extensionAt {buf : List Octet} {h : Nat}
    (hfits : h + (4 + 4 * (extensionAt buf h).length.toNat) ≤ buf.length) :
    buf.drop h = layoutExtension (some (extensionAt buf h)) ++
      buf.drop (h + (4 + 4 * (extensionAt buf h).length.toNat)) := by
  have hdata : buf.drop (h + 2 + 2) =
      (extensionAt buf h).data ++ (buf.drop (h + 4)).drop (4 * (extensionAt buf h).length.toNat) :=
    (List.take_append_drop _ _).symm
  rw [drop_memRead2 (by omega), drop_memRead2 (by omega), hdata, List.drop_drop, Nat.add_assoc]
  simp only [layoutExtension, List.append_assoc]
  rfl

theorem extensionAt_data_length {buf : List Octet} {h : Nat}
    (hfits : h + (4 + 4 * (extensionAt buf h).length.toNat) ≤ buf.length) :
    (extensionAt buf h).data.length = 4 * (extensionAt buf h).length.toNat := by
  show ((buf.drop (h + 4)).take (4 * (extensionAt buf h).length.toNat)).length = _
  rw [List.length_take, List.length_drop, Nat.min_eq_left (by omega)]

/-- The octets after the CSRC list are the extension that is read there, and then the payload. -/
theorem drop_csrc {w : RtpWord} {buf : List Octet} (h : payloadStart w buf ≤ buf.length) :
    buf.drop (12 + 4 * w.cc.toNat) = layoutExtension (extensionOf w buf) ++ buf.drop (payloadStart w buf) := by
  by_cases hx : w.extension = 1
  · rw [payloadStart_of_extension hx] at h ⊢
    rw [extensionOf_of_extension hx, ← drop_extensionAt h]
  · rw [extensionOf_of_plain hx, payloadStart_of_plain hx]
    rfl

/-- The octets after word 0 are the time stamp, the SSRC, the CSRC list, the extension and the payload. -/
theorem drop_word {w : RtpWord} {buf : List Octet} (h : payloadStart w buf ≤ buf.length) :
    buf.drop 4 = octetsOf4 (memRead4 buf 4) ++ octetsOf4 (memRead4 buf 8) ++
      (csrcList buf w.cc.toNat).flatMap octetsOf4 ++
        (layoutExtension (extensionOf w buf) ++ buf.drop (payloadStart w buf)) := by
  have hstart : 12 + 4 * w.cc.toNat ≤ buf.length := le_payloadStart.trans h
  rw [drop_memRead4 (by omega), drop_memRead4 (by omega), drop_memRead4s (n := w.cc.toNat) hstart, drop_csrc h]
  simp only [List.append_assoc]
  rfl

/-- The record that parsing reads from a packet of version 2 lays out as the packet. -/
theorem layoutRtp_parsedRecord {buf : List Octet} (hv : versionOf buf = 2)
    (h : payloadStart (rtpWordOf buf) buf ≤ buf.length) :
    layoutRtp (parsedRecord (rtpWordOf buf) buf) = buf := by
  have hmin : 12 + 4 * (rtpWordOf buf).cc.toNat ≤ buf.length := le_payloadStart.trans h
  rw [layoutRtp_eq, parsedRecord_payload]
  calc
    _ = rtpOctets (rtpWordOf buf) (buf.drop 4) := congrArg _ (drop_word h).symm
    _ = buf := rtpOctets_rtpWordOf (by omega) hv

/-- That record is representable. -/
theorem parsedRecord_representable {w : RtpWord} {buf : List Octet} (h : payloadStart w buf ≤ buf.length) :
    (parsedRecord w buf).representable = true := by
  refine (RtpPacket.representable_iff _).mpr ⟨rfl, ?_, ?_⟩
  · show (csrcList buf w.cc.toNat).length = w.cc.toNat
    rw [csrcList, List.length_map, List.length_range]
  by_cases hx : w.extension = 1
  · have hext : (parsedRecord w buf).ext = some _ := extensionOf_of_extension hx
    refine ⟨?_, .inr ⟨_, hext, hx, ?_⟩⟩
    · rw [headerOctets_of_some hext]
      exact payloadStart_of_extension hx
    · rw [payloadStart_of_extension hx] at h
      exact extensionAt_data_length h
  · have hext : (parsedRecord w buf).ext = none := extensionOf_of_plain hx
    refine ⟨?_, .inl ⟨hext, (BitVec.eq_zero_or_eq_one _).resolve_right hx⟩⟩
    rw [headerOctets_of_none hext]
    exact payloadStart_of_plain hx

end Sys2Proof.Machine

open Sys2Proof Sys2Proof.Machine

/-- Settles O44: the layout has version 2 and its own word 0, so DECODE_RTP parses it, and parsing undoes the layout
(`parseRtp_layoutRtp`). -/
theorem rtpRecordRoundTrip : Obligations.RtpRecordRoundTrip := by
  intro s p hp hmax
  have hw : rtpWordOf (layoutRtp p) = p.word := rtpWordOf_rtpOctets p.word _
  have hv : versionOf (layoutRtp p) = 2 := versionOf_rtpOctets p.word _
  rw [exec_decodeRtp, decodeRtpBuffer_parse hmax (le_layoutRtp_length p) hv, hw, parseRtp_layoutRtp hp]
  rfl

/-- Settles O45: an OK answer is the record that parsing reads (`decodeRtpBuffer_cases`), which is representable and lays
out as the buffer. -/
theorem decodedRtpRecordLaysOutAsBuffer : Obligations.DecodedRtpRecordLaysOutAsBuffer := by
  intro s t buf hx hok
  rw [exec_decodeRtp] at hx
  rcases decodeRtpBuffer_cases s.params.maxBufOctets buf with ⟨st, hst, herror⟩ | ⟨-, hv, hfits, hrecord⟩
  · rw [herror] at hx
    cases hx
    exact absurd (Status.code_injective hok) hst
  · rw [hrecord] at hx
    cases hx
    exact ⟨parsedRecord_representable hfits, layoutRtp_parsedRecord hv hfits⟩

/-- Settles O46: the answer is a function of MAX_BUF_OCTETS and the buffer (`exec_decodeRtp`), whatever the table. -/
theorem decodeRtpWritesOnlyItsResponse : Obligations.DecodeRtpWritesOnlyItsResponse := by
  intro s buf
  obtain ⟨st, p, hzero, hanswer⟩ := finishRtp_answers (decodeRtpBuffer s.params.maxBufOctets buf)
  refine ⟨st, p, hzero, ?_, fun table => ?_⟩
  · rw [exec_decodeRtp, hanswer]
  · rw [exec_decodeRtp, State.withTable_params, hanswer]

end

section
/-! SUPPORT. DECODE_RTP by the numbers of its first octets (R70, R102), the wire row RTP_DATA by a record's fields (R103,
R104), and a decode command on one whole packet (R100, R120). -/

namespace Sys2Proof.Machine

/-! ## Word 0 and the extension as numbers (R70, R72) -/

section
variable (buf : List Octet)

theorem rtpWordOf_padding_toNat : (rtpWordOf buf).padding.toNat = (octetAt buf 0).toNat / 32 % 2 := by
  simp [rtpWordOf, memRead1, Nat.shiftRight_eq_div_pow]

theorem rtpWordOf_extension_toNat : (rtpWordOf buf).extension.toNat = (octetAt buf 0).toNat / 16 % 2 := by
  simp [rtpWordOf, memRead1, Nat.shiftRight_eq_div_pow]

theorem rtpWordOf_marker_toNat : (rtpWordOf buf).marker.toNat = (octetAt buf 1).toNat / 128 := by
  have h := (octetAt buf 1).isLt
  simp only [rtpWordOf, memRead1, BitVec.extractLsb'_toNat, Nat.shiftRight_eq_div_pow]
  omega

theorem rtpWordOf_pt_toNat : (rtpWordOf buf).pt.toNat = (octetAt buf 1).toNat % 128 := by
  simp [rtpWordOf, memRead1]

end

section
variable {buf : List Octet}

theorem payloadStart_of_hasExtension (h : hasExtension buf) : payloadStart (rtpWordOf buf) buf =
    12 + 4 * ccOf buf + 4 + 4 * extLenOf buf (12 + 4 * ccOf buf) := by
  have hlen : (extensionAt buf (12 + 4 * ccOf buf)).length.toNat = extLenOf buf (12 + 4 * ccOf buf) :=
    memRead2_toNat buf _
  rw [payloadStart_of_extension ((extension_iff buf).mpr h), cc_toNat, hlen]
  exact (Nat.add_assoc _ 4 _).symm

theorem payloadStart_of_not_hasExtension (h : ¬hasExtension buf) :
    payloadStart (rtpWordOf buf) buf = 12 + 4 * ccOf buf := by
  rw [payloadStart_of_plain (mt (extension_iff buf).mp h), cc_toNat]

theorem extensionOf_of_hasExtension (h : hasExtension buf) : extensionOf (rtpWordOf buf) buf =
    some { profile := memRead2 buf (12 + 4 * ccOf buf), length := memRead2 buf (12 + 4 * ccOf buf + 2),
           data := (buf.drop (12 + 4 * ccOf buf + 4)).take (4 * extLenOf buf (12 + 4 * ccOf buf)) } := by
  rw [extensionOf_of_extension ((extension_iff buf).mpr h), cc_toNat, extLenOf, ← memRead2_toNat]
  rfl

theorem extensionOf_of_not_hasExtension (h : ¬hasExtension buf) : extensionOf (rtpWordOf buf) buf = none :=
  extensionOf_of_plain (mt (extension_iff buf).mp h)

end

/-- DECODE_RTP on a buffer that passes every check of R102 answers OK and the record that parsing reads. -/
theorem exec_decodeRtp_of_fits {buf : List Octet} {s : State} (hmax : buf.length ≤ s.params.maxBufOctets)
    (hmin : 12 ≤ buf.length) (hv : versionOf buf = 2) (hfits : payloadStart (rtpWordOf buf) buf ≤ buf.length) :
    exec (.decodeRtp buf) s =
      .next (s.respond { Response.ofStatus .ok with rtp := parsedRecord (rtpWordOf buf) buf }) := by
  rw [exec_decodeRtp, decodeRtpBuffer_parse hmax hmin hv, parseRtp_of_fits hfits]
  rfl

/-! ## The wire row RTP_DATA -/

/-- RTP_DATA on the parts of a representable record answers OK and the record (R103, R104). -/
theorem exec_rtpData_of_representable {p : RtpPacket} (h : p.representable = true) (s : State) :
    exec (.rtpData p.padding p.extension p.cc p.marker p.pt p.seq (octetsOf4 p.timestamp ++ octetsOf4 p.ssrc ++
      p.csrc.flatMap octetsOf4 ++ (layoutExtension p.ext ++ p.payload))) s =
    .next (s.respond { Response.ofStatus .ok with rtp := p }) := by
  show s.finishRtp (parseRtp p.word (rtpOctets p.word _)) = _
  rw [← layoutRtp_eq, parseRtp_layoutRtp h]
  rfl

/-- RTP_DATA on octets that end before the payload would start is TOO_SHORT (R102). -/
theorem exec_rtpData_of_short (w : RtpWord) {rest : List Octet}
    (h : 4 + rest.length < payloadStart w (rtpOctets w rest)) (s : State) :
    exec (w.instr rest) s = .next (s.respond (Response.ofStatus .tooShort)) := by
  show s.finishRtp (parseRtp w (rtpOctets w rest)) = _
  rw [parseRtp_of_short (by rwa [rtpOctets_length])]
  rfl

/-! ## One whole packet -/

/-- DECODE_RTP on one RTP packet runs its row (R100). -/
theorem exec_decodeRtp_rtpOctets (w : RtpWord) {rest : List Octet} (h : 8 ≤ rest.length) {s : State}
    (hmax : (rtpOctets w rest).length ≤ s.params.maxBufOctets) :
    exec (.decodeRtp (rtpOctets w rest)) s = exec (w.instr rest) s := by
  have hmin : 12 ≤ (rtpOctets w rest).length := by
    rw [rtpOctets_length]
    omega
  rw [exec_decodeRtp, decodeRtpBuffer_parse hmax hmin (versionOf_rtpOctets w rest), rtpWordOf_rtpOctets]
  rfl

/-- A buffer of one RTCP packet that decodes holds its record (R123). -/
theorem compound_one {h : RtcpHeader} {body : List Octet} {p : RtcpPacket} (hb : body.length = 4 * h.length.toNat)
    (hd : decodeOne h body = .ok p) :
    compound (rtcpOctets h body).length (rtcpOctets h body) = (.ok, [p]) := by
  have hf := frameRtcp_rtcpOctets h hb []
  rw [List.append_nil] at hf
  have hne : rtcpOctets h body ≠ [] := List.cons_ne_nil _ _
  rw [compound_cons hne, hf]
  simp only [hd]
  rfl

/-- DECODE_RTCP on one RTCP packet runs its row, with PKTS empty before (R120, R125). -/
theorem exec_decodeRtcp_rtcpOctets {h : RtcpHeader} {body : List Octet} (hb : body.length = 4 * h.length.toNat)
    {s : State} (hmax : (rtcpOctets h body).length ≤ s.params.maxBufOctets) :
    exec (.decodeRtcp (rtcpOctets h body)) s = exec (h.instr body) (s.respond (Response.ofStatus .ok)) := by
  rw [exec_instr_eq_emit]
  cases hd : decodeOne h body with
  | ok p =>
    rw [exec_decodeRtcp hmax (by rw [rtcpOctets_length]; omega), compound_one hb hd]
    rfl
  | error st =>
    have hrefused := exec_decodeRtcp_of_refused (s := s) hb hd []
    rw [List.append_nil] at hrefused
    exact hrefused hmax

end Sys2Proof.Machine

open Sys2Proof Sys2Proof.Machine

/-- Settles O6: an RTP and an RTCP encoding are the octets of a header and the rest, and on those the decode command runs
the row that the header names. -/
theorem decodeCommandRunsWireRow : Obligations.DecodeCommandRunsWireRow := by
  intro i s buf hwf hmax
  constructor
  · intro he
    obtain ⟨w, rest, hrest, rfl, rfl⟩ := encode_rtp hwf he
    exact exec_decodeRtp_rtpOctets w hrest hmax
  · intro he
    obtain ⟨h, body, hbody, rfl, rfl⟩ := encode_rtcp hwf he
    exact exec_decodeRtcp_rtcpOctets hbody hmax

/-- Settles O41: each clause is one check of `decodeRtpBuffer`; the last is that the payload would start after the end of
the buffer. -/
theorem rtpErrorsComeInOrder : Obligations.RtpErrorsComeInOrder := by
  rintro s buf _ rfl
  rw [exec_decodeRtp]
  refine ⟨fun hlong => ?_, fun hmax => ⟨fun hshort => ?_, fun hmin hv => ?_, fun hmin hv hfit => ?_⟩⟩
  · rw [decodeRtpBuffer_of_long hlong]
    rfl
  · rw [decodeRtpBuffer_of_short hmax hshort]
    rfl
  · rw [decodeRtpBuffer_of_version hmax hmin (mt (versionOf_iff buf).mp hv)]
    rfl
  · have hstart : buf.length < payloadStart (rtpWordOf buf) buf := by
      by_cases hx : hasExtension buf
      · rw [payloadStart_of_hasExtension hx]
        omega
      · rw [payloadStart_of_not_hasExtension hx]
        exact hfit.resolve_right fun hext => hx hext.1
    rw [decodeRtpBuffer_parse hmax hmin ((versionOf_iff buf).mpr hv), parseRtp_of_short hstart]
    rfl

/-- Settles O42: the checks say that the header up to the payload fits, so the buffer parses to `parsedRecord`, whose
fields are read as numbers from octets 0 and 1. -/
theorem rtpPacketIsDecoded : Obligations.RtpPacketIsDecoded := by
  rintro s buf _ rfl hmax hmin hv hcsrc hext
  have hfits : payloadStart (rtpWordOf buf) buf ≤ buf.length := by
    by_cases hx : hasExtension buf
    · rw [payloadStart_of_hasExtension hx]
      exact hext hx
    · rw [payloadStart_of_not_hasExtension hx]
      exact hcsrc
  have hx := exec_decodeRtp_of_fits hmax hmin ((versionOf_iff buf).mpr hv) hfits
  have hlist : csrcList buf (rtpWordOf buf).cc.toNat = csrcList buf (ccOf buf) := by rw [cc_toNat]
  exact ⟨_, _, hx, payloadStart_of_hasExtension, payloadStart_of_not_hasExtension, rfl,
    rfl, rtpWordOf_padding_toNat buf, rtpWordOf_extension_toNat buf, cc_toNat buf, rtpWordOf_marker_toNat buf,
    rtpWordOf_pt_toNat buf, rfl, rfl, rfl, hlist,
    extensionOf_of_not_hasExtension, extensionOf_of_hasExtension, rfl, parsedRecord_payload _ _⟩

/-- Settles O43: a rest that ends before the payload would start is TOO_SHORT (`exec_rtpData_of_short`); otherwise it is
the layout of a representable record (`exec_rtpData_of_representable`). -/
theorem rtpDataRowDecodes : Obligations.RtpDataRowDecodes := by
  constructor
  · intro s padding extension cc marker pt seq rest hshort
    let w : RtpWord := { padding, extension, cc, marker, pt, seq }
    have hcsrc : 12 + 4 * cc.toNat ≤ payloadStart w (rtpOctets w rest) := le_payloadStart (w := w)
    exact exec_rtpData_of_short w (by omega) s
  intro s padding extension cc marker pt seq timestamp ssrc csrc tail hcsrc
  refine ⟨fun hx => ?_, fun hx profile length data payload htail hdata => ?_, fun hx hshort => ?_⟩
  · refine exec_rtpData_of_representable (p := ⟨2, padding, extension, cc, marker, pt, seq, timestamp, ssrc, csrc, none,
      12 + 4 * cc.toNat, tail⟩) ?_ s
    exact (RtpPacket.representable_iff _).mpr ⟨rfl, hcsrc, rfl, .inl ⟨rfl, hx⟩⟩
  · rw [htail]
    refine exec_rtpData_of_representable (p := ⟨2, padding, extension, cc, marker, pt, seq, timestamp, ssrc, csrc,
      some ⟨profile, length, data⟩, 16 + 4 * cc.toNat + 4 * length.toNat, payload⟩) ?_ s
    refine (RtpPacket.representable_iff _).mpr ⟨rfl, hcsrc, ?_, .inr ⟨_, rfl, hx, hdata⟩⟩
    show 16 + 4 * cc.toNat + 4 * length.toNat = 12 + 4 * cc.toNat + (4 + 4 * length.toNat)
    omega
  · let w : RtpWord := { padding, extension, cc, marker, pt, seq }
    obtain ⟨-, -, -, hlen, -, hread2, -⟩ := rtpOctets_reads w timestamp ssrc tail hcsrc rfl
    have hext : (memRead2 tail 2).toNat = (octetAt tail 2).toNat * 256 + (octetAt tail 3).toNat := memRead2_toNat tail 2
    refine exec_rtpData_of_short w ?_ s
    rw [← rtpOctets_length w, payloadStart_of_extension hx, hlen]
    simp only [extensionAt, hread2, hext]
    omega

end

section
/-! SUPPORT. One RTCP packet with legal padding by its body decoder (R122, R124), and each body decoder on the octets
after the common header: offsets count from the end of that header, and `n` is the number of content octets. -/

namespace Sys2Proof.Machine

/-! ## One packet -/

section
variable {h : RtcpHeader} {body : List Octet} {pad : Octet} {decodeBody : List Octet → Nat → Except Status RtcpBody}

/-- A packet whose body decodes is its record (R122). -/
theorem decodePacket_of_ok (hb : body.length = 4 * h.length.toNat) (hp : PaddedBy h.padding body pad) {b : RtcpBody}
    (hd : decodeBody (rtcpOctets h body) (4 + (body.length - pad.toNat)) = .ok b) :
    decodePacket h body decodeBody = .ok (packetRecord h.padding h.count h.pt h.length pad b) := by
  obtain ⟨hpad, hle⟩ := paddingOf_ok hb hp
  have hn := packetOctets_eq hb
  have hfits : ¬(rtcpOctets h body).length < packetOctets h.length := by
    rw [hn, rtcpOctets_length]
    exact lt_irrefl _
  have hstop : packetOctets h.length - pad.toNat = 4 + (body.length - pad.toNat) := by omega
  simp only [decodePacket, if_neg hfits, hpad, hstop, hd, packetRecord]

/-- Its row appends the record to PKTS (R9). -/
theorem emit_of_ok (hb : body.length = 4 * h.length.toNat) (hp : PaddedBy h.padding body pad) {b : RtcpBody}
    (hd : decodeBody (rtcpOctets h body) (4 + (body.length - pad.toNat)) = .ok b) (s : State) :
    s.emit (decodePacket h body decodeBody) =
      .next (s.withPacket (packetRecord h.padding h.count h.pt h.length pad b)) := by
  rw [decodePacket_of_ok hb hp hd]
  rfl

/-- The row of a packet whose body does not decode keeps PKTS (D35). -/
theorem emit_of_mismatch (hb : body.length = 4 * h.length.toNat) (hp : PaddedBy h.padding body pad)
    (hd : decodeBody (rtcpOctets h body) (4 + (body.length - pad.toNat)) = .error .lengthMismatch) (s : State) :
    s.emit (decodePacket h body decodeBody) = .next s.withMismatch := by
  rw [emit_decodePacket hb hp, hd]
  rfl

end

/-! ## The body decoders -/

section
variable (h : RtcpHeader) {count : BitVec 5} (body : List Octet) {n : Nat}

/-- The first content octets of a packet end `4 + n` octets after its start. -/
theorem drop_take_rtcpOctets (n : Nat) : ((rtcpOctets h body).take (4 + n)).drop 4 = body.take n := by
  rw [List.drop_take, rtcpOctets_drop, Nat.add_sub_cancel_left]

theorem octets_rtcpOctets_content (n : Nat) : octets (rtcpOctets h body) 4 n = body.take n :=
  octets_rtcpOctets h body 0 n

theorem decodeBlocks_rtcpOctets (o k : Nat) : decodeBlocks (rtcpOctets h body) (4 + o) k = decodeBlocks body o k := by
  simp only [decodeBlocks, Nat.add_assoc, decodeBlock_rtcpOctets]

/-! ### SR and RR (R126, R127) -/

theorem decodeSr_ok (hn : n = 24 + 24 * count.toNat) : decodeSr count (rtcpOctets h body) (4 + n) =
    .ok (.sr (memRead4 body 0) (memRead4 body 4) (memRead4 body 8) (memRead4 body 12) (memRead4 body 16)
      (memRead4 body 20) (decodeBlocks body 24 count.toNat)) := by
  have hread := memRead4_rtcpOctets h body
  rw [decodeSr, if_neg (by omega), ← hread 0, ← hread 4, ← hread 8, ← hread 12, ← hread 16, ← hread 20,
    ← decodeBlocks_rtcpOctets h body]

theorem decodeSr_mismatch (hn : n ≠ 24 + 24 * count.toNat) :
    decodeSr count (rtcpOctets h body) (4 + n) = .error .lengthMismatch := by
  rw [decodeSr, if_pos (by omega)]

theorem decodeRr_ok (hn : n = 4 + 24 * count.toNat) : decodeRr count (rtcpOctets h body) (4 + n) =
    .ok (.rr (memRead4 body 0) (decodeBlocks body 4 count.toNat)) := by
  rw [decodeRr, if_neg (by omega), ← memRead4_rtcpOctets h body, ← decodeBlocks_rtcpOctets h body]

theorem decodeRr_mismatch (hn : n ≠ 4 + 24 * count.toNat) :
    decodeRr count (rtcpOctets h body) (4 + n) = .error .lengthMismatch := by
  rw [decodeRr, if_pos (by omega)]

/-! ### APP and other types (R131, R132): the content as it stands -/

theorem decodeApp_rtcpOctets (n : Nat) :
    decodeApp count (rtcpOctets h body) (4 + n) = .ok (.app count (body.take n)) := by
  rw [decodeApp, Nat.add_sub_cancel_left, octets_rtcpOctets_content]

theorem decodeOther_rtcpOctets (n : Nat) : decodeOther (rtcpOctets h body) (4 + n) = .ok (.other (body.take n)) := by
  rw [decodeOther, Nat.add_sub_cancel_left, octets_rtcpOctets_content]

/-! ### BYE (R129, R130) -/

theorem decodeReason_none (p : Nat) : decodeReason body p 0 = .ok none := rfl

theorem decodeReason_some {p r : Nat} (hr : r = roundup4 (1 + (octetAt body p).toNat)) :
    decodeReason body p r = .ok (some (octets body (p + 1) (octetAt body p).toNat)) := by
  have hround := roundup4_spec (1 + (octetAt body p).toNat)
  rw [decodeReason, if_neg (by omega)]
  exact if_neg (not_not.mpr hr)

theorem decodeReason_mismatch {p r : Nat} (hpos : 0 < r) (hr : r ≠ roundup4 (1 + (octetAt body p).toNat)) :
    decodeReason body p r = .error .lengthMismatch := by
  rw [decodeReason, if_neg hpos.ne']
  exact if_pos hr

theorem decodeReason_rtcpOctets (p r : Nat) :
    decodeReason (rtcpOctets h body) (4 + p) r = decodeReason body p r := by
  simp only [decodeReason, Nat.add_assoc, memRead1_rtcpOctets, octets_rtcpOctets]

/-- The SSRCs of a BYE packet (R82). -/
def byeSsrcs (count : BitVec 5) (body : List Octet) : List U32 :=
  (List.range count.toNat).map fun i => memRead4 body (4 * i)

theorem decodeBye_ok {reason : Option (List Octet)} (hn : 4 * count.toNat ≤ n)
    (hr : decodeReason body (4 * count.toNat) (n - 4 * count.toNat) = .ok reason) :
    decodeBye count (rtcpOctets h body) (4 + n) = .ok (.bye (byeSsrcs count body) reason) := by
  have hsize : 4 + n - 4 - 4 * count.toNat = n - 4 * count.toNat := by omega
  rw [decodeBye, if_neg (by omega)]
  simp only [hsize, decodeReason_rtcpOctets, hr, memRead4_rtcpOctets, byeSsrcs]

theorem decodeBye_mismatch (hr : 4 * count.toNat ≤ n →
      decodeReason body (4 * count.toNat) (n - 4 * count.toNat) = .error .lengthMismatch) :
    decodeBye count (rtcpOctets h body) (4 + n) = .error .lengthMismatch := by
  by_cases hn : n < 4 * count.toNat
  · rw [decodeBye, if_pos (by omega)]
  · have hsize : 4 + n - 4 - 4 * count.toNat = n - 4 * count.toNat := by omega
    rw [decodeBye, if_neg (by omega)]
    simp only [hsize, decodeReason_rtcpOctets, hr (not_lt.mp hn)]

/-! ### SDES (R134 to R138) -/

variable {body}

/-- Content that is `count` chunks decodes to them. -/
theorem decodeSdes_ok {chunks : List SdesChunk} (hn : n ≤ body.length) (hc : SdesContent chunks (body.take n))
    (hcount : chunks.length = count.toNat) :
    decodeSdes count (rtcpOctets h body) (4 + n) = .ok (.sdes chunks) := by
  have hloop := decodeChunks_complete (rtcpOctets h body) (4 + n) (by rw [rtcpOctets_length]; omega) chunks _ hc 4
    (by omega) rfl (drop_take_rtcpOctets h body n)
  rw [decodeSdes, ← hcount, hloop]
  exact if_neg (not_not.mpr rfl)

/-- Content that is no `count` chunks does not decode: chunks that the loop answers and that end at the content boundary
lie there. -/
theorem decodeSdes_mismatch (hn : n ≤ body.length)
    (hnone : ¬∃ chunks : List SdesChunk, SdesContent chunks (body.take n) ∧ chunks.length = count.toNat) :
    decodeSdes count (rtcpOctets h body) (4 + n) = .error .lengthMismatch := by
  rw [decodeSdes]
  cases hloop : decodeChunks (rtcpOctets h body) (4 + n) count.toNat 4 with
  | error st => rw [decodeChunks_error hloop]
  | ok r =>
    obtain ⟨chunks, p⟩ := r
    refine if_pos fun hp => hnone ⟨chunks, ?_⟩
    rw [hp] at hloop
    obtain ⟨hlen, hc⟩ := decodeChunks_sound (rtcpOctets h body) (4 + n) (by rw [rtcpOctets_length]; omega) _ 4 chunks
      (by omega) rfl hloop
    rw [drop_take_rtcpOctets] at hc
    exact ⟨hc, hlen⟩

end

end Sys2Proof.Machine

open Sys2Proof Sys2Proof.Machine

/-- Settles O49: the two sizes are the two answers of `decodeSr`. -/
theorem senderReportRowDecodes : Obligations.SenderReportRowDecodes := by
  intro s padding count length body pad hb hp
  let h : RtcpHeader := { padding, count, pt := 200, length }
  exact ⟨fun hn => emit_of_ok (h := h) hb hp (decodeSr_ok h body hn) s,
    fun hn => emit_of_mismatch (h := h) hb hp (decodeSr_mismatch h body hn) s⟩

/-- Settles O50: the two sizes are the two answers of `decodeRr`. -/
theorem receiverReportRowDecodes : Obligations.ReceiverReportRowDecodes := by
  intro s padding count length body pad hb hp
  let h : RtcpHeader := { padding, count, pt := 201, length }
  exact ⟨fun hn => emit_of_ok (h := h) hb hp (decodeRr_ok h body hn) s,
    fun hn => emit_of_mismatch (h := h) hb hp (decodeRr_mismatch h body hn) s⟩

/-- Settles O51: the chunk loop reads the chunks that lie there (`decodeSdes_ok`), and what it answers lies there
(`decodeSdes_mismatch`). -/
theorem sdesRowDecodesItsChunks : Obligations.SdesRowDecodesItsChunks := by
  intro s padding count length body pad hb hp
  let h : RtcpHeader := { padding, count, pt := 202, length }
  have hle : body.length - pad.toNat ≤ body.length := Nat.sub_le _ _
  exact ⟨fun chunks hc hcount => emit_of_ok (h := h) hb hp (decodeSdes_ok h hle hc hcount) s,
    fun hnone => emit_of_mismatch (h := h) hb hp (decodeSdes_mismatch h hle hnone) s⟩

/-- Settles O52: with room for the SSRCs, the answer is the one for the reason, which has the octets left (R130). -/
theorem byeRowDecodes : Obligations.ByeRowDecodes := by
  rintro s padding count length body pad k r l ssrcs hb hp rfl rfl rfl rfl
  let h : RtcpHeader := { padding, count, pt := 203, length }
  refine ⟨fun hexact => ?_, fun hmore hr => ?_, fun hbad => ?_⟩
  · refine emit_of_ok (h := h) hb hp (decodeBye_ok h body hexact.ge ?_) s
    rw [hexact, Nat.sub_self, decodeReason_none]
  · exact emit_of_ok (h := h) hb hp (decodeBye_ok h body hmore.le (decodeReason_some body hr)) s
  · refine emit_of_mismatch (h := h) hb hp (decodeBye_mismatch h body fun hroom => ?_) s
    obtain ⟨hmore, hr⟩ := hbad.resolve_left (not_lt.mpr hroom)
    exact decodeReason_mismatch body (Nat.sub_pos_of_lt hmore) hr

/-- Settles O53: `decodeApp` answers the content before the padding, and has no error. -/
theorem appRowDecodes : Obligations.AppRowDecodes := by
  intro s padding count length body pad hb hp
  let h : RtcpHeader := { padding, count, pt := 204, length }
  exact emit_of_ok (h := h) hb hp (decodeApp_rtcpOctets h body _) s

/-- Settles O54: `decodeOther` answers the content before the padding, and has no error. -/
theorem otherRowDecodes : Obligations.OtherRowDecodes := by
  intro s pt padding count length body pad hb hp
  let h : RtcpHeader := { padding, count, pt, length }
  exact emit_of_ok (h := h) hb hp (decodeOther_rtcpOctets h body _) s

end

section
/-! SUPPORT. A laid-out RTCP packet reads back (R140): each body from its layout, whatever octets follow it, then the
padding, the packet and the compound buffer. -/

namespace Sys2Proof.Machine

/-! ## The parts of a representable record -/

/-- The items of a representable chunk are as R81 lays them out. -/
theorem okItems_of_representable {items : List SdesItem} (h : ∀ i ∈ items, i.representable = true) :
    OkItems items := fun i hi => by
  simpa only [SdesItem.representable, Bool.and_eq_true, decide_eq_true_eq] using h i hi

theorem RtcpPacket.representable_iff (p : RtcpPacket) : p.representable = true ↔
    p.version = 2 ∧ p.body.representable p.pt p.count = true ∧ paddingRepresentable p.padding p.padLen = true ∧
      4 + (layoutRest p).length = packetOctets p.length := by
  simp only [RtcpPacket.representable, Bool.and_eq_true, decide_eq_true_eq, and_assoc]

/-! ## SDES chunks and the BYE reason -/

theorem padTo4_length (o : List Octet) : (padTo4 o).length = roundup4 o.length := by
  obtain ⟨hle, -, -⟩ := roundup4_spec o.length
  rw [padTo4, List.length_append, List.length_replicate]
  omega

/-- Octets filled up to a word are the octets and fewer than four more. -/
theorem padTo4_fill (o : List Octet) :
    ∃ fill, padTo4 o = o ++ fill ∧ fill.length < 4 ∧ (o.length + fill.length) % 4 = 0 := by
  obtain ⟨hle, hlt, hmod⟩ := roundup4_spec o.length
  refine ⟨_, rfl, ?_, ?_⟩ <;> rw [List.length_replicate] <;> omega

/-- The laid-out chunks are SDES content: each ends with END and its fill (R80, R138). -/
theorem sdesContent_layoutChunk {chunks : List SdesChunk} (h : ∀ c ∈ chunks, OkItems c.items) :
    SdesContent chunks (chunks.flatMap layoutChunk) := by
  induction chunks with
  | nil => exact .none
  | cons c chunks ih =>
    obtain ⟨hc, hchunks⟩ := List.forall_mem_cons.mp h
    obtain ⟨fill, hlayout, hlt, hmod⟩ := padTo4_fill (octetsOf4 c.ssrc ++ (c.items.flatMap layoutItem ++ [0]))
    simp only [List.length_append, octetsOf4_length, List.length_singleton, ← Nat.add_assoc] at hmod
    have hcontent := SdesContent.ended c fill chunks _ hc ⟨hlt, hmod⟩ (ih hchunks)
    rw [List.flatMap_cons, layoutChunk, hlayout]
    simpa only [List.append_assoc, List.cons_append, List.nil_append] using hcontent

/-- A laid-out reason of at most 255 octets reads back behind other octets (R82, R130). -/
theorem decodeReason_layoutReason {reason : Option (List Octet)} (h : ∀ text ∈ reason, text.length ≤ 255)
    (pre post : List Octet) :
    decodeReason (pre ++ (layoutReason reason ++ post)) pre.length (layoutReason reason).length = .ok reason := by
  cases reason with
  | none => rfl
  | some text =>
    have hlen : (BitVec.ofNat 8 text.length).toNat = text.length := by
      have := h text rfl
      rw [BitVec.toNat_ofNat]
      omega
    obtain ⟨fill, hlayout⟩ : ∃ fill, layoutReason (some text) = BitVec.ofNat 8 text.length :: (text ++ fill) := ⟨_, rfl⟩
    have hsize : (layoutReason (some text)).length = roundup4 (1 + text.length) := by
      rw [layoutReason, padTo4_length, List.length_cons, Nat.add_comm 1]
    have hread : octetAt (pre ++ (layoutReason (some text) ++ post)) pre.length = BitVec.ofNat 8 text.length := by
      rw [hlayout]
      exact octetAt_append pre _ 0
    have htext : octets (pre ++ (layoutReason (some text) ++ post)) (pre.length + 1) text.length = text := by
      rw [octets_append, hlayout]
      show (text ++ fill ++ post).take text.length = text
      rw [List.append_assoc, List.take_left]
    rw [decodeReason_some _ (by rw [hread, hlen, hsize]), hread, hlen, htext]

/-! ## Bodies -/

section
variable (h : RtcpHeader) (tail : List Octet)

theorem decodeSr_layoutBody {ssrc ntpMsw ntpLsw rtpTs packetCount octetCount : U32} {blocks : List ReportBlock}
    (hblocks : ∀ b ∈ blocks, b.representable = true) (hcount : blocks.length = h.count.toNat) {b : RtcpBody}
    (hb : b = .sr ssrc ntpMsw ntpLsw rtpTs packetCount octetCount blocks) :
    decodeSr h.count (rtcpOctets h (layoutBody b ++ tail)) (4 + (layoutBody b).length) = .ok b := by
  let pre := octetsOf4 ssrc ++ (octetsOf4 ntpMsw ++ (octetsOf4 ntpLsw ++ (octetsOf4 rtpTs ++ (octetsOf4 packetCount ++
    octetsOf4 octetCount))))
  have hlayout : layoutBody b = pre ++ blocks.flatMap layoutBlock := by
    rw [hb]
    rfl
  have hpre : pre.length = 24 := rfl
  have hread : decodeBlocks (layoutBody b ++ tail) 24 h.count.toNat = blocks := by
    rw [hlayout, List.append_assoc, ← hcount, ← hpre]
    exact decodeBlocks_layoutBlock hblocks pre tail
  rw [decodeSr_ok _ _ (by rw [hlayout, List.length_append, flatMap_layoutBlock_length, hpre, hcount]), hread, hb]
  congr 2
  all_goals exact memRead4_octetsOf4 _ []

theorem decodeRr_layoutBody {ssrc : U32} {blocks : List ReportBlock}
    (hblocks : ∀ b ∈ blocks, b.representable = true) (hcount : blocks.length = h.count.toNat) :
    decodeRr h.count (rtcpOctets h (layoutBody (.rr ssrc blocks) ++ tail)) (4 + (layoutBody (.rr ssrc blocks)).length) =
      .ok (.rr ssrc blocks) := by
  have hread : decodeBlocks (layoutBody (.rr ssrc blocks) ++ tail) 4 h.count.toNat = blocks := by
    rw [layoutBody, List.append_assoc, ← hcount]
    exact decodeBlocks_layoutBlock hblocks (octetsOf4 ssrc) tail
  rw [decodeRr_ok _ _ (by rw [layoutBody, List.length_append, flatMap_layoutBlock_length, octetsOf4_length, hcount]),
    hread]
  congr 2
  exact memRead4_octetsOf4 _ _

theorem decodeSdes_layoutBody {chunks : List SdesChunk} (hitems : ∀ c ∈ chunks, OkItems c.items)
    (hcount : chunks.length = h.count.toNat) :
    decodeSdes h.count (rtcpOctets h (layoutBody (.sdes chunks) ++ tail)) (4 + (layoutBody (.sdes chunks)).length) =
      .ok (.sdes chunks) := by
  refine decodeSdes_ok h ?_ ?_ hcount
  · rw [List.length_append]
    exact Nat.le_add_right _ _
  · rw [List.take_left]
    exact sdesContent_layoutChunk hitems

theorem decodeBye_layoutBody {ssrcs : List U32} {reason : Option (List Octet)}
    (hreason : ∀ text ∈ reason, text.length ≤ 255) (hcount : ssrcs.length = h.count.toNat) :
    decodeBye h.count (rtcpOctets h (layoutBody (.bye ssrcs reason) ++ tail))
      (4 + (layoutBody (.bye ssrcs reason)).length) = .ok (.bye ssrcs reason) := by
  have hssrcs := flatMap_octetsOf4_length ssrcs
  have hlayout : layoutBody (.bye ssrcs reason) ++ tail = ssrcs.flatMap octetsOf4 ++ (layoutReason reason ++ tail) :=
    List.append_assoc _ _ _
  have hlen : (layoutBody (.bye ssrcs reason)).length = 4 * h.count.toNat + (layoutReason reason).length := by
    rw [layoutBody, List.length_append, hssrcs, hcount]
  have hread : byeSsrcs h.count (layoutBody (.bye ssrcs reason) ++ tail) = ssrcs := by
    have := memRead4s_octetsOf4 [] ssrcs (layoutReason reason ++ tail)
    simpa only [byeSsrcs, List.nil_append, List.length_nil, Nat.zero_add, hcount, ← hlayout] using this
  rw [decodeBye_ok h _ (reason := reason) (by omega), hread]
  rw [hlen, Nat.add_sub_cancel_left, hlayout, ← hcount, ← hssrcs]
  exact decodeReason_layoutReason hreason _ tail

/-- A packet type without a row of its own has the decoder of R132. -/
theorem bodyDecoder_of_unnamed {h : RtcpHeader} (hpt : namedPacketType h.pt = false) : bodyDecoder h = decodeOther := by
  have hne : ∀ n : Octet, namedPacketType n = true → h.pt ≠ n := fun n hn he =>
    Bool.false_ne_true (hpt.symm.trans (he ▸ hn))
  rw [bodyDecoder, if_neg (hne 200 (by decide)), if_neg (hne 201 (by decide)), if_neg (hne 202 (by decide)),
    if_neg (hne 203 (by decide)), if_neg (hne 204 (by decide))]

/-- The body decoder of a packet type reads a representable body from its layout, whatever follows (R125). -/
theorem bodyDecoder_layoutBody {b : RtcpBody} (hb : b.representable h.pt h.count = true) :
    bodyDecoder h (rtcpOctets h (layoutBody b ++ tail)) (4 + (layoutBody b).length) = .ok b := by
  cases b with
  | sr ssrc ntpMsw ntpLsw rtpTs packetCount octetCount blocks =>
    simp only [RtcpBody.representable, Bool.and_eq_true, decide_eq_true_eq, List.all_eq_true] at hb
    obtain ⟨⟨hpt, hcount⟩, hblocks⟩ := hb
    rw [bodyDecoder, if_pos hpt]
    exact decodeSr_layoutBody h tail hblocks hcount rfl
  | rr ssrc blocks =>
    simp only [RtcpBody.representable, Bool.and_eq_true, decide_eq_true_eq, List.all_eq_true] at hb
    obtain ⟨⟨hpt, hcount⟩, hblocks⟩ := hb
    simp only [bodyDecoder, hpt]
    exact decodeRr_layoutBody h tail hblocks hcount
  | sdes chunks =>
    simp only [RtcpBody.representable, Bool.and_eq_true, decide_eq_true_eq, List.all_eq_true] at hb
    obtain ⟨⟨hpt, hcount⟩, hitems⟩ := hb
    simp only [bodyDecoder, hpt]
    exact decodeSdes_layoutBody h tail (fun c hc => okItems_of_representable (hitems c hc)) hcount
  | bye ssrcs reason =>
    simp only [RtcpBody.representable, Bool.and_eq_true, decide_eq_true_eq] at hb
    obtain ⟨⟨hpt, hcount⟩, hreason⟩ := hb
    simp only [bodyDecoder, hpt]
    refine decodeBye_layoutBody h tail ?_ hcount
    rintro text rfl
    exact of_decide_eq_true hreason
  | app subtype data =>
    simp only [RtcpBody.representable, Bool.and_eq_true, decide_eq_true_eq] at hb
    obtain ⟨hpt, rfl⟩ := hb
    simp only [bodyDecoder, hpt]
    exact (decodeApp_rtcpOctets h _ _).trans (by rw [List.take_left]; rfl)
  | other data =>
    simp only [RtcpBody.representable, Bool.not_eq_true'] at hb
    rw [bodyDecoder_of_unnamed hb, decodeOther_rtcpOctets, List.take_left]
    rfl

end

/-! ## Packets -/

section
variable {padding : BitVec 1} {padLen : Octet} (h : paddingRepresentable padding padLen = true)
include h

/-- The padding of R84 is absent, or a positive number of octets. -/
theorem paddingRepresentable_cases : (padding = 0 ∧ padLen = 0) ∨ (padding = 1 ∧ padLen ≠ 0) := by
  rw [paddingRepresentable] at h
  split at h
  · exact .inl ⟨‹_›, of_decide_eq_true h⟩
  · exact .inr ⟨(BitVec.eq_zero_or_eq_one padding).resolve_left ‹_›, of_decide_eq_true h⟩

theorem layoutPadding_length : (layoutPadding padding padLen).length = padLen.toNat := by
  obtain ⟨rfl, rfl⟩ | ⟨rfl, hne⟩ := paddingRepresentable_cases h
  · rfl
  · have hpos : padLen.toNat ≠ 0 := fun h0 => hne (BitVec.eq_of_toNat_eq h0)
    rw [layoutPadding, if_neg (by decide), List.length_append, List.length_replicate, List.length_singleton]
    omega

/-- Laid-out padding is legal behind any content. -/
theorem paddedBy_layoutPadding (content : List Octet) :
    PaddedBy padding (content ++ layoutPadding padding padLen) padLen := by
  have hlen := layoutPadding_length h
  obtain ⟨rfl, rfl⟩ | ⟨rfl, hne⟩ := paddingRepresentable_cases h
  · exact .inl ⟨rfl, rfl⟩
  · refine .inr ⟨rfl, ?_, hne, ?_⟩
    · rw [layoutPadding, if_neg (by decide), ← List.append_assoc, List.getLast?_concat]
    · rw [List.length_append, hlen]
      exact Nat.le_add_left _ _

end

/-- The header fields of a record. -/
def RtcpPacket.header (p : RtcpPacket) : RtcpHeader :=
  { padding := p.padding, count := p.count, pt := p.pt, length := p.length }

theorem layoutRtcp_eq (p : RtcpPacket) : layoutRtcp p = rtcpOctets p.header (layoutRest p) := rfl

theorem layoutRest_length {p : RtcpPacket} (h : p.representable = true) :
    (layoutRest p).length = 4 * p.header.length.toNat := by
  obtain ⟨-, -, -, hlen⟩ := p.representable_iff.mp h
  rw [packetOctets] at hlen
  show _ = 4 * p.length.toNat
  omega

/-- The octets of a representable record after its header decode to the record. -/
theorem decodeOne_layoutRest {p : RtcpPacket} (h : p.representable = true) :
    decodeOne p.header (layoutRest p) = .ok p := by
  obtain ⟨hversion, hbody, hpadding, -⟩ := p.representable_iff.mp h
  have hcontent : (layoutRest p).length - p.padLen.toNat = (layoutBody p.body).length := by
    rw [layoutRest, List.length_append, layoutPadding_length hpadding, Nat.add_sub_cancel]
  have hd : bodyDecoder p.header (rtcpOctets p.header (layoutRest p)) (4 + ((layoutRest p).length - p.padLen.toNat)) =
      .ok p.body := by
    rw [hcontent]
    exact bodyDecoder_layoutBody p.header _ hbody
  have hrecord : packetRecord p.padding p.count p.pt p.length p.padLen p.body = p := by
    rw [packetRecord, ← hversion]
  rw [decodeOne, decodePacket_of_ok (layoutRest_length h) (paddedBy_layoutPadding hpadding _) hd]
  exact congrArg _ hrecord

/-- The layout of representable records decodes without error to them (R85, R140). -/
theorem compound_layoutCompound {ps : List RtcpPacket} (h : ∀ p ∈ ps, p.representable = true) :
    compound (layoutCompound ps).length (layoutCompound ps) = (.ok, ps) := by
  induction ps with
  | nil => rfl
  | cons p ps ih =>
    obtain ⟨hp, hps⟩ := List.forall_mem_cons.mp h
    have hone : compound (layoutRtcp p).length (layoutRtcp p) = (.ok, [p]) :=
      compound_one (layoutRest_length hp) (decodeOne_layoutRest hp)
    have hcons : layoutCompound (p :: ps) = layoutRtcp p ++ layoutCompound ps := rfl
    rw [hcons, compound_append (by rw [hone]), hone, ih hps]
    rfl

theorem le_layoutCompound_length {ps : List RtcpPacket} (hne : ps ≠ []) : 4 ≤ (layoutCompound ps).length := by
  obtain ⟨p, ps, rfl⟩ := List.exists_cons_of_ne_nil hne
  rw [layoutCompound, List.flatMap_cons, List.length_append, layoutRtcp_eq, rtcpOctets_length]
  omega

end Sys2Proof.Machine

open Sys2Proof Sys2Proof.Machine

/-- Settles O56, by induction on the records: each is one whole packet in front of the others, and each part of it reads
back from its layout (`decodeOne_layoutRest`). -/
theorem rtcpRecordsRoundTrip : Obligations.RtcpRecordsRoundTrip := by
  intro s ps hne hps hmax
  rw [exec_decodeRtcp hmax (le_layoutCompound_length hne), compound_layoutCompound hps]
  rfl

end

section
/-! SUPPORT. DECODE_RTCP as one function of MAX_BUF_OCTETS and the buffer (R123, R133), and a fragment behind whole
packets (R139). -/

namespace Sys2Proof.Machine

/-- STATUS and PKTS of DECODE_RTCP (R123). -/
def decodeRtcpBuffer (maxOctets : Nat) (buf : List Octet) : Status × List RtcpPacket :=
  if maxOctets < buf.length then (.illegalCommand, [])
  else if buf.length < 4 then (.tooShort, [])
  else compound buf.length buf

theorem exec_decodeRtcp_of_long {buf : List Octet} {s : State} (hlong : s.params.maxBufOctets < buf.length) :
    exec (.decodeRtcp buf) s = .next (s.respond (Response.ofStatus .illegalCommand)) := by
  show execDecodeRtcp buf s = _
  rw [execDecodeRtcp, if_pos hlong, State.raise_eq]

/-- DECODE_RTCP answers `decodeRtcpBuffer`, and changes nothing but the response. -/
theorem exec_decodeRtcp_eq_buffer (buf : List Octet) (s : State) : exec (.decodeRtcp buf) s =
    .next (s.respond (rtcpResponse (decodeRtcpBuffer s.params.maxBufOctets buf).1
      (decodeRtcpBuffer s.params.maxBufOctets buf).2)) := by
  rw [decodeRtcpBuffer]
  split
  · exact exec_decodeRtcp_of_long ‹_›
  · split
    · exact exec_decodeRtcp_of_short (not_lt.mp ‹_›) ‹_›
    · exact exec_decodeRtcp (not_lt.mp ‹_›) (not_lt.mp ‹_›)

theorem frameRtcp_of_short {buf : List Octet} (hshort : buf.length < 4) : frameRtcp buf = .error .lengthMismatch :=
  if_pos hshort

/-- One to three octets are no packet. -/
theorem compound_fragment {b : List Octet} (hpos : 1 ≤ b.length) (hshort : b.length ≤ 3) :
    compound b.length b = (.lengthMismatch, []) :=
  compound_frame_error (List.ne_nil_of_length_pos hpos) (frameRtcp_of_short (Nat.lt_succ_of_le hshort))

end Sys2Proof.Machine

open Sys2Proof Sys2Proof.Machine

/-- Settles O8: the whole packets decode as they do alone (`compound_append`), and the octets left are no packet. -/
theorem trailingFragmentIsMismatch : Obligations.TrailingFragmentIsMismatch := by
  intro a b s t hmax hpos hshort hx hok
  obtain ⟨hmin, hclean, hpkts⟩ := exec_decodeRtcp_ok (by omega) hx hok
  have hlen : (a ++ b).length = a.length + b.length := List.length_append
  rw [exec_decodeRtcp (by omega) (by omega), compound_append hclean, compound_fragment hpos hshort, hpkts,
    List.append_nil]
  rfl

/-- Settles O57: the answer is a function of MAX_BUF_OCTETS and the buffer (`exec_decodeRtcp_eq_buffer`), whatever the
table. -/
theorem decodeRtcpWritesOnlyItsResponse : Obligations.DecodeRtcpWritesOnlyItsResponse :=
  fun s buf => ⟨_, _, exec_decodeRtcp_eq_buffer buf s, fun table => exec_decodeRtcp_eq_buffer buf (s.withTable table)⟩

/-- Settles O47: the two size checks, in their order. -/
theorem rtcpBufferSizeIsChecked : Obligations.RtcpBufferSizeIsChecked :=
  fun _ _ => ⟨exec_decodeRtcp_of_long, exec_decodeRtcp_of_short⟩

end

section
/-! SUPPORT. RTP_RECEIVED by its branches (R161 to R170): what the validator makes of an entry in each, with the
distances of R166 as integers, and what the command then answers. -/

namespace Sys2Proof.Machine

/-! ## The arithmetic of R166 -/

/-- The distance, by whether the sequence number is the lower one. -/
theorem seqDistance_eq (e : Entry) (seq : U16) : seqDistance e seq =
    if seq.toNat < e.maxSeq.toNat then (seq.toNat : Int) + 65536 - e.maxSeq.toNat
    else (seq.toNat : Int) - e.maxSeq.toNat := by
  have hseq := seq.isLt
  have hmax := e.maxSeq.isLt
  unfold seqDistance
  split <;> omega

/-- Read as a signed 16-bit value, a distance of at least 32768 is a negative one (R166). -/
theorem signedDistance_cases (e : Entry) (seq : U16) {d : Int} (hd : d = (seq - e.maxSeq).toInt) :
    (d = seqDistance e seq ∧ 0 ≤ seqDistance e seq ∧ seqDistance e seq < 32768) ∨
    (d = seqDistance e seq - 65536 ∧ 32768 ≤ seqDistance e seq ∧ seqDistance e seq < 65536) := by
  have hlt := (seq - e.maxSeq).isLt
  rw [hd, ← udelta_eq, udelta, BitVec.toInt_eq_toNat_cond]
  split <;> omega

theorem setWidth_eq_badSeq (e : Entry) (seq : U16) : seq.setWidth 17 = e.badSeq ↔ seq.toNat = e.badSeq.toNat := by
  have hseq := seq.isLt
  rw [← BitVec.toNat_inj, BitVec.toNat_setWidth, Nat.mod_eq_of_lt (by omega)]

/-- The number a jump announces, in the 17 bits of `bad_seq` (R168). -/
theorem setWidth_succ (seq : U16) : (seq + 1).setWidth 17 = BitVec.ofNat 17 ((seq.toNat + 1) % 65536) := by
  apply BitVec.eq_of_toNat_eq
  simp [BitVec.toNat_add]

/-! ## The validator's branches -/

section
variable {e : Entry} {seq : U16}

theorem Entry.onProbation_iff : e.onProbation = true ↔ e.probation ≠ 0 := decide_eq_true_iff

theorem validate_of_match (hp : e.probation ≠ 0) (hseq : seq.toNat = e.maxSeq.toNat + 1) : validate e seq =
    ({ e with probation := e.probation - 1, maxSeq := seq, received := e.received + 1 }, .probAdvance) := by
  rw [validate, if_pos (Entry.onProbation_iff.mpr hp), validateOnProbation, if_pos hseq]
  rfl

theorem validate_of_mismatch (hp : e.probation ≠ 0) (hseq : seq.toNat ≠ e.maxSeq.toNat + 1) :
    validate e seq = ({ e with probation := 1, maxSeq := seq }, .probReset) := by
  rw [validate, if_pos (Entry.onProbation_iff.mpr hp), validateOnProbation, if_neg hseq]
  rfl

/-- The Valid branches test the distance of R166. -/
theorem validate_of_valid (hp : e.probation = 0) : validate e seq =
    if 1 ≤ seqDistance e seq ∧ seqDistance e seq < 3000 then
      ({ e with cycles := cyclesAfter e seq, maxSeq := seq, received := e.received + 1 }, .inOrder)
    else if 3000 ≤ seqDistance e seq ∧ seqDistance e seq ≤ 65436 then
      if seq.toNat = e.badSeq.toNat then (initEntry e.ssrc seq, .restart)
      else ({ e with badSeq := BitVec.ofNat 17 ((seq.toNat + 1) % 65536) }, .jump)
    else ({ e with received := e.received + 1 }, .duplicate) := by
  have hvalid : ¬e.onProbation = true := fun h => Entry.onProbation_iff.mp h hp
  rw [validate, if_neg hvalid, validateValid, ← udelta_eq]
  simp only [setWidth_eq_badSeq, setWidth_succ, Config.maxDropout, Config.rtpSeqMod, Config.maxMisorder]
  norm_cast

theorem validate_of_inOrder (hp : e.probation = 0) (hlo : 1 ≤ seqDistance e seq) (hhi : seqDistance e seq < 3000) :
    validate e seq =
      ({ e with cycles := cyclesAfter e seq, maxSeq := seq, received := e.received + 1 }, .inOrder) := by
  rw [validate_of_valid hp, if_pos ⟨hlo, hhi⟩]

theorem validate_of_restart (hp : e.probation = 0) (hlo : 3000 ≤ seqDistance e seq) (hhi : seqDistance e seq ≤ 65436)
    (hbad : seq.toNat = e.badSeq.toNat) : validate e seq = (initEntry e.ssrc seq, .restart) := by
  rw [validate_of_valid hp, if_neg (by omega), if_pos ⟨hlo, hhi⟩, if_pos hbad]

theorem validate_of_jump (hp : e.probation = 0) (hlo : 3000 ≤ seqDistance e seq) (hhi : seqDistance e seq ≤ 65436)
    (hbad : seq.toNat ≠ e.badSeq.toNat) :
    validate e seq = ({ e with badSeq := BitVec.ofNat 17 ((seq.toNat + 1) % 65536) }, .jump) := by
  rw [validate_of_valid hp, if_neg (by omega), if_pos ⟨hlo, hhi⟩, if_neg hbad]

theorem validate_of_duplicate (hp : e.probation = 0) (hd : seqDistance e seq = 0 ∨ 65436 < seqDistance e seq) :
    validate e seq = ({ e with received := e.received + 1 }, .duplicate) := by
  rw [validate_of_valid hp, if_neg (by omega), if_neg (by omega)]

/-- The four entries the validator makes of a Valid one, each with its class. -/
theorem validate_valid_cases (seq : U16) (hp : e.probation = 0) :
    validate e seq = ({ e with cycles := cyclesAfter e seq, maxSeq := seq, received := e.received + 1 }, .inOrder) ∨
    validate e seq = ({ e with received := e.received + 1 }, .duplicate) ∨
    validate e seq = ({ e with badSeq := BitVec.ofNat 17 ((seq.toNat + 1) % 65536) }, .jump) ∨
    validate e seq = (initEntry e.ssrc seq, .restart) := by
  rw [validate_of_valid hp]
  split_ifs
  · exact .inl rfl
  · exact .inr (.inr (.inr rfl))
  · exact .inr (.inr (.inl rfl))
  · exact .inr (.inl rfl)

/-- The partition of R166 by the signed distance. -/
theorem validate_class_of_valid (hp : e.probation = 0) {d : Int} (hd : d = (seq - e.maxSeq).toInt) :
    (validate e seq).2 =
      if 1 ≤ d ∧ d ≤ 2999 then .inOrder
      else if -99 ≤ d ∧ d ≤ 0 then .duplicate
      else if seq.toNat = e.badSeq.toNat then .restart
      else .jump := by
  have hcases := signedDistance_cases e seq hd
  split_ifs with hin hdup hbad
  · rw [validate_of_inOrder hp (by omega) (by omega)]
  · rw [validate_of_duplicate hp (by omega)]
  · rw [validate_of_restart hp (by omega) (by omega) hbad]
  · rw [validate_of_jump hp (by omega) (by omega) hbad]

end

/-! ## The extended maximum (R25, R175(b)) -/

@[simp] theorem jitterStep_extMax (e : Entry) (rtpTs arrival : U32) :
    (jitterStep e rtpTs arrival).extMax = e.extMax := by
  rw [Entry.extMax, jitterStep_cycles, jitterStep_maxSeq, Entry.extMax]

theorem rtpSeqMod_toNat : (BitVec.ofNat 32 Config.rtpSeqMod).toNat = 65536 := rfl

/-- ExtMax as a number: `cycles` plus the sequence number, in 32 bits (R25). -/
theorem add_seq_toNat (cycles : U32) (seq : U16) :
    (cycles + seq.setWidth 32).toNat = (cycles.toNat + seq.toNat) % 2 ^ 32 := by
  have hseq := seq.isLt
  rw [BitVec.toNat_add, BitVec.toNat_setWidth, Nat.mod_eq_of_lt (a := seq.toNat) (by omega)]

/-- An in-order packet moves ExtMax by its distance: the wrap that lowers the number raises `cycles`. -/
theorem extMax_of_inOrder (e : Entry) (seq : U16) :
    ((cyclesAfter e seq + seq.setWidth 32).toNat : Int) = ((e.extMax.toNat : Int) + seqDistance e seq) % 2 ^ 32 := by
  rw [add_seq_toNat, Entry.extMax, add_seq_toNat, cyclesAfter, seqDistance_eq]
  by_cases hwrap : seq.toNat < e.maxSeq.toNat
  · rw [if_pos hwrap, if_pos hwrap, BitVec.toNat_add, rtpSeqMod_toNat]
    omega
  · rw [if_neg hwrap, if_neg hwrap]
    omega

/-! ## The command -/

/-- A created entry has `cycles` 0, so RES0 is the sequence number (R171). -/
theorem initEntry_extended (ssrc : U32) (seq : U16) : (initEntry ssrc seq).cycles + seq.setWidth 32 = seq.setWidth 32 :=
  BitVec.zero_add _

theorem received_of_accepts {r : Entry × RxClass} (h : r.2.accepts = true) (rtpTs arrival : U32) :
    received r rtpTs arrival = jitterStep r.1 rtpTs arrival := if_pos h

theorem received_of_rejects {r : Entry × RxClass} (h : r.2.accepts = false) (rtpTs arrival : U32) :
    received r rtpTs arrival = r.1 := if_neg (by simp [h])

theorem rxResponse_of_accepts {cls : RxClass} (h : cls.accepts = true) (e : Entry) (seq : U16) : rxResponse cls e seq =
    { Response.ofStatus .ok with cls := cls.code, res0 := e.cycles + seq.setWidth 32 } := if_pos h

theorem rxResponse_of_rejects {cls : RxClass} (h : cls.accepts = false) (e : Entry) (seq : U16) :
    rxResponse cls e seq = { Response.ofStatus .rejected with cls := cls.code } := if_neg (by simp [h])

/-- The code names the class. -/
theorem RxClass.code_injective : Function.Injective RxClass.code := by
  intro a b
  cases a <;> cases b <;> decide

theorem rxResponse_cls (cls : RxClass) (e : Entry) (seq : U16) : (rxResponse cls e seq).cls = cls.code := by
  cases cls <;> rfl

theorem rxResponse_ok_iff (cls : RxClass) (e : Entry) (seq : U16) :
    (rxResponse cls e seq).status = Status.ok.code ↔ cls.accepts = true := by
  cases ha : cls.accepts
  · rw [rxResponse_of_rejects ha]
    exact iff_of_false (show Status.rejected.code ≠ Status.ok.code by decide) (by decide)
  · rw [rxResponse_of_accepts ha]
    exact iff_of_true rfl rfl

section
variable {s : State} {ssrc : U32} {seq : U16} {e e' : Entry} {cls : RxClass} (rtpTs arrival : U32)

/-- With no entry and none free (R162). -/
theorem exec_rtpReceived_of_full (hl : s.table.lookup ssrc = none) (hc : s.params.maxSources ≤ s.table.count) :
    exec (.rtpReceived ssrc seq rtpTs arrival) s = .next (s.respond (Response.ofStatus .tableFull)) := by
  show execRtpReceived ssrc seq rtpTs arrival s = _
  rw [execRtpReceived, hl]
  exact if_pos hc

/-- An accepted packet: the jitter step runs on the validator's entry, and RES0 is the extended number (R171, R172). -/
theorem exec_rtpReceived_of_accepts (hl : s.table.lookup ssrc = some e) (hv : validate e seq = (e', cls))
    (ha : cls.accepts = true) : ∃ t, exec (.rtpReceived ssrc seq rtpTs arrival) s = .next t ∧
      s.Stored t ssrc (some (jitterStep e' rtpTs arrival))
        { Response.ofStatus .ok with cls := cls.code, res0 := e'.cycles + seq.setWidth 32 } := by
  have h := execRtpReceived_stored hl seq rtpTs arrival
  rwa [hv, received_of_accepts ha, rxResponse_of_accepts ha, jitterStep_cycles] at h

/-- A rejected packet: the validator's entry is stored as it is (R172, R173). -/
theorem exec_rtpReceived_of_rejects (hl : s.table.lookup ssrc = some e) (hv : validate e seq = (e', cls))
    (ha : cls.accepts = false) : ∃ t, exec (.rtpReceived ssrc seq rtpTs arrival) s = .next t ∧
      s.Stored t ssrc (some e') { Response.ofStatus .rejected with cls := cls.code } := by
  have h := execRtpReceived_stored hl seq rtpTs arrival
  rwa [hv, received_of_rejects ha, rxResponse_of_rejects ha] at h

end

end Sys2Proof.Machine

open Sys2Proof Sys2Proof.Machine

/-- Settles O17: an absent SSRC meets a table with no room, the one check of R162 (`exec_rtpReceived_of_full`). -/
theorem fullTableRefusesNewSource : Obligations.FullTableRefusesNewSource :=
  fun _ _ _ rtpTs arrival hl hc => exec_rtpReceived_of_full rtpTs arrival hl hc

/-- Settles O16: what is stored is InitEntry after its jitter step (`jitterStep_initEntry`), whose `cycles` is 0. -/
theorem newSourceIsAccepted : Obligations.NewSourceIsAccepted := by
  intro s ssrc seq rtpTs arrival hl hc
  obtain ⟨t, hx, hstored⟩ := execRtpReceived_created hl hc seq rtpTs arrival
  rw [received_of_accepts rfl, rxResponse_of_accepts rfl, jitterStep_cycles, initEntry_extended,
    jitterStep_initEntry] at hstored
  exact ⟨t, hx, hstored⟩

/-- Settles O18: `validate_of_match`, whose class accepts. -/
theorem probationCountsDownOnMatch : Obligations.ProbationCountsDownOnMatch :=
  fun _ _ _ rtpTs arrival _ hl hp hseq => exec_rtpReceived_of_accepts rtpTs arrival hl (validate_of_match hp hseq) rfl

/-- Settles O19: `validate_of_mismatch`, whose class rejects. -/
theorem probationMismatchRearms : Obligations.ProbationMismatchRearms :=
  fun _ _ _ rtpTs arrival _ hl hp hseq =>
    exec_rtpReceived_of_rejects rtpTs arrival hl (validate_of_mismatch hp hseq) rfl

/-- Settles O20: `validate_of_inOrder`, whose class accepts; the first clause is the distance by cases
(`seqDistance_eq`). -/
theorem inOrderPacketIsAccepted : Obligations.InOrderPacketIsAccepted := by
  intro s ssrc seq rtpTs arrival e hl hp hlo hhi
  constructor
  · rw [seqDistance_eq]
    have hseq := seq.isLt
    split <;> omega
  · obtain ⟨t, hx, hstored⟩ := exec_rtpReceived_of_accepts rtpTs arrival hl (validate_of_inOrder hp hlo hhi) rfl
    exact ⟨t, cyclesAfter e seq, rfl, hx, hstored⟩

/-- Settles O21: `validate_of_jump`, whose class rejects. -/
theorem largeJumpIsRejected : Obligations.LargeJumpIsRejected :=
  fun _ _ _ rtpTs arrival _ hl hp hlo hhi hbad =>
    exec_rtpReceived_of_rejects rtpTs arrival hl (validate_of_jump hp hlo hhi hbad) rfl

/-- Settles O22: `validate_of_restart`, whose class accepts; the entry is InitEntry after its jitter step. -/
theorem announcedJumpRestartsSource : Obligations.AnnouncedJumpRestartsSource := by
  intro s ssrc seq rtpTs arrival e hl hp hlo hhi hbad
  obtain ⟨t, hx, hstored⟩ := exec_rtpReceived_of_accepts rtpTs arrival hl (validate_of_restart hp hlo hhi hbad) rfl
  rw [(Table.lookup_some hl).2, initEntry_extended, jitterStep_initEntry] at hstored
  exact ⟨t, hx, hstored⟩

/-- Settles O23: `validate_of_duplicate`, whose class rejects. -/
theorem duplicateIsRejectedButCounted : Obligations.DuplicateIsRejectedButCounted :=
  fun _ _ _ rtpTs arrival _ hl hp hd => exec_rtpReceived_of_rejects rtpTs arrival hl (validate_of_duplicate hp hd) rfl

/-- Settles O24: the class is the validator's (`validate_class_of_valid`), STATUS says whether it accepts, and in the
duplicate range the entry stored is the counted one. -/
theorem validSourceClassBySignedDistance : Obligations.ValidSourceClassBySignedDistance := by
  intro s ssrc seq rtpTs arrival e hl hp
  obtain ⟨t, hx, hentry, -, -, hresp⟩ := execRtpReceived_stored hl seq rtpTs arrival
  obtain ⟨d, hd⟩ : ∃ d, d = (seq - e.maxSeq).toInt := ⟨_, rfl⟩
  refine ⟨t, d, hd, hx, ?_, ?_, fun hdup => ?_⟩
  · rw [hresp, rxResponse_cls, validate_class_of_valid hp hd]
    split_ifs <;> rfl
  · rw [hresp, rxResponse_ok_iff, validate_class_of_valid hp hd]
    split_ifs
    · exact iff_of_true rfl (by omega)
    · exact iff_of_false (by decide) (by omega)
    · exact iff_of_true rfl (by omega)
    · exact iff_of_false (by decide) (by omega)
  · have hdist : seqDistance e seq = 0 ∨ 65436 < seqDistance e seq := by
      have hcases := signedDistance_cases e seq hd
      omega
    rw [validate_of_duplicate hp hdist] at hentry
    exact ⟨_, hentry, rfl⟩

/-- Settles O28, by the four entries the validator makes of a Valid one (`validate_valid_cases`); a restart has neither
class. -/
theorem extendedMaximumInOrderDuplicateAndJump : Obligations.ExtendedMaximumInOrderDuplicateAndJump := by
  intro s t ssrc seq rtpTs arrival e hl hp hx
  obtain ⟨u, hu, hentry, -, -, hresp⟩ := execRtpReceived_stored hl seq rtpTs arrival
  cases hx.symm.trans hu
  refine ⟨_, hentry, ?_⟩
  simp only [hresp, rxResponse_cls, RxClass.code_injective.eq_iff]
  rcases validate_valid_cases seq hp with hv | hv | hv | hv <;> rw [hv]
  · rw [received_of_accepts rfl, rxResponse_of_accepts rfl, jitterStep_extMax, jitterStep_cycles]
    exact ⟨fun _ => ⟨extMax_of_inOrder e seq, rfl⟩, by simp⟩
  · exact ⟨by simp, fun _ => rfl⟩
  · exact ⟨by simp, fun _ => rfl⟩
  · simp

end

section
/-! SUPPORT. Which source a command names, and what each command can answer: the ones that name a source by whether it
has an entry, the others as a response whose CLASS and RES0 are 0 (R97, R173, R231). -/

namespace Sys2Proof

/-- The source a command names (R95). -/
def Instr.source : Instr → Option U32
  | .rtpReceived ssrc _ _ _ => some ssrc
  | .buildReport ssrc _ => some ssrc
  | .removeSource ssrc => some ssrc
  | .querySource ssrc => some ssrc
  | _ => none

end Sys2Proof

namespace Sys2Proof.Machine

/-! ## The commands that name a source -/

/-- STATUS, CLASS and RES0 of what is no RTP_RECEIVED: a listed STATUS, and the other two 0 (R97, R231). -/
structure Response.Unclassified (r : Response) : Prop where
  status : ∃ st : Status, r.status = st.code
  cls : r.cls = 0
  res0 : r.res0 = 0

theorem unclassified_ofStatus (st : Status) : (Response.ofStatus st).Unclassified := ⟨⟨st, rfl⟩, rfl, rfl⟩

section
variable {s : State} {ssrc : U32}

theorem exec_buildReport_of_none (hl : s.table.lookup ssrc = none) (supplied : Option (U32 × U32)) :
    exec (.buildReport ssrc supplied) s = .next (s.respond (Response.ofStatus .noSuchSource)) := by
  show execBuildReport ssrc supplied s = _
  rw [execBuildReport, hl]
  rfl

theorem exec_removeSource_of_none (hl : s.table.lookup ssrc = none) :
    exec (.removeSource ssrc) s = .next (s.respond (Response.ofStatus .noSuchSource)) := by
  show execRemoveSource ssrc s = _
  rw [execRemoveSource, hl]
  rfl

theorem exec_removeSource_of_some {e : Entry} (hl : s.table.lookup ssrc = some e) : exec (.removeSource ssrc) s =
    .next ((s.withTable (s.table.free ssrc)).respond (Response.ofStatus .ok)) := by
  show execRemoveSource ssrc s = _
  rw [execRemoveSource, hl]
  rfl

theorem exec_querySource_of_none (hl : s.table.lookup ssrc = none) :
    exec (.querySource ssrc) s = .next (s.respond (Response.ofStatus .noSuchSource)) := by
  show execQuerySource ssrc s = _
  rw [execQuerySource, hl]
  rfl

theorem exec_querySource_of_some {e : Entry} (hl : s.table.lookup ssrc = some e) :
    exec (.querySource ssrc) s = .next (s.respond { Response.ofStatus .ok with q := e }) := by
  show execQuerySource ssrc s = _
  rw [execQuerySource, hl]
  rfl

end

section
variable (s : State) (ssrc : U32)

theorem othersKept_respond (r : Response) : s.OthersKept ssrc (s.respond r) := fun _ _ => rfl

/-- RTP_RECEIVED is answered TABLE_FULL, or it stores one entry (R161). -/
theorem exec_rtpReceived_cases (seq : U16) (rtpTs arrival : U32) :
    exec (.rtpReceived ssrc seq rtpTs arrival) s = .next (s.respond (Response.ofStatus .tableFull)) ∨
    ∃ t r, exec (.rtpReceived ssrc seq rtpTs arrival) s = .next t ∧
      s.Stored t ssrc (some (received r rtpTs arrival)) (rxResponse r.2 (received r rtpTs arrival) seq) := by
  cases hl : s.table.lookup ssrc with
  | some e =>
    obtain ⟨t, hx, hstored⟩ := execRtpReceived_stored hl seq rtpTs arrival
    exact .inr ⟨t, validate e seq, hx, hstored⟩
  | none =>
    by_cases hc : s.table.count < s.params.maxSources
    · obtain ⟨t, hx, hstored⟩ := execRtpReceived_created hl hc seq rtpTs arrival
      exact .inr ⟨t, (initEntry ssrc seq, .newSource), hx, hstored⟩
    · exact .inl (exec_rtpReceived_of_full rtpTs arrival hl (not_lt.mp hc))

theorem exec_buildReport_answers (supplied : Option (U32 × U32)) :
    ∃ t, exec (.buildReport ssrc supplied) s = .next t ∧ s.OthersKept ssrc t ∧ t.resp.Unclassified := by
  cases hl : s.table.lookup ssrc with
  | none => exact ⟨_, exec_buildReport_of_none hl supplied, othersKept_respond s ssrc _, unclassified_ofStatus _⟩
  | some e =>
    obtain ⟨t, hx, -, hothers, -, hresp⟩ := execBuildReport_stored hl supplied
    exact ⟨t, hx, hothers, by rw [hresp]; exact ⟨⟨.ok, rfl⟩, rfl, rfl⟩⟩

theorem exec_removeSource_answers :
    ∃ t, exec (.removeSource ssrc) s = .next t ∧ s.OthersKept ssrc t ∧ t.resp.Unclassified := by
  cases hl : s.table.lookup ssrc with
  | none => exact ⟨_, exec_removeSource_of_none hl, othersKept_respond s ssrc _, unclassified_ofStatus _⟩
  | some e =>
    exact ⟨_, exec_removeSource_of_some hl, fun _ hne => Table.lookup_free_other s.table hne, unclassified_ofStatus _⟩

theorem exec_querySource_answers :
    ∃ t, exec (.querySource ssrc) s = .next t ∧ s.OthersKept ssrc t ∧ t.resp.Unclassified := by
  cases hl : s.table.lookup ssrc with
  | none => exact ⟨_, exec_querySource_of_none hl, othersKept_respond s ssrc _, unclassified_ofStatus _⟩
  | some e => exact ⟨_, exec_querySource_of_some hl, othersKept_respond s ssrc _, ⟨.ok, rfl⟩, rfl, rfl⟩

end

/-! ## The commands and rows that name none -/

theorem emit_unclassified (s : State) (r : Except Status RtcpPacket) :
    ∃ r' : Response, s.emit r = .next (s.respond r') ∧ r'.Unclassified := by
  cases r with
  | ok p => exact ⟨_, rfl, ⟨.ok, rfl⟩, rfl, rfl⟩
  | error st => exact ⟨_, rfl, ⟨st, rfl⟩, rfl, rfl⟩

theorem finishRtp_unclassified (s : State) (r : Except Status RtpPacket) :
    ∃ r' : Response, s.finishRtp r = .next (s.respond r') ∧ r'.Unclassified := by
  obtain ⟨st, p, -, h⟩ := finishRtp_answers r
  exact ⟨_, h s, ⟨st, rfl⟩, rfl, rfl⟩

/-- An instruction that names no source writes the response only. -/
theorem exec_of_source_none {i : Instr} (hi : i.source = none) (s : State) :
    ∃ r : Response, exec i s = .next (s.respond r) ∧ r.Unclassified := by
  cases i with
  | decodeRtp buf =>
    rw [exec_decodeRtp]
    exact finishRtp_unclassified s _
  | decodeRtcp buf => exact ⟨_, exec_decodeRtcp_eq_buffer buf s, ⟨_, rfl⟩, rfl, rfl⟩
  | illegal cmd => exact ⟨_, exec_illegal cmd s, unclassified_ofStatus _⟩
  | rtpData => exact finishRtp_unclassified s _
  | rtcpSr => exact emit_unclassified s _
  | rtcpRr => exact emit_unclassified s _
  | rtcpSdes => exact emit_unclassified s _
  | rtcpBye => exact emit_unclassified s _
  | rtcpApp => exact emit_unclassified s _
  | rtcpOther => exact emit_unclassified s _
  | rtpReceived | buildReport | removeSource | querySource => cases hi

/-! ## Every instruction -/

/-- A command that names a source keeps every other one (R174(j)), and of these only RTP_RECEIVED answers a CLASS or a
RES0. -/
theorem exec_of_source {i : Instr} {ssrc : U32} (hi : i.source = some ssrc) (s : State) :
    ∃ t, exec i s = .next t ∧ s.OthersKept ssrc t ∧
      ((∀ k seq rtpTs arrival, i ≠ .rtpReceived k seq rtpTs arrival) → t.resp.Unclassified) := by
  cases i with
  | rtpReceived _ seq rtpTs arrival =>
    cases hi
    rcases exec_rtpReceived_cases s ssrc seq rtpTs arrival with hx | ⟨t, r, hx, -, hothers, -, -⟩
    · exact ⟨_, hx, othersKept_respond s ssrc _, fun h => absurd rfl (h ssrc seq rtpTs arrival)⟩
    · exact ⟨t, hx, hothers, fun h => absurd rfl (h ssrc seq rtpTs arrival)⟩
  | buildReport _ supplied =>
    cases hi
    obtain ⟨t, hx, hothers, hr⟩ := exec_buildReport_answers s ssrc supplied
    exact ⟨t, hx, hothers, fun _ => hr⟩
  | removeSource =>
    cases hi
    obtain ⟨t, hx, hothers, hr⟩ := exec_removeSource_answers s ssrc
    exact ⟨t, hx, hothers, fun _ => hr⟩
  | querySource =>
    cases hi
    obtain ⟨t, hx, hothers, hr⟩ := exec_querySource_answers s ssrc
    exact ⟨t, hx, hothers, fun _ => hr⟩
  | _ => cases hi

section
variable {i : Instr} {s t : State} (hx : exec i s = .next t)
include hx

theorem exec_sameRest : s.SameRest t := by
  obtain ⟨table, r, hanswer, -⟩ := exec_answers i s
  cases hx.symm.trans hanswer
  exact ⟨rfl, rfl, rfl⟩

theorem exec_othersKept {ssrc : U32} (hi : i.source = some ssrc) : s.OthersKept ssrc t := by
  obtain ⟨u, hu, hothers, -⟩ := exec_of_source hi s
  cases hx.symm.trans hu
  exact hothers

/-- A source that an instruction does not name keeps its entry, or stays without one. -/
theorem exec_lookup_other {k : U32} (hk : i.source ≠ some k) : t.table.lookup k = s.table.lookup k := by
  cases hi : i.source with
  | none =>
    obtain ⟨r, hanswer, -⟩ := exec_of_source_none hi s
    cases hx.symm.trans hanswer
    rfl
  | some ssrc => exact exec_othersKept hx hi k fun h => hk (hi.trans (congrArg some h.symm))

/-- Only RTP_RECEIVED answers a CLASS or a RES0 (R97, R173). -/
theorem exec_unclassified (hi : ∀ ssrc seq rtpTs arrival, i ≠ .rtpReceived ssrc seq rtpTs arrival) :
    t.resp.Unclassified := by
  cases hsource : i.source with
  | none =>
    obtain ⟨r, hanswer, hr⟩ := exec_of_source_none hsource s
    cases hx.symm.trans hanswer
    exact hr
  | some =>
    obtain ⟨u, hu, -, hr⟩ := exec_of_source hsource s
    cases hx.symm.trans hu
    exact hr hi

end

/-! ## The way back to probation (R174(i)) -/

theorem received_probation (r : Entry × RxClass) (rtpTs arrival : U32) :
    (received r rtpTs arrival).probation = r.1.probation := by
  unfold received
  split <;> simp

/-- Of the validator's branches on a Valid entry, only the restart arms probation. -/
theorem validate_restart_of_probation {e : Entry} {seq : U16} (hp : e.probation = 0)
    (h : (validate e seq).1.probation ≠ 0) : (validate e seq).2 = .restart := by
  rcases validate_valid_cases seq hp with hv | hv | hv | hv <;> rw [hv] at h ⊢
  · exact absurd hp h
  · exact absurd hp h
  · exact absurd hp h

/-- Of the instructions, only RTP_RECEIVED takes a source from Valid to probation: BUILD_REPORT and QUERY_SOURCE keep
`probation`, and REMOVE_SOURCE leaves no entry. -/
theorem exec_restart_of_probation {i : Instr} {s t : State} {k : U32} {e e' : Entry} (hsorted : s.table.sorted = true)
    (hx : exec i s = .next t) (hl : s.table.lookup k = some e) (hp : e.probation = 0)
    (hl' : t.table.lookup k = some e') (hp' : e'.probation ≠ 0) :
    t.resp.cls = RxClass.restart.code ∧ ∃ seq rtpTs arrival, i = .rtpReceived k seq rtpTs arrival := by
  by_cases hk : i.source = some k
  · cases i with
    | rtpReceived _ seq rtpTs arrival =>
      cases hk
      obtain ⟨u, hu, hentry, -, -, hresp⟩ := execRtpReceived_stored hl seq rtpTs arrival
      cases hx.symm.trans hu
      cases hl'.symm.trans hentry
      rw [received_probation] at hp'
      rw [hresp, rxResponse_cls, validate_restart_of_probation hp hp']
      exact ⟨rfl, seq, rtpTs, arrival, rfl⟩
    | buildReport _ supplied =>
      cases hk
      obtain ⟨u, hu, hentry, -⟩ := execBuildReport_stored hl supplied
      cases hx.symm.trans hu
      cases hl'.symm.trans hentry
      exact absurd hp hp'
    | removeSource =>
      cases hk
      cases hx.symm.trans (exec_removeSource_of_some hl)
      cases hl'.symm.trans (Table.lookup_free_self hsorted k)
    | querySource =>
      cases hk
      cases hx.symm.trans (exec_querySource_of_some hl)
      cases hl'.symm.trans hl
      exact absurd hp hp'
    | _ => cases hk
  · cases hl'.symm.trans ((exec_lookup_other hx hk).trans hl)
    exact absurd hp hp'

/-! ## Codes (R173, R231) -/

theorem Status.code_le (st : Status) : st.code.toNat ≤ 7 := by
  cases st <;> decide

theorem RxClass.code_le (cls : RxClass) : cls.code.toNat ≤ 6 := by
  cases cls <;> decide

/-- The codes of R173: RES0 is 0 with REJECTED. -/
theorem rxResponse_codes (cls : RxClass) (e : Entry) (seq : U16) : (rxResponse cls e seq).status.toNat ≤ 7 ∧
    (rxResponse cls e seq).cls.toNat ≤ 6 ∧
    ((rxResponse cls e seq).status ≠ Status.ok.code → (rxResponse cls e seq).res0 = 0) := by
  cases ha : cls.accepts
  · rw [rxResponse_of_rejects ha]
    exact ⟨Status.code_le .rejected, cls.code_le, fun _ => rfl⟩
  · rw [rxResponse_of_accepts ha]
    exact ⟨Status.code_le .ok, cls.code_le, fun h => absurd rfl h⟩

theorem Response.Unclassified.codes {r : Response} (h : r.Unclassified) : r.status.toNat ≤ 7 ∧ r.cls.toNat ≤ 6 ∧
    (r.status ≠ Status.ok.code → r.res0 = 0) := by
  obtain ⟨⟨st, hst⟩, hcls, hres0⟩ := h
  rw [hst, hcls]
  exact ⟨st.code_le, RxClass.code_le .newSource, fun _ => hres0⟩

/-- The codes of every instruction's answer. -/
theorem exec_codes {i : Instr} {s t : State} (hx : exec i s = .next t) : t.resp.status.toNat ≤ 7 ∧
    t.resp.cls.toNat ≤ 6 ∧ (t.resp.status ≠ Status.ok.code → t.resp.res0 = 0) := by
  by_cases hi : ∃ ssrc seq rtpTs arrival, i = .rtpReceived ssrc seq rtpTs arrival
  · obtain ⟨ssrc, seq, rtpTs, arrival, rfl⟩ := hi
    rcases exec_rtpReceived_cases s ssrc seq rtpTs arrival with hu | ⟨u, r, hu, -, -, -, hresp⟩ <;>
      cases hx.symm.trans hu
    · exact (unclassified_ofStatus .tableFull).codes
    · rw [hresp]
      exact rxResponse_codes r.2 _ seq
  · push Not at hi
    exact (exec_unclassified hx hi).codes

end Sys2Proof.Machine

open Sys2Proof Sys2Proof.Machine

/-- Settles O29: each of the four commands names its SSRC (`exec_othersKept`). -/
theorem onlyTheNamedSourceChanges : Obligations.OnlyTheNamedSourceChanges := by
  rintro s t ssrc (⟨seq, rtpTs, arrival, hx⟩ | ⟨supplied, hx⟩ | hx | hx) <;>
    exact ⟨exec_othersKept hx rfl, exec_sameRest hx⟩

/-- Settles O30: the step runs the decoded instruction, on the table it finds (`exec_restart_of_probation`). -/
theorem onlyRestartReturnsToProbation : Obligations.OnlyRestartReturnsToProbation := by
  intro s t c rest k e e' hinv hpending hstep hl hp hl' hp'
  obtain ⟨-, htable, -⟩ := (State.inv_iff s).mp hinv
  obtain ⟨hsorted, -, -⟩ := Table.wf_iff.mp htable
  rw [step_of_command hpending] at hstep
  exact exec_restart_of_probation (s := s.withPending rest) hsorted hstep hl hp hl' hp'

/-- Settles O59: the codes are those of the decoded instruction's answer (`exec_codes`, `exec_unclassified`). -/
theorem outcomeCodesAreTheListedOnes : Obligations.OutcomeCodesAreTheListedOnes := by
  intro s t c rest hpending hstep
  rw [step_of_command hpending] at hstep
  obtain ⟨hstatus, hcls, hres0⟩ := exec_codes hstep
  exact ⟨hstatus, hcls, fun hi => ⟨(exec_unclassified hstep hi).cls, (exec_unclassified hstep hi).res0⟩, hres0⟩

end

section
/-! The jitter estimator (R190 to R194): the new estimate as a number, and its decay under a constant transit. -/

namespace Sys2Proof.Machine

section
variable {e : Entry} {ts a : U32}

/-! ## The new estimate and the frame of the step (R190, R192) -/

/-- The step writes the estimate, the kept transit and its valid bit, and nothing else (R190). -/
theorem jitterStep_frame (e : Entry) (ts a : U32) : jitterStep e ts a =
    { e with jitter := (jitterStep e ts a).jitter, transitPrev := a - ts, transitValid := 1 } := by
  unfold jitterStep
  split <;> rfl

/-- The truncated step by the sign of the difference, as the spec's formula on integers (R190). -/
theorem smoothedJitter_toInt (j : U32) {d : Int} (h : d.natAbs ≤ 2 ^ 31) :
    ((smoothedJitter j d).toNat : Int) = j.toNat + Int.tdiv (|d| - j.toNat) 16 := by
  rw [smoothedJitter_toNat j d h, Nat.cast_ite, ← tdiv_gain, Int.natCast_natAbs]
  rfl

/-- `smoothedJitter_toNat` at the difference of the transits, which is never too large (`sext_natAbs_le`). -/
theorem jitterStep_jitter_toNat (h : e.transitValid = 1) {d : Nat} (hd : d = (a - ts - e.transitPrev).toInt.natAbs) :
    (jitterStep e ts a).jitter.toNat =
      if e.jitter.toNat ≤ d then e.jitter.toNat + (d - e.jitter.toNat) / 16
      else e.jitter.toNat - (e.jitter.toNat - d) / 16 := by
  rw [jitterStep_jitter, if_pos h, smoothedJitter_toNat _ _ (sext_natAbs_le _), hd]
  rfl

/-! ## A constant transit (R193) -/

/-- With no difference the estimate loses a sixteenth of itself, rounded down. -/
theorem jitterStep_jitter_toNat_of_sameTransit (h : e.transitValid = 1) (ht : a - ts = e.transitPrev) :
    (jitterStep e ts a).jitter.toNat = e.jitter.toNat - e.jitter.toNat / 16 := by
  have hd : 0 = (a - ts - e.transitPrev).toInt.natAbs := by rw [ht, BitVec.sub_self]; rfl
  rw [jitterStep_jitter_toNat h hd]
  split <;> omega

/-- The decay stops at the floor: a sixteenth of at most 15 is 0. -/
theorem jitterStep_of_sameTransit_of_le (h : e.transitValid = 1) (ht : a - ts = e.transitPrev)
    (hj : e.jitter.toNat ≤ 15) : jitterStep e ts a = e := by
  have hkeep : (jitterStep e ts a).jitter = e.jitter := by
    apply BitVec.eq_of_toNat_eq
    rw [jitterStep_jitter_toNat_of_sameTransit h ht]
    omega
  rw [jitterStep_frame, hkeep, ht, ← h]

/-- Above the floor every step lowers the estimate and none passes 15, so `m` steps take `15 + m` or less to 15. -/
theorem jitterStep_iterate_jitter_of_sameTransit (m : Nat) (h : e.transitValid = 1) (ht : a - ts = e.transitPrev)
    (hlo : 15 ≤ e.jitter.toNat) (hhi : e.jitter.toNat ≤ 15 + m) :
    ((fun x => jitterStep x ts a)^[m] e).jitter = 15 := by
  induction m generalizing e with
  | zero => exact BitVec.eq_of_toNat_eq (Nat.le_antisymm hhi hlo)
  | succ m ih =>
    have hstep := jitterStep_jitter_toNat_of_sameTransit h ht
    rw [Function.iterate_succ_apply]
    exact ih (jitterStep_transitValid e ts a) (jitterStep_transitPrev e ts a).symm (by omega) (by omega)

end

end Sys2Proof.Machine

open Sys2Proof Sys2Proof.Machine

/-- Settles O25: the estimate by `smoothedJitter_toInt`, the rest by `jitterStep_frame`. -/
theorem jitterStepIsExact : Obligations.JitterStepIsExact := by
  intro e rtpTs arrival
  refine ⟨fun h => ?_, fun h => ?_, jitterStep_frame e rtpTs arrival⟩
  · rw [jitterStep_jitter, if_pos h]
    exact smoothedJitter_toInt e.jitter (sext_natAbs_le _)
  · rw [jitterStep_jitter, if_neg h]

/-- Settles O26: by the sign of the difference, the step goes a sixteenth of the way to it
(`jitterStep_jitter_toNat`), and the difference is at most 2^31 (`sext_natAbs_le`). -/
theorem jitterEstimateIsBounded : Obligations.JitterEstimateIsBounded := by
  intro e rtpTs arrival d h hd
  obtain ⟨n, hn⟩ : ∃ n, n = (arrival - rtpTs - e.transitPrev).toInt.natAbs := ⟨_, rfl⟩
  have hdn : d = (n : Int) := by rw [hd, hn, Int.natCast_natAbs]
  have hle : n ≤ 2 ^ 31 := hn ▸ sext_natAbs_le _
  rw [jitterStep_jitter_toNat h hn, hdn]
  split <;> omega

/-- Settles O27: at the floor `jitterStep_of_sameTransit_of_le`; from above, the distance to 15 is a number of steps
that suffices (`jitterStep_iterate_jitter_of_sameTransit`). -/
theorem jitterDecaysToFifteen : Obligations.JitterDecaysToFifteen := by
  intro e rtpTs arrival h ht
  refine ⟨jitterStep_of_sameTransit_of_le h ht, fun hlo => ⟨e.jitter.toNat - 15, fun m hm => ?_⟩⟩
  exact jitterStep_iterate_jitter_of_sameTransit m h ht hlo (by omega)

end

section
/-! SUPPORT. BUILD_REPORT read backwards (R201 to R211): what the answered state stores, the fraction of two interval
counts, and the fields of a report in OUT. -/

namespace Sys2Proof.Machine

/-! ## The fraction lost (R205) -/

section
variable {ei li : Int}

theorem fractionOf_of_nonpos (h : ei ≤ 0 ∨ li ≤ 0) : fractionOf ei li = 0 := if_pos h

theorem fractionOf_of_pos (hei : 0 < ei) (hli : 0 < li) :
    fractionOf ei li = min 255 ((512 * li + ei) / (2 * ei)) := if_neg (by omega)

end

/-- The quotient is the integer nearest to `256 * li / ei`, the greater one of two: the remainder of the division
lies between 0 and `2 * ei`. -/
theorem fractionQuotient_nearest {ei : Int} (hei : 0 < ei) (li : Int) :
    (2 * ((512 * li + ei) / (2 * ei)) - 1) * ei ≤ 512 * li ∧
      512 * li < (2 * ((512 * li + ei) / (2 * ei)) + 1) * ei := by
  have hlow := Int.ediv_mul_le (512 * li + ei) (b := 2 * ei) (by omega)
  have hhigh := Int.lt_ediv_add_one_mul_self (512 * li + ei) (b := 2 * ei) (by omega)
  constructor <;> linarith

theorem fractionOf_bounds (ei li : Int) : 0 ≤ fractionOf ei li ∧ fractionOf ei li ≤ 255 := by
  by_cases h : ei ≤ 0 ∨ li ≤ 0
  · rw [fractionOf_of_nonpos h]
    decide
  · obtain ⟨hei, hli⟩ := not_or.mp h
    rw [fractionOf_of_pos (not_le.mp hei) (not_le.mp hli)]
    have hquot : 0 ≤ (512 * li + ei) / (2 * ei) := Int.ediv_nonneg (by omega) (by omega)
    exact ⟨le_min (by decide) hquot, min_le_left _ _⟩

/-- The octet of the report loses nothing of the fraction. -/
theorem reportOf_fraction_toNat (e : Entry) (supplied : Option (U32 × U32)) :
    ((reportOf e supplied).fraction.toNat : Int) = fractionOf (expectedInterval e) (lostInterval e) := by
  obtain ⟨hlow, hhigh⟩ := fractionOf_bounds (expectedInterval e) (lostInterval e)
  show ((BitVec.ofInt 8 _).toNat : Int) = _
  rw [BitVec.toNat_ofInt]
  omega

/-! ## The cumulative count in OUT (R203) -/

@[simp] theorem reportOf_cumLost (e : Entry) (supplied : Option (U32 × U32)) :
    (reportOf e supplied).cumLost = cumLostOf e := rfl

theorem cumLostOf_bounds (e : Entry) : 0 ≤ cumLostOf e ∧ cumLostOf e ≤ 0x7FFFFF := by
  unfold cumLostOf lostOf
  omega

/-- 24 bits lose nothing of the count. -/
theorem cumLostOf_toNat (e : Entry) : ((BitVec.ofInt 24 (cumLostOf e)).toNat : Int) = cumLostOf e := by
  have hbounds := cumLostOf_bounds e
  rw [BitVec.toNat_ofInt]
  omega

/-- The octets of a 24-bit value are its digits to the base 256. -/
theorem octetsOf3_toNat (v : BitVec 24) : (v.extractLsb' 16 8).toNat * 65536 + (v.extractLsb' 8 8).toNat * 256 +
    (v.extractLsb' 0 8).toNat = v.toNat := by
  have hv := v.isLt
  simp only [BitVec.extractLsb'_toNat, Nat.shiftRight_eq_div_pow]
  omega

/-- Octets 5 to 7 of OUT are the big-endian octets of the count (R90). -/
theorem encodeBlock_cumLost (b : ReportBlock) :
    ((encodeBlock Memory.empty b).read 5).toNat * 65536 + ((encodeBlock Memory.empty b).read 6).toNat * 256 +
      ((encodeBlock Memory.empty b).read 7).toNat = (BitVec.ofInt 24 b.cumLost).toNat := by
  rw [encodeBlock_read, encodeBlock_read, encodeBlock_read]
  exact octetsOf3_toNat (BitVec.ofInt 24 b.cumLost)

theorem encodeBlock_read_beyond (b : ReportBlock) {a : Nat} (ha : 24 ≤ a) : (encodeBlock Memory.empty b).read a = 0 := by
  rw [encodeBlock_read, List.getElem?_eq_none ha]
  rfl

/-! ## The snapshot (R208) -/

theorem expectedInterval_snapshot (e : Entry) : expectedInterval e.snapshot = 0 := by
  show expectedOf e - e.snapshot.expectedPrior.toInt = 0
  rw [snapshot_expectedPrior, sub_self]

theorem snapshot_snapshot (e : Entry) : e.snapshot.snapshot = e.snapshot := rfl

theorem reportOf_snapshot_fraction (e : Entry) (supplied : Option (U32 × U32)) :
    (reportOf e.snapshot supplied).fraction = 0 := by
  show BitVec.ofInt 8 (fractionOf (expectedInterval e.snapshot) _) = 0
  rw [fractionOf_of_nonpos (.inl (expectedInterval_snapshot e).le)]
  rfl

/-! ## The answered state -/

/-- Whatever BUILD_REPORT answers for a source is the state of `execBuildReport_stored`. -/
theorem stored_of_exec_buildReport {s t : State} {ssrc : U32} {supplied : Option (U32 × U32)} {e : Entry}
    (hl : s.table.lookup ssrc = some e) (hx : exec (.buildReport ssrc supplied) s = .next t) :
    s.Stored t ssrc (some e.snapshot) (reportResponse (reportOf e supplied)) := by
  obtain ⟨u, hu, hstored⟩ := execBuildReport_stored hl supplied
  obtain rfl : u = t := by simpa [hu] using hx
  exact hstored

end Sys2Proof.Machine

open Sys2Proof Sys2Proof.Machine

/-- Settles O31: the state of `execBuildReport_stored`, whose counts are the model's by their definitions. -/
theorem reportIsBuiltFromCounters : Obligations.ReportIsBuiltFromCounters := by
  intro s ssrc supplied e hl
  obtain ⟨t, hx, hentry, hothers, hrest, hresp⟩ := execBuildReport_stored hl supplied
  obtain rfl : e.ssrc = ssrc := (Table.lookup_some hl).2
  refine ⟨t, expectedOf e, lostOf e, expectedInterval e, lostInterval e, rfl, rfl, rfl, rfl, hx,
    ⟨hentry, hothers, hrest, ?_⟩, snapshot_expectedPrior e⟩
  rw [hresp, reportResponse_out, reportResponse, reportOf]
  cases supplied <;> rfl

/-- Settles O33: the two cases of `fractionOf`, the quotient as the nearest integer (`fractionQuotient_nearest`), and
the octet of the report (`reportOf_fraction_toNat`). -/
theorem fractionLostIsRounded : Obligations.FractionLostIsRounded := by
  refine ⟨fun ei li => ⟨fractionOf_of_nonpos, fun hei hli => ?_⟩, by decide, fun s t ssrc supplied e hl hx => ?_⟩
  · obtain ⟨hlow, hhigh⟩ := fractionQuotient_nearest hei li
    exact ⟨fractionOf_of_pos hei hli, _, hlow, hhigh, fractionOf_of_pos hei hli⟩
  · obtain ⟨-, -, -, hresp⟩ := stored_of_exec_buildReport hl hx
    rw [hresp, reportResponse_rb, reportOf_fraction_toNat]

/-- Settles O34: the count is at most 0x7FFFFF (`cumLostOf_bounds`), so its 24 bits in OUT (`encodeBlock_cumLost`)
are the count itself, with the highest bit 0. -/
theorem cumulativeLostSaturates : Obligations.CumulativeLostSaturates := by
  intro s t ssrc supplied e hl hx
  obtain ⟨-, -, -, hresp⟩ := stored_of_exec_buildReport hl hx
  obtain ⟨hlow, hhigh⟩ := cumLostOf_bounds e
  have hcount := cumLostOf_toNat e
  have hout := encodeBlock_cumLost (reportOf e supplied)
  rw [reportOf_cumLost] at hout
  rw [hresp, reportResponse_out, reportResponse_rb, reportOf_cumLost]
  exact ⟨rfl, hlow, by rw [hout, hcount], by omega⟩

/-- Settles O35: OUT is the layout of RB (`encodeBlock_octets`), and nothing beyond it. -/
theorem outHoldsTheReportBlock : Obligations.OutHoldsTheReportBlock := by
  intro s t ssrc supplied e hl hx
  obtain ⟨-, -, -, hresp⟩ := stored_of_exec_buildReport hl hx
  rw [hresp, reportResponse_out, reportResponse_rb, encodeBlock_octets]
  exact ⟨rfl, fun a => encodeBlock_read_beyond _⟩

/-- Settles O37: the second report is that of the snapshot, which the snapshot leaves as it is. -/
theorem secondReportHasEmptyInterval : Obligations.SecondReportHasEmptyInterval := by
  intro s t u ssrc first second e hl hxt hxu
  obtain ⟨hentry, -, -, hresp⟩ := stored_of_exec_buildReport hl hxt
  obtain ⟨hentry', -, -, hresp'⟩ := stored_of_exec_buildReport hentry hxu
  rw [hresp', hresp, hentry', hentry, snapshot_snapshot]
  exact ⟨reportOf_snapshot_fraction e second, rfl, rfl, rfl⟩

/-- Settles O32: none of the three commands finds an entry. -/
theorem unknownSourceIsRefused : Obligations.UnknownSourceIsRefused :=
  fun _ _ hl => ⟨exec_buildReport_of_none hl, exec_removeSource_of_none hl, exec_querySource_of_none hl⟩

end

section
/-! SUPPORT. REMOVE_SOURCE on an SSRC that has an entry: what is stored, and the room it leaves (R220). -/

namespace Sys2Proof.Machine

/-- The table of a state that meets the invariant has at most one entry per SSRC, at most MAX_SOURCES of them (R21). -/
theorem State.table_of_inv {s : State} (h : s.inv = true) :
    s.table.sorted = true ∧ s.table.count ≤ s.params.maxSources := by
  obtain ⟨-, htable, -⟩ := (State.inv_iff s).mp h
  obtain ⟨hsorted, hcount, -⟩ := Table.wf_iff.mp htable
  exact ⟨hsorted, hcount⟩

/-- REMOVE_SOURCE on an SSRC that has an entry frees the only one it has, since the table is sorted (R21, R220). -/
theorem exec_removeSource_stored {s : State} {ssrc : U32} {e : Entry} (hsorted : s.table.sorted = true)
    (hl : s.table.lookup ssrc = some e) : ∃ t, exec (.removeSource ssrc) s = .next t ∧
      s.Stored t ssrc none (Response.ofStatus .ok) ∧ t.table.count + 1 = s.table.count :=
  ⟨_, exec_removeSource_of_some hl,
    ⟨Table.lookup_free_self hsorted ssrc, fun _ hne => Table.lookup_free_other s.table hne, ⟨rfl, rfl, rfl⟩, rfl⟩,
    Table.count_free hl⟩

end Sys2Proof.Machine

open Sys2Proof Sys2Proof.Machine

/-- Settles O38: `exec_removeSource_stored` with an entry, `exec_removeSource_of_none` without one. -/
theorem removedSourceIsGone : Obligations.RemovedSourceIsGone :=
  fun _ _ hinv => ⟨fun _ => exec_removeSource_stored (State.table_of_inv hinv).1, exec_removeSource_of_none⟩

/-- Settles O39: the removal leaves the SSRC without an entry and one entry free, even of a full table, so its next
packet is that of a new source (`newSourceIsAccepted`). -/
theorem removedSourceStartsAnew : Obligations.RemovedSourceStartsAnew := by
  intro s t ssrc seq rtpTs arrival e hinv hl hx
  obtain ⟨hsorted, hcount⟩ := State.table_of_inv hinv
  obtain ⟨t', hx', ⟨hgone, -, ⟨hparams, -, -⟩, -⟩, hfreed⟩ := exec_removeSource_stored hsorted hl
  cases hx.symm.trans hx'
  have hroom : t.table.count < t.params.maxSources := by
    rw [hparams]
    omega
  obtain ⟨u, hu, hentry, -, -, hresp⟩ := newSourceIsAccepted t ssrc seq rtpTs arrival hgone hroom
  exact ⟨u, hu, hentry, hresp⟩

/-- Settles O40: `exec_querySource_of_some` with an entry, `exec_querySource_of_none` without one. -/
theorem queryCopiesTheEntry : Obligations.QueryCopiesTheEntry :=
  fun _ _ => ⟨fun _ => exec_querySource_of_some, exec_querySource_of_none⟩

end

section
/-! SUPPORT. Every instruction and every step answers a next state (R230, R242), a step with no input waiting changes
nothing (R241), and an error leaves the source table as it was (R233). -/

namespace Sys2Proof.Machine

/-- No instruction faults or is refused. -/
theorem exec_next (i : Instr) (s : State) : ∃ t, exec i s = .next t := by
  obtain ⟨table, r, hanswer, -⟩ := exec_answers i s
  exact ⟨_, hanswer⟩

/-- No step does, whichever input the host has waiting. -/
theorem step_next (s : State) : ∃ t, step s = .next t := by
  rcases step_cases s with ⟨-, hs⟩ | ⟨c, rest, -, hs⟩ | ⟨rest, -, hs⟩ | ⟨buf, arrival, rest, t, -, -, hs⟩
  · exact ⟨_, hs⟩
  · rw [hs]
    exact exec_next (decodeCommand c) (s.withPending rest)
  · exact ⟨_, hs⟩
  · exact ⟨_, hs⟩

theorem step_of_idle {s : State} (h : s.pending = []) : step s = .next s := by
  rw [step, h]

/-- An instruction that writes the table answers OK or REJECTED, whose codes are 0 and 1 (R231). -/
theorem exec_table_of_error {i : Instr} {s t : State} (hx : exec i s = .next t) (herror : 2 ≤ t.resp.status.toNat) :
    t.table = s.table := by
  obtain ⟨table, r, hanswer, hkept | hok | hrejected⟩ := exec_answers i s <;> cases hx.symm.trans hanswer
  · exact hkept
  · rw [State.respond_resp, hok] at herror
    exact absurd herror (by decide)
  · rw [State.respond_resp, hrejected] at herror
    exact absurd herror (by decide)

end Sys2Proof.Machine

open Sys2Proof Sys2Proof.Machine

/-- Settles O4: every case of an instruction (`exec_answers`) and of a step (`step_cases`) is a next state. -/
theorem everyStepAnswersNextState : Obligations.EveryStepAnswersNextState := ⟨exec_next, step_next⟩

/-- Settles O58: the step runs the decoded instruction, on the table it finds (`exec_table_of_error`). -/
theorem errorsLeaveTheTable : Obligations.ErrorsLeaveTheTable := by
  intro s t c rest hpending hstep herror
  rw [step_of_command hpending] at hstep
  exact exec_table_of_error (s := s.withPending rest) hstep herror

/-- Settles O9: the step's own case for no waiting input (`step_of_idle`). -/
theorem idleBlockHoldsItsState : Obligations.IdleBlockHoldsItsState := fun _ => step_of_idle

end

section
/-! SUPPORT. The step on a reset signal (R260), and the run of a list of waiting commands (R268). -/

namespace Sys2Proof.Machine

theorem step_of_reset {s : State} {rest : List HostEvent} (h : s.pending = .reset :: rest) :
    step s = .next (s.withPending rest).resetSignal := by
  rw [step, h]

/-- One step takes one command off the waiting inputs, whatever it answers, and keeps the parameters and the counter. -/
theorem step_command_next {s : State} {c : Command} {rest : List HostEvent} (h : s.pending = .command c :: rest) :
    ∃ t, step s = .next t ∧ t.pending = rest ∧ t.params = s.params ∧ t.fresh = s.fresh := by
  obtain ⟨t, hexec⟩ := exec_next (decodeCommand c) (s.withPending rest)
  obtain ⟨hparams, hpending, hfresh⟩ := exec_sameRest hexec
  exact ⟨t, (step_of_command h).trans hexec, hpending, hparams, hfresh⟩

/-- A list of commands is run to its end in as many steps as it has commands. -/
theorem run_commands (cs : List Command) {s : State} (h : s.pending = cs.map HostEvent.command) :
    ∃ t, Host.Core.run core cs.length s = .next t ∧
      t.pending = [] ∧ t.params = s.params ∧ t.fresh = s.fresh := by
  induction cs generalizing s with
  | nil => exact ⟨s, rfl, h, rfl, rfl⟩
  | cons c cs ih =>
    obtain ⟨u, hstep, hpending, hparams, hfresh⟩ := step_command_next h
    obtain ⟨t, hrun, hdone, hparams', hfresh'⟩ := ih hpending
    exact ⟨t, (run_succ core hstep cs.length).trans hrun, hdone, hparams'.trans hparams, hfresh'.trans hfresh⟩

end Sys2Proof.Machine

open Sys2Proof Sys2Proof.Machine

/-- Settles O11: by induction on the waiting commands (`run_commands`), each of which one step takes off the list
(`step_command_next`). -/
theorem finiteRunsEnd : Obligations.FiniteRunsEnd := fun cs _ => run_commands cs rfl

/-- Settles O1: the step's own case for a reset signal (`step_of_reset`), whose table is the empty one. -/
theorem resetSignalFreesEverySource : Obligations.ResetSignalFreesEverySource :=
  fun _ _ hpending => ⟨_, step_of_reset hpending, Table.lookup_nil, rfl, rfl, rfl, rfl⟩

end
